-- ==== Sys2Proof/Word.lean ====
section
/-! DEFINITION. The widths of 00_scope.md R12: a bit, a byte on the wire, a 16-bit raw temperature or poll limit,
a 32-bit host register. -/

namespace Sys2Proof

/-- One bit: a line level or a bit sent or sampled; `true` is logic 1 (R12, R18). -/
abbrev Bit := Bool

/-- One byte on the wire (R12). -/
abbrev Byte := BitVec 8

/-- A 16-bit value: the raw temperature or the poll limit (R12). -/
abbrev Half := BitVec 16

/-- A host register or command word (R12). -/
abbrev Word := BitVec 32

end Sys2Proof
end

