-- ==== Sys2Proof/Config.lean ====
section
/-! DEFINITION. The parameters of 00_scope.md R6 to R11, and the free values: constants without a body, for what
the spec leaves to the environment. -/

namespace Sys2Proof.Config

/-- What the line port does for a written 1 (R8, 90_conflicts.md C1). -/
inductive Write1Drive where
  /-- High impedance; the pull-up gives the 1. -/
  | release
  /-- The port drives the line to 1. -/
  | driveHigh
  deriving DecidableEq, Repr

/-- The device model the host is configured for, which fixes `TEMP_SCALE` (R9). -/
inductive TempScale where
  /-- 16 raw units per degree Celsius. -/
  | ds18b20
  /-- 2 raw units per degree Celsius. -/
  | ds18s20
  deriving DecidableEq, Repr

/-- The parameters a model takes as arguments. Times are in microseconds (R11). -/
structure Params where
  /-- `T_RST_LOW`: bus reset, drive low. -/
  tRstLow : Nat
  /-- `T_RST_PDS`: bus reset, presence sample delay after release. -/
  tRstPds : Nat
  /-- `T_RST_HOLD`: bus reset, post-sample hold, run only when presence was seen (R71, 90_conflicts.md C3). -/
  tRstHold : Nat
  /-- `T_W_LOW`: write bit, initial drive low. -/
  tWLow : Nat
  /-- `T_W_HOLD`: write bit, value hold (90_conflicts.md C2). -/
  tWHold : Nat
  /-- `T_W_REC`: write bit, recovery after release. -/
  tWRec : Nat
  /-- `T_R_LOW`: read bit, initial drive low. -/
  tRLow : Nat
  /-- `T_R_PRE`: read bit, pre-sample delay after release. -/
  tRPre : Nat
  /-- `T_R_POST`: read bit, post-sample hold. -/
  tRPost : Nat
  /-- `DELAY_SLACK_US`: the most a delay exceeds its nominal length (R7). -/
  delaySlackUs : Nat
  /-- `WRITE1_DRIVE` (R8). -/
  write1Drive : Write1Drive
  /-- `TEMP_SCALE` (R9); only the host's conversion reads it. -/
  tempScale : TempScale
  /-- `BASE`: byte address of the register window (R10). -/
  base : Nat
  /-- `TICK_HZ` (R11); no rule reads it. -/
  tickHz : Nat
  deriving DecidableEq, Repr

/-- The defaults of R6 and R8. The open parameters `DELAY_SLACK_US`, `BASE` and `TICK_HZ` and the choice of device
model have none in the spec. DESIGN CHOICE (log entry 11): 0, 0, 0 and the DS18B20; statements quantify over
every `Params`. -/
def Params.default : Params where
  tRstLow := 500
  tRstPds := 70
  tRstHold := 430
  tWLow := 2
  tWHold := 60
  tWRec := 2
  tRLow := 2
  tRPre := 8
  tRPost := 120
  delaySlackUs := 0
  write1Drive := .release
  tempScale := .ds18b20
  base := 0
  tickHz := 0

/-- `TEMP_SCALE` as a number of raw units per degree (R9). -/
def TempScale.unitsPerDegree : TempScale → Nat
  | .ds18b20 => 16
  | .ds18s20 => 2

/-- The level the environment gives the `k`-th sample when `State.levels` lists none: a free draw, under no law
(10_state.md R18; log entry 3). -/
opaque freeLevel : Nat → Bit

/-- The excess of the `k`-th delay over its nominal length when `State.excess` lists none, before it is cut to
`DELAY_SLACK_US` (R7; log entry 4). -/
opaque freeExcess : Nat → Nat

/-- `SHIFT` after the `k`-th block reset: any value (70_reset_and_hazards.md R117; log entry 10). -/
opaque freeShift : Nat → Byte

/-- `BITI` after the `k`-th block reset: any value in 0..8 (R117; log entry 10). -/
opaque freeBiti : Nat → Fin 9

/-- `LSB` after the `k`-th block reset: any value (R117; log entry 10). -/
opaque freeLsb : Nat → Byte

/-- `MSB` after the `k`-th block reset: any value (R117; log entry 10). -/
opaque freeMsb : Nat → Byte

/-- `POLLN` after the `k`-th block reset: any value in 0..65535 (R117; log entry 10). -/
opaque freePolln : Nat → Fin 65536

/-- `PRES` after the `k`-th block reset: any value (R117; log entry 10). -/
opaque freePres : Nat → Bit

end Sys2Proof.Config
end

