-- ==== Sys2Proof/Syntax.lean ====
section
/-! DEFINITION. The instructions: one constructor per row of spec/opcode_table.json. -/

namespace Sys2Proof

/-- The nine command words a host writes to `CMD` (30_encoding.md R56) and the three wire command bytes the block
sends inside a session operation (R59), each named by its mnemonic in the opcode table. -/
inductive Instr where
  /-- `OW_RESET` (R72). -/
  | owreset
  /-- `OW_WRITE_BIT` with the bit to send, `w[8]` (R55, R74). -/
  | owwbit (b : Bit)
  /-- `OW_WRITE_BYTE` with the byte to send, `w[15:8]` (R55, R76). -/
  | owwbyte (v : Byte)
  /-- `OW_READ_BIT` (R78). -/
  | owrbit
  /-- `OW_READ_BYTE` (R80). -/
  | owrbyte
  /-- `DS_START_CONVERSION` (R87). -/
  | dsconv
  /-- `DS_GET_CONVERSION` (R89). -/
  | dsget
  /-- `DS_READ` (R91). -/
  | dsread
  /-- `DS_READ_BOUNDED` with the largest number of poll slots, `w[31:16]` (R55, R93). -/
  | dsreadb (limit : Half)
  /-- Wire byte `SKIP_ROM`, 0xCC (R83). -/
  | skipRom
  /-- Wire byte `START_CONV`, 0x44 (R84). -/
  | startConv
  /-- Wire byte `READ_SCRATCHPAD`, 0xBE (R85). -/
  | readScratchpad
  deriving DecidableEq, Repr

end Sys2Proof
end

