-- ==== Sys2Proof/WellFormed.lean ====
section
/-! DEFINITION. Which instructions the encoding admits. -/

namespace Sys2Proof

/-- A poll limit is 1..65535; 0 is illegal (30_encoding.md R55, R58). -/
def limitOk (limit : Half) : Bool := limit != 0#16

/-- The operands fit their fields by their types; the one check left is the poll limit of `DS_READ_BOUNDED`. -/
def Instr.wellFormed : Instr → Bool
  | .owreset => true
  | .owwbit _ => true
  | .owwbyte _ => true
  | .owrbit => true
  | .owrbyte => true
  | .dsconv => true
  | .dsget => true
  | .dsread => true
  | .dsreadb limit => limitOk limit
  | .skipRom => true
  | .startConv => true
  | .readScratchpad => true

end Sys2Proof
end

