-- ==== Sys2Proof/Decode.lean ====
section
/-! DEFINITION. Decoding of command words (30_encoding.md R53 to R58) and of wire command bytes (R59), and after it
the encoder. -/

namespace Sys2Proof

/-- The nine operations of R56. -/
inductive Op where
  | owReset
  | owWriteBit
  | owWriteByte
  | owReadBit
  | owReadByte
  | dsStartConversion
  | dsGetConversion
  | dsRead
  | dsReadBounded
  deriving DecidableEq, Repr

/-- Why a word or byte is no instruction, by name (R58, R59). -/
inductive DecodeError where
  /-- `OP` is 0x0 or 0xA..0xF (R58). -/
  | reservedOpcode
  /-- A valid `OP` with a nonzero bit in a field its row's mask fixes to 0 (R58). -/
  | reservedField
  /-- `DS_READ_BOUNDED` with `LIMIT = 0` (R58). -/
  | zeroLimit
  /-- A byte that is none of the three wire command bytes (R59). -/
  | notWireCommand
  deriving DecidableEq, Repr

/-! ## Fields of the command word (R54) -/

/-- `OP = w[3:0]`. -/
def fieldOp (w : Word) : BitVec 4 := w.extractLsb' 0 4

/-- `B = w[8]`. -/
def fieldB (w : Word) : Bit := w.getLsbD 8

/-- `V = w[15:8]`. -/
def fieldV (w : Word) : Byte := w.extractLsb' 8 8

/-- `LIMIT = w[31:16]`. -/
def fieldLimit (w : Word) : Half := w.extractLsb' 16 16

/-! ## The opcode map (R56) -/

/-- One row of R56's table of match and mask. -/
structure CommandRow where
  op : Op
  pattern : Word
  mask : Word
  deriving DecidableEq, Repr

/-- The rows of R56, in its order. -/
def commandRows : List CommandRow :=
  [ ⟨.owReset, 0x00000001#32, 0xFFFFFFFF#32⟩,
    ⟨.owWriteBit, 0x00000002#32, 0xFFFFFEFF#32⟩,
    ⟨.owWriteByte, 0x00000003#32, 0xFFFF00FF#32⟩,
    ⟨.owReadBit, 0x00000004#32, 0xFFFFFFFF#32⟩,
    ⟨.owReadByte, 0x00000005#32, 0xFFFFFFFF#32⟩,
    ⟨.dsStartConversion, 0x00000006#32, 0xFFFFFFFF#32⟩,
    ⟨.dsGetConversion, 0x00000007#32, 0xFFFFFFFF#32⟩,
    ⟨.dsRead, 0x00000008#32, 0xFFFFFFFF#32⟩,
    ⟨.dsReadBounded, 0x00000009#32, 0x0000FFFF#32⟩ ]

/-- The extra condition of a row: only `DS_READ_BOUNDED` has one, `w[31:16] ≠ 0` (R56). -/
def rowExtra : Op → Word → Bool
  | .dsReadBounded, w => limitOk (fieldLimit w)
  | _, _ => true

/-- Does the word match the row: `(w & mask) == match` and the extra condition (R57)? -/
def CommandRow.accepts (r : CommandRow) (w : Word) : Bool :=
  (w &&& r.mask) == r.pattern && rowExtra r.op w

/-- The instruction of an operation with its operand taken from the word (R55). -/
def Op.instr : Op → Word → Instr
  | .owReset, _ => .owreset
  | .owWriteBit, w => .owwbit (fieldB w)
  | .owWriteByte, w => .owwbyte (fieldV w)
  | .owReadBit, _ => .owrbit
  | .owReadByte, _ => .owrbyte
  | .dsStartConversion, _ => .dsconv
  | .dsGetConversion, _ => .dsget
  | .dsRead, _ => .dsread
  | .dsReadBounded, w => .dsreadb (fieldLimit w)

/-- The name of what is wrong with a word that matches no row (R58). -/
def illegalReason (w : Word) : DecodeError :=
  if fieldOp w = 0x0#4 ∨ 0xA#4 ≤ fieldOp w then .reservedOpcode
  else if w = 0x00000009#32 then .zeroLimit
  else .reservedField

/-- R57: the first row that accepts the word gives its instruction; a word no row accepts is illegal. -/
def decodeCommand (w : Word) : Except DecodeError Instr :=
  match commandRows.find? (fun r => r.accepts w) with
  | some r => .ok (r.op.instr w)
  | none => .error (illegalReason w)

/-- The three wire command bytes (R59); the block sends no other of its own. -/
def decodeWire (b : Byte) : Except DecodeError Instr :=
  if b = 0xCC#8 then .ok .skipRom
  else if b = 0x44#8 then .ok .startConv
  else if b = 0xBE#8 then .ok .readScratchpad
  else .error .notWireCommand

/-- The two encodings that meet in the block: a 32-bit command word and an 8-bit wire command byte. -/
inductive Code where
  | command (w : Word)
  | wire (b : Byte)
  deriving DecidableEq, Repr

/-- Decoding of either encoding. -/
def decode : Code → Except DecodeError Instr
  | .command w => decodeCommand w
  | .wire b => decodeWire b

/-- The decoder's reading of a row of spec/opcode_table.json: 32-bit rows are command words, 8-bit rows wire command
bytes, and the table has no other width. -/
def decodeTableWord (nbits w : Nat) : Option Instr :=
  if nbits = 32 then (decodeCommand (BitVec.ofNat 32 w)).toOption
  else if nbits = 8 then (decodeWire (BitVec.ofNat 8 w)).toOption
  else none

/-! ## The encoder -/

/-- A command word from its fields, by R54's layout: `LIMIT : V : 0000 : OP`. -/
def layoutCommand (limit : Half) (v : Byte) (op : BitVec 4) : Word := limit ++ v ++ 0#4 ++ op

/-- The word of `OW_WRITE_BIT b` (R54, R56). -/
def wordOwwbit (b : Bit) : Word := layoutCommand 0 (if b then 1#8 else 0#8) 0x2#4

/-- The word of `OW_WRITE_BYTE v` (R54, R56). -/
def wordOwwbyte (v : Byte) : Word := layoutCommand 0 v 0x3#4

/-- The word of `DS_READ_BOUNDED limit` (R54, R56). -/
def wordDsreadb (limit : Half) : Word := layoutCommand limit 0 0x9#4

/-- The word or byte of an instruction, from R54, R56 and R59. -/
def encode : Instr → Code
  | .owreset => .command (layoutCommand 0 0 0x1#4)
  | .owwbit b => .command (wordOwwbit b)
  | .owwbyte v => .command (wordOwwbyte v)
  | .owrbit => .command (layoutCommand 0 0 0x4#4)
  | .owrbyte => .command (layoutCommand 0 0 0x5#4)
  | .dsconv => .command (layoutCommand 0 0 0x6#4)
  | .dsget => .command (layoutCommand 0 0 0x7#4)
  | .dsread => .command (layoutCommand 0 0 0x8#4)
  | .dsreadb limit => .command (wordDsreadb limit)
  | .skipRom => .wire 0xCC#8
  | .startConv => .wire 0x44#8
  | .readScratchpad => .wire 0xBE#8

end Sys2Proof
end

