-- ==== Sys2Proof/Machine/State.lean ====
section
/-! DEFINITION. The state of one block instance (10_state.md R16), the inputs its steps read, the observation its
steps write, and the machine right after block reset (70_reset_and_hazards.md R117). -/

namespace Sys2Proof.Machine

/-- What the block's line port does (R17). -/
inductive LineOut where
  /-- Drives the line to 0. -/
  | low
  /-- High impedance. -/
  | rel
  /-- Drives the line to 1; reached only when `WRITE1_DRIVE = drive_high`. -/
  | high
  deriving DecidableEq, Repr

/-- The outcomes of an operation (R27, 60_exceptions.md R99). -/
inductive ResultCode where
  | ok
  | busAbsent
  | timeout
  | illegal
  deriving DecidableEq, Repr

/-- The operand latched with the opcode at acceptance (30_encoding.md R55). -/
inductive Operand where
  | none
  | bit (b : Bit)
  | byte (v : Byte)
  | limit (n : Half)
  deriving DecidableEq, Repr

/-- The points of the operation rules' pseudocode (R20). The sequencer stands at the primitive, condition or assignment
it carries out next; calls and returns take no step. A point below the top of the stack is where a called procedure
returns to; four points are only that (`return` lines, and a call as the line after a call), and the sequencer never
stands at them. DEDUCED (log entry 6): the division of the pseudocode into points. -/
inductive Point where
  -- ow_reset (R71)
  /-- `DriveLow()`. -/
  | rstDrive
  /-- `Delay(T_RST_LOW)`. -/
  | rstLow
  /-- `Release()`. -/
  | rstRel
  /-- `Delay(T_RST_PDS)`. -/
  | rstPds
  /-- `s <- Sample()`. -/
  | rstSample
  /-- `if s == 0`. -/
  | rstTest
  /-- `Delay(T_RST_HOLD)`. -/
  | rstHold
  /-- `PRES <- 1; return PRES`. -/
  | rstPresent
  /-- `PRES <- 0; return PRES`. -/
  | rstAbsent
  -- ow_write_bit (R73)
  /-- `DriveLow()`. -/
  | wbDrive
  /-- `Delay(T_W_LOW)`. -/
  | wbLow
  /-- `SetLine(b)`. -/
  | wbSet
  /-- `Delay(T_W_HOLD)`. -/
  | wbHold
  /-- `Release()`. -/
  | wbRel
  /-- `Delay(T_W_REC)` and return. -/
  | wbRec
  -- ow_write_byte (R75)
  /-- The call `ow_write_byte(v)` of command `OW_WRITE_BYTE` (R76): `SHIFT <- v`, `v` the latched operand. -/
  | wyArg
  /-- `for BITI in 0..7` begins: `BITI <- 0`. -/
  | wyInit
  /-- The loop's condition: call `ow_write_bit(SHIFT[BITI])` while a bit is left to send, else return. -/
  | wyNext
  /-- After one bit: `BITI` moves to the next. -/
  | wyInc
  -- ow_read_bit (R77)
  /-- `DriveLow()`. -/
  | rbDrive
  /-- `Delay(T_R_LOW)`. -/
  | rbLow
  /-- `Release()`. -/
  | rbRel
  /-- `Delay(T_R_PRE)`. -/
  | rbPre
  /-- `v <- Sample()`. -/
  | rbSample
  /-- `Delay(T_R_POST)` and `return v`. -/
  | rbPost
  -- ow_read_byte (R79)
  /-- `SHIFT <- 0x00`. -/
  | ryClear
  /-- `for BITI in 0..7` begins: `BITI <- 0`. -/
  | ryInit
  /-- The loop's condition: call `ow_read_bit()` while a bit is left to read, else return `SHIFT`. -/
  | ryNext
  /-- The assignment of `SHIFT[BITI] <- ow_read_bit()`. -/
  | ryStore
  /-- After one bit: `BITI` moves to the next. -/
  | ryInc
  -- ds_start_conversion (R86)
  /-- `if ow_reset() == 0`, and `return BUS_ABSENT`. -/
  | scTest
  /-- `ow_write_byte(0xCC)`: wire command byte `SKIP_ROM`. -/
  | scSkip
  /-- `ow_write_byte(0x44)`: wire command byte `START_CONV`. -/
  | scConv
  /-- `return OK`, where `ow_write_byte(0x44)` returns to: no step. -/
  | scOk
  -- ds_get_conversion (R88)
  /-- `if ow_reset() == 0`, and `return BUS_ABSENT`. -/
  | gcTest
  /-- `ow_write_byte(0xCC)`: wire command byte `SKIP_ROM`. -/
  | gcSkip
  /-- `ow_write_byte(0xBE)`: wire command byte `READ_SCRATCHPAD`. -/
  | gcRead
  /-- The call of `ow_read_byte()` in `LSB <- ow_read_byte()`, where `ow_write_byte(0xBE)` returns to: no step. -/
  | gcLsbCall
  /-- The assignment of `LSB <- ow_read_byte()`, and the call of `ow_read_byte()` for `MSB`. -/
  | gcLsb
  /-- The assignment of `MSB <- ow_read_byte()`, and `return OK`. -/
  | gcMsb
  -- ds_read (R90)
  /-- `if ds_start_conversion() == BUS_ABSENT`: return it, else call `ow_read_bit()` for the first poll. -/
  | rdTest
  /-- The assignment of `v <- ow_read_bit()`; `v` has its home in `sbit`, where the sample is. -/
  | rdPoll
  /-- `until v == 1`: the next poll, or the call of `return ds_get_conversion()`. -/
  | rdUntil
  /-- The return of `return ds_get_conversion()`, where that procedure returns to: no step. -/
  | rdReturn
  -- ds_read_bounded (R92)
  /-- `if ds_start_conversion() == BUS_ABSENT`: return it. -/
  | rnTest
  /-- `POLLN <- 0`, and on to the call of `ow_read_bit()` for the first poll. -/
  | rnZero
  /-- The assignment of `v <- ow_read_bit()`; `v` has its home in `sbit`, where the sample is. -/
  | rnPoll
  /-- `POLLN <- POLLN + 1`. -/
  | rnInc
  /-- `until v == 1 or POLLN == limit`. -/
  | rnUntil
  /-- `if v == 0`: `return TIMEOUT`, else the call of `return ds_get_conversion()`. -/
  | rnAfter
  /-- The return of `return ds_get_conversion()`, where that procedure returns to: no step. -/
  | rnReturn
  -- the command rules (R72 to R93), after the return of their procedure
  /-- The assignment of what the procedure returned: `p <- ow_reset()`, `v <- ow_read_bit()`, `v <- ow_read_byte()`,
  `r <- ds_start_conversion()` and the like. `p`, `v` and `r` have their homes in `PRES`, `sbit` or `SHIFT`, and `ret`. -/
  | cmdTake
  /-- The condition: `p == 1` of R72, `r == OK` of R89, R91 and R93. -/
  | cmdTest
  /-- The result registers and `complete`, one step (R47), where the condition held. -/
  | cmdOk
  /-- The result registers and `complete`, one step (R47), where it did not hold or there is none. -/
  | cmdDone
  deriving DecidableEq, Repr

/-- The sequencer's position, the block's program counter (R20). `run op operand p`: `p` is the stack of points, the
current one first, one to four of them. The command rule's own return point is not among them: `op` says where its
procedure returns to (DEDUCED, log entry 8). -/
inductive Seq where
  | idle
  | run (op : Op) (operand : Operand) (p : List Point)
  deriving DecidableEq, Repr

/-- One event of the observed trace (00_scope.md R15). -/
inductive TraceEvent where
  /-- `LOW`. -/
  | low
  /-- `REL`. -/
  | rel
  /-- `SET(b)`. -/
  | set (b : Bit)
  /-- `SAMPLE(v)`. -/
  | sample (v : Bit)
  /-- `WAIT(n)`, the nominal length. -/
  | wait (n : Nat)
  /-- `DONE(op, result)`; `none` stands for the operation name `ILLEGAL` of a word that selects none. -/
  | done (op : Option Op) (result : ResultCode)
  deriving DecidableEq, Repr

/-- A host access: byte address in the host's address space and width in bytes (20_memory.md R36, R37). -/
inductive HostAccess where
  | read (addr width : Nat)
  | write (addr width : Nat) (value : Word)
  deriving DecidableEq, Repr

/-- Who moves next (20_memory.md R46; log entry 2). -/
inductive Turn where
  /-- The block takes a step. -/
  | block
  /-- The host makes one access. -/
  | host (a : HostAccess)
  /-- The host polls `STATUS` until `BUSY` is 0 (30_encoding.md R61 `wait`; log entry 15). -/
  | wait
  /-- Block reset (R119). -/
  | blockReset
  deriving DecidableEq, Repr

/-- Reasons the machine stops with a fault. -/
inductive Fault where
  /-- Raised by the primitive `Sample()` when the line is not released: the run has left the spec and a model must
  fault (40_line_primitives.md R67; 93_implementation_defined.md U6). Safe: the spec orders this stop. -/
  | sampleNotReleased
  deriving DecidableEq, Repr

/-- Reasons a step has no meaning. -/
inductive Refusal where
  /-- Raised by a refused arm of `exec` for an instruction without a meaning; no arm is refused now. Safe. -/
  | notModelled (mnemonic : String)
  /-- Raised by a host access that is narrow, wide, misaligned or outside the window: no access to this block, refused
  with no change of state (20_memory.md R37; U13). Safe: the spec orders this refusal. -/
  | notAnAccess
  deriving DecidableEq, Repr

/-- The state. The first thirteen fields are R16's tuple; the rest is the model's own and says so. -/
structure State where
  /-- `line_out` (R17). -/
  lineOut : LineOut
  /-- `seq` (R20). -/
  seq : Seq
  /-- `SHIFT`: the byte being sent or assembled (R21). -/
  shift : Byte
  /-- `BITI`: index of the next bit of a byte, 0..8 (R21). -/
  biti : Nat
  /-- `LSB`: scratchpad byte 0 (R21). -/
  lsb : Byte
  /-- `MSB`: scratchpad byte 1 (R21). -/
  msb : Byte
  /-- `POLLN`: poll slots run by a bounded read, 0..65535 (R21). -/
  polln : Nat
  /-- `PRES`: outcome of the last presence sample (R21). -/
  pres : Bit
  /-- `timer`: remaining time of the delay being executed, in µs; a delay is one step, so between steps it is 0
  (R22, R70). -/
  timer : Nat
  /-- `CMD` (R23). -/
  cmd : Word
  /-- `STATUS` (R24); fields in Machine/Flags.lean. -/
  status : Word
  /-- `DATA` (R30). -/
  data : Word
  /-- `TEMP` (R31). -/
  temp : Word
  /-- Model's own (log entry 7): the argument `b` that `ow_write_byte` passes to `ow_write_bit` (R73, R75). -/
  wbit : Bit
  /-- Model's own (log entry 7): the sampled bit, `s` of R71 and `v` of R77. -/
  sbit : Bit
  /-- Model's own (log entry 7): the value a session procedure returns, `r` of R87 to R93. -/
  ret : ResultCode
  /-- Model's own (log entry 11): the parameters, which no step changes. -/
  params : Config.Params
  /-- Model's own (log entry 2): the turns to come; when it is empty the block moves. -/
  turns : List Turn
  /-- Model's own (log entry 3): the levels the environment gives the next samples; free levels when empty. -/
  levels : List Bit
  /-- Model's own (log entry 4): the excess of the next delays; free excesses when empty. -/
  excess : List Nat
  /-- Model's own (log entry 3): how many samples were drawn. -/
  samples : Nat
  /-- Model's own (log entry 4): how many delays were drawn. -/
  delays : Nat
  /-- Model's own (log entry 10): how many block resets happened. -/
  resets : Nat
  /-- Model's own (log entry 14): the trace of R15, oldest event first; no rule reads it. -/
  trace : List TraceEvent
  /-- Model's own (log entry 14): the words host reads returned, oldest first; no rule reads it. -/
  reads : List Word
  /-- Model's own (log entry 14): the summed actual length of the ended delays, in µs; no rule reads it. -/
  elapsed : Nat
  deriving DecidableEq, Repr

/-- The machine right after block reset (R117). DESIGN CHOICE (log entry 9): 0 for the sequencer's data registers,
which R117 leaves unspecified. DESIGN CHOICE (log entry 11): the open parameters. -/
def State.reset : State where
  lineOut := .rel
  seq := .idle
  shift := 0
  biti := 0
  lsb := 0
  msb := 0
  polln := 0
  pres := false
  timer := 0
  cmd := 0
  status := 0
  data := 0
  temp := 0
  wbit := false
  sbit := false
  ret := .ok
  params := Config.Params.default
  turns := []
  levels := []
  excess := []
  samples := 0
  delays := 0
  resets := 0
  trace := []
  reads := []
  elapsed := 0

/-- What a step that touches this state answers. -/
abbrev Outcome := Host.Outcome State Fault Refusal

end Sys2Proof.Machine
end

