-- ==== Sys2Proof/Machine/Flags.lean ====
section
/-! DEFINITION. The fields of `STATUS` (10_state.md R24 to R29): what each read and each update does to the word. -/

namespace Sys2Proof.Machine

/-- The code of a result (R27). -/
def ResultCode.code : ResultCode → BitVec 2
  | .ok => 0b00#2
  | .busAbsent => 0b01#2
  | .timeout => 0b10#2
  | .illegal => 0b11#2

/-- The result of a code (R27). -/
def ResultCode.ofCode (c : BitVec 2) : ResultCode :=
  if c = 0b00#2 then .ok
  else if c = 0b01#2 then .busAbsent
  else if c = 0b10#2 then .timeout
  else .illegal

/-- `STATUS.BUSY`, bit 0 (R25). -/
def Status.busy (st : Word) : Bool := st.getLsbD 0

/-- `STATUS.DONE`, bit 1 (R26). -/
def Status.done (st : Word) : Bool := st.getLsbD 1

/-- `STATUS.RESULT`, bits 3:2 (R27). -/
def Status.result (st : Word) : ResultCode := ResultCode.ofCode (st.extractLsb' 2 2)

/-- `STATUS.PRESENCE`, bit 4 (R28). -/
def Status.presence (st : Word) : Bool := st.getLsbD 4

/-- `STATUS.OVERRUN`, bit 5 (R29). -/
def Status.overrun (st : Word) : Bool := st.getLsbD 5

/-- A `STATUS` word from its fields; the reserved bits 31:6 are 0 (R24, R33). -/
def Status.pack (busy done : Bool) (result : ResultCode) (presence overrun : Bool) : Word :=
  0#26 ++ BitVec.ofBool overrun ++ BitVec.ofBool presence ++ result.code ++ BitVec.ofBool done ++ BitVec.ofBool busy

/-- Acceptance: `BUSY <- 1`, `DONE <- 0`; the other fields stay (R25). -/
def Status.accept (st : Word) : Word :=
  Status.pack true false (Status.result st) (Status.presence st) (Status.overrun st)

/-- Completion: `RESULT <- result`, `BUSY <- 0`, `DONE <- 1`; the other fields stay (R25). -/
def Status.complete (result : ResultCode) (st : Word) : Word :=
  Status.pack false true result (Status.presence st) (Status.overrun st)

/-- `PRESENCE <- p`; the other fields stay (R28). -/
def Status.setPresence (p : Bit) (st : Word) : Word :=
  Status.pack (Status.busy st) (Status.done st) (Status.result st) p (Status.overrun st)

/-- `OVERRUN <- o`; the other fields stay (R29). -/
def Status.setOverrun (o : Bool) (st : Word) : Word :=
  Status.pack (Status.busy st) (Status.done st) (Status.result st) (Status.presence st) o

/-- What a host read of `STATUS` returns: the reserved bits 31:6 read as 0 (R33). -/
def Status.read (st : Word) : Word := st &&& 0x0000003F#32

/-- The reserved bits 31:6 hold 0 (R24, R33). -/
def Status.reservedZero (st : Word) : Bool := (st &&& 0xFFFFFFC0#32) == 0#32

end Sys2Proof.Machine
end

