-- ==== Sys2Proof/Machine/Operands.lean ====
section
/-! DEFINITION. The latched operands (30_encoding.md R55), the bits of a byte in wire order (20_memory.md R42), the
assembly of bytes and of the temperature (R43, 42_ds18b20_session.md R94), and the extensions of 00_scope.md R13. -/

namespace Sys2Proof.Machine

/-- The bit of `OW_WRITE_BIT`; an operation without one has none, and 0 stands for it where no rule reads it. -/
def Operand.asBit : Operand → Bit
  | .bit b => b
  | .none | .byte _ | .limit _ => false

/-- The byte of `OW_WRITE_BYTE`. -/
def Operand.asByte : Operand → Byte
  | .byte v => v
  | .none | .bit _ | .limit _ => 0

/-- The poll limit of `DS_READ_BOUNDED`, as a natural number: counters are natural numbers (R13). -/
def Operand.asLimit : Operand → Nat
  | .limit n => n.toNat
  | .none | .bit _ | .byte _ => 0

/-- The operand an operation takes, from its accepted word (R55). -/
def operandOf : Op → Word → Operand
  | .owWriteBit, w => .bit (fieldB w)
  | .owWriteByte, w => .byte (fieldV w)
  | .dsReadBounded, w => .limit (fieldLimit w)
  | .owReset, _ | .owReadBit, _ | .owReadByte, _ | .dsStartConversion, _ | .dsGetConversion, _ | .dsRead, _ => .none

/-- `SHIFT[i]` (R13, R75): bit `i` of a byte; there is none from bit 8 on. -/
def bitOf (v : Byte) (i : Nat) : Bit := v.getLsbD i

/-- `SHIFT[i] <- b` (R79). -/
def withBit (v : Byte) (i : Nat) (b : Bit) : Byte :=
  if b then v ||| (1#8 <<< i) else v &&& ~~~(1#8 <<< i)

/-- `zext_32` of a bit (R13, R78). -/
def zext32Bit (b : Bit) : Word := if b then 1#32 else 0#32

/-- `zext_32` of a byte (R13, R80). -/
def zext32Byte (v : Byte) : Word := v.zeroExtend 32

/-- `MSB : LSB`, the raw temperature pattern (R43, R94). -/
def rawTemperature (msb lsb : Byte) : Half := msb ++ lsb

/-- `sext_32` of a 16-bit pattern (R13, R31). -/
def sext32Half (h : Half) : Word := h.signExtend 32

end Sys2Proof.Machine
end

