-- ==== Sys2Proof/Machine/Ops.lean ====
section
/-! DEFINITION. The shared operations over the state: the five primitives of 40_line_primitives.md, acceptance and
completion of a command (10_state.md R23, R25; 60_exceptions.md R102, R103), which stand here in the place of taking
an exception and returning from one (R109, R110), the call of `ow_write_byte`, block reset, and the host window
(20_memory.md R36 to R39). -/

namespace Sys2Proof.Machine

/-! ## Draws from the environment -/

/-- The level the environment presents at the `k`-th sample from here (R18; log entry 3). -/
def State.levelAt (s : State) (k : Nat) : Bit := (s.levels[k]?).getD (Config.freeLevel (s.samples + k))

/-- The level drawn next is used up. -/
def State.consumeLevel (s : State) : State := { s with levels := s.levels.tail, samples := s.samples + 1 }

/-- The excess of the `k`-th delay from here over its nominal length: any value in `0 .. DELAY_SLACK_US`
(00_scope.md R7; log entry 4). -/
def State.excessAt (s : State) (k : Nat) : Nat :=
  min ((s.excess[k]?).getD (Config.freeExcess (s.delays + k))) s.params.delaySlackUs

/-! ## The primitives (R64 to R68) -/

/-- `DriveLow()` (R64). -/
def State.driveLow (s : State) : State := { s with lineOut := .low, trace := s.trace ++ [.low] }

/-- `Release()` (R65). -/
def State.release (s : State) : State := { s with lineOut := .rel, trace := s.trace ++ [.rel] }

/-- What `SetLine(b)` does to the line port (R66; 90_conflicts.md C1). -/
def setLineOut (drive : Config.Write1Drive) (b : Bit) : LineOut :=
  if b then
    match drive with
    | .release => .rel
    | .driveHigh => .high
  else .low

/-- `SetLine(b)` (R66). -/
def State.setLine (b : Bit) (s : State) : State :=
  { s with lineOut := setLineOut s.params.write1Drive b, trace := s.trace ++ [.set b] }

/-- The sampled bit is drawn, recorded and kept in `sbit` (R67). -/
def State.takeSample (s : State) : State :=
  { s.consumeLevel with sbit := s.levelAt 0, trace := s.trace ++ [.sample (s.levelAt 0)] }

/-- `Sample()`, then on to `next`: requires the line released, else the run has left the spec (R67). -/
def State.sample (next : Seq) (s : State) : Outcome :=
  if s.lineOut = .rel then .next { s.takeSample with seq := next } else .fault .sampleNotReleased

/-- `Delay(n)` begins: `timer <- d` with `n <= d <= n + DELAY_SLACK_US` (R68). -/
def State.loadTimer (n : Nat) (s : State) : State :=
  { s with timer := n + s.excessAt 0, excess := s.excess.tail, delays := s.delays + 1 }

/-- `Delay(n)` ends: the remaining time has passed and `timer` is 0 (R22, R68). -/
def State.expireTimer (n : Nat) (s : State) : State :=
  { s with elapsed := s.elapsed + s.timer, timer := 0, trace := s.trace ++ [.wait n] }

/-- `Delay(n)`, then on to `next`: one step, in which `timer` is loaded and runs down to 0 (R22, R68, R70; log
entry 5). -/
def State.delay (n : Nat) (next : Seq) (s : State) : State := { (s.loadTimer n).expireTimer n with seq := next }

/-! ## Acceptance and completion of a command -/

/-- The points an operation starts at: the first point of its procedure, with the return points of the procedures
that call it below (R71 to R92). -/
def Op.start : Op → List Point
  | .owReset => [.rstDrive]
  | .owWriteBit => [.wbDrive]
  | .owWriteByte => [.wyArg]
  | .owReadBit => [.rbDrive]
  | .owReadByte => [.ryClear]
  | .dsStartConversion => [.rstDrive, .scTest]
  | .dsGetConversion => [.rstDrive, .gcTest]
  | .dsRead => [.rstDrive, .scTest, .rdTest]
  | .dsReadBounded => [.rstDrive, .scTest, .rnTest]

/-- A command written while the block is busy: discarded, `OVERRUN <- 1` (R23, R29, R103). -/
def State.refuseCommand (s : State) : State := { s with status := Status.setOverrun true s.status }

/-- Acceptance of a command word, in one step: `CMD <- w`, `BUSY <- 1`, `DONE <- 0`, `seq <- RUN(op, operand, start)`
(R23, R25). -/
def State.accept (op : Op) (w : Word) (s : State) : State :=
  { s with cmd := w, status := Status.accept s.status, seq := .run op (operandOf op w) (Op.start op) }

/-- A host write to `CMD` of a word `w` that selects `op`. -/
def State.writeCommand (op : Op) (w : Word) (s : State) : State :=
  if Status.busy s.status then s.refuseCommand else s.accept op w

/-- A host write to `CMD` of a word that selects no operation: accepted and completed with `ILLEGAL` in the same step,
or discarded while busy (R102, R103). -/
def State.writeIllegal (w : Word) (s : State) : State :=
  if Status.busy s.status then s.refuseCommand
  else
    { s with
      cmd := w
      status := Status.complete .illegal s.status
      trace := s.trace ++ [.done none .illegal] }

/-- `complete(result)`: `RESULT <- result`, `BUSY <- 0`, `DONE <- 1`, `seq <- IDLE`, and the completion joins the trace
(R25, R47). -/
def State.complete (op : Op) (result : ResultCode) (s : State) : State :=
  { s with
    status := Status.complete result s.status
    seq := .idle
    trace := s.trace ++ [.done (some op) result] }

/-- `x[STATUS.PRESENCE] <- PRES` (R28). -/
def State.reportPresence (s : State) : State := { s with status := Status.setPresence s.pres s.status }

/-- `x[DATA] <- w` (R30). -/
def State.setData (w : Word) (s : State) : State := { s with data := w }

/-- `x[TEMP] <- sext_32(MSB : LSB)` (R31, R89). -/
def State.setTemp (s : State) : State := { s with temp := sext32Half (rawTemperature s.msb s.lsb) }

/-- The completion shared by `DS_GET_CONVERSION`, `DS_READ` and `DS_READ_BOUNDED` (R89, R91, R93); `isOk`: the
condition `r == OK` held. -/
def State.closeRead (op : Op) (isOk : Bool) (s : State) : State :=
  if isOk then s.reportPresence.setTemp.complete op .ok else s.reportPresence.complete op s.ret

/-! ## Calls and returns -/

/-- The sequencer moves to the points `p`. -/
def State.goto (op : Op) (o : Operand) (p : List Point) (s : State) : State := { s with seq := .run op o p }

/-- Where a command rule goes on when its procedure has returned: at the assignment of what it returned, or, where
nothing is returned (R74, R76), at its completion. -/
def Op.onReturn : Op → List Point
  | .owWriteBit | .owWriteByte => [.cmdDone]
  | .owReset | .owReadBit | .owReadByte | .dsStartConversion | .dsGetConversion | .dsRead | .dsReadBounded => [.cmdTake]

/-- Where the sequencer stands when a procedure returns to the points `ps`: a return takes no step, so a `return` line
returns further, and a call goes on in the called procedure (R20; log entry 6). -/
def resume (op : Op) : List Point → List Point
  | [] => Op.onReturn op
  | .scOk :: ps | .rdReturn :: ps | .rnReturn :: ps => resume op ps
  | .gcLsbCall :: ps => .ryClear :: .gcLsb :: ps
  | p :: ps => p :: ps

/-- The result a procedure returns that a return to the points `ps` makes return: `return OK` of `ds_start_conversion`
after its last byte, else what was returned to it. -/
def returnedResult : List Point → ResultCode → ResultCode
  | .scOk :: _, _ => .ok
  | _, r => r

/-- A procedure returns to the points `ps`. -/
def State.returnTo (op : Op) (o : Operand) (ps : List Point) (s : State) : State :=
  { s with ret := returnedResult ps s.ret, seq := .run op o (resume op ps) }

/-- The argument `b` of the running `ow_write_bit`: the bit `ow_write_byte` passed if that called it (R75), else the
latched operand of `OW_WRITE_BIT` (R74). -/
def slotBit (o : Operand) (passed : Bit) : List Point → Bit
  | .wyInc :: _ => passed
  | _ => o.asBit

/-! ## The call of `ow_write_byte` with a wire command byte -/

/-- Where the procedure goes on after it has sent the wire command byte of a point (R86, R88). -/
def Point.afterWire : Point → Point
  | .scSkip => .scConv
  | .scConv => .scOk
  | .gcSkip => .gcRead
  | .gcRead => .gcLsbCall
  | p => p

/-- The points the sequencer returns to when the byte is sent: the current one moves on, those below stay. -/
def afterWireStack : List Point → List Point
  | [] => []
  | p :: ps => p.afterWire :: ps

/-- The call `ow_write_byte(v)`: `SHIFT <- v`, then its loop, then back to the caller (R75). With no operation
running there is no caller, and the byte is sent as the host sends it, by the command `OW_WRITE_BYTE v`
(R59, R62; DESIGN CHOICE, log entry 12). -/
def State.callWriteByte (v : Byte) (s : State) : State :=
  match s.seq with
  | .idle => s.writeCommand .owWriteByte (wordOwwbyte v)
  | .run op o ps => { s with shift := v, seq := .run op o (.wyInit :: afterWireStack ps) }

/-! ## Block reset (R117 to R119) -/

/-- Block reset, at any time: the line released, the sequencer idle, the host registers 0, no event on the bus and no
completion recorded; the sequencer's data registers take any value (R117, U11; log entry 10). -/
def State.blockReset (s : State) : State :=
  { s with
    lineOut := .rel
    seq := .idle
    timer := 0
    cmd := 0
    status := 0
    data := 0
    temp := 0
    shift := Config.freeShift s.resets
    biti := (Config.freeBiti s.resets).val
    lsb := Config.freeLsb s.resets
    msb := Config.freeMsb s.resets
    polln := (Config.freePolln s.resets).val
    pres := Config.freePres s.resets
    resets := s.resets + 1 }

/-! ## The host window (R36 to R39) -/

/-- The four host registers (R23 to R31). -/
inductive HostReg where
  | cmd
  | status
  | data
  | temp
  deriving DecidableEq, Repr

/-- The byte offset of a host register from `BASE` (R36). -/
def HostReg.offset : HostReg → Nat
  | .cmd => 0x00
  | .status => 0x04
  | .data => 0x08
  | .temp => 0x0C

/-- The register an access reaches: 32 bits wide at `BASE` + 0, 4, 8 or 12, else none (R36, R37). -/
def hostReg (base addr width : Nat) : Option HostReg :=
  if width = 4 then
    if addr = base + HostReg.offset .cmd then some .cmd
    else if addr = base + HostReg.offset .status then some .status
    else if addr = base + HostReg.offset .data then some .data
    else if addr = base + HostReg.offset .temp then some .temp
    else none
  else none

/-- The value a host read returns (R23, R24, R30, R31); reserved bits read as 0, and `TEMP` reads as the extension of
its low half (R31, R33). -/
def State.readReg (r : HostReg) (s : State) : Word :=
  match r with
  | .cmd => s.cmd
  | .status => Status.read s.status
  | .data => s.data &&& 0x000000FF#32
  | .temp => sext32Half (s.temp.extractLsb' 0 16)

/-- A host read: the value is returned to the host, nothing else changes (R38). -/
def State.hostRead (r : HostReg) (s : State) : State := { s with reads := s.reads ++ [s.readReg r] }

/-- A host write to `STATUS`: bit 5 = 1 clears `OVERRUN`, the other bits are ignored (R24, R29, R39). -/
def State.writeStatus (v : Word) (s : State) : State :=
  if v.getLsbD 5 then { s with status := Status.setOverrun false s.status } else s

end Sys2Proof.Machine
end

