-- ==== Sys2Proof/Machine/Session.lean ====
section
/-! DEFINITION. The Ds18b20Session commands of 42_ds18b20_session.md: what a host write of each command word does.
The write starts the operation (10_state.md R25) and the sequencer then carries it out, one step at a time
(Machine/Sequencer.lean; DEDUCED, log entry 1). -/

namespace Sys2Proof.Machine

/-- `DS_START_CONVERSION`, word 0x00000006 (R87). -/
def execDsconv (s : State) : Outcome := .next (s.writeCommand .dsStartConversion (layoutCommand 0 0 0x6#4))

/-- `DS_GET_CONVERSION`, word 0x00000007 (R89). -/
def execDsget (s : State) : Outcome := .next (s.writeCommand .dsGetConversion (layoutCommand 0 0 0x7#4))

/-- `DS_READ`, word 0x00000008 (R91). -/
def execDsread (s : State) : Outcome := .next (s.writeCommand .dsRead (layoutCommand 0 0 0x8#4))

/-- `DS_READ_BOUNDED limit`, word `0x00000009 | (limit << 16)` (R93); with `limit = 0` the word selects no operation
(30_encoding.md R58, 60_exceptions.md R102; log entry 19). -/
def execDsreadb (limit : Half) (s : State) : Outcome :=
  if limitOk limit then .next (s.writeCommand .dsReadBounded (wordDsreadb limit))
  else .next (s.writeIllegal (wordDsreadb limit))

/-! ## Completion: what each operation writes in its last step (R47) -/

/-- `DS_START_CONVERSION`: `PRESENCE`, and the procedure's result (R87). -/
def closeDsStartConversion (s : State) : State := s.reportPresence.complete .dsStartConversion s.ret

/-- `DS_GET_CONVERSION`: `PRESENCE`, `TEMP` on `OK`, and the procedure's result (R89). -/
def closeDsGetConversion (isOk : Bool) (s : State) : State := s.closeRead .dsGetConversion isOk

/-- `DS_READ`: `PRESENCE`, `TEMP` on `OK`, and the procedure's result (R91). -/
def closeDsRead (isOk : Bool) (s : State) : State := s.closeRead .dsRead isOk

/-- `DS_READ_BOUNDED`: `PRESENCE`, `TEMP` on `OK`, and the procedure's result (R93). -/
def closeDsReadBounded (isOk : Bool) (s : State) : State := s.closeRead .dsReadBounded isOk

end Sys2Proof.Machine
end

