-- ==== Sys2Proof/Machine/Transport.lean ====
section
/-! DEFINITION. The OneWireTransport commands of 41_onewire_transport.md: what a host write of each command word
does. The write starts the operation (10_state.md R25) and the sequencer then carries it out, one step at a time
(Machine/Sequencer.lean; DEDUCED, log entry 1). -/

namespace Sys2Proof.Machine

/-- `OW_RESET`, word 0x00000001 (R72). -/
def execOwreset (s : State) : Outcome := .next (s.writeCommand .owReset (layoutCommand 0 0 0x1#4))

/-- `OW_WRITE_BIT b`, words 0x00000002 and 0x00000102 (R74). -/
def execOwwbit (b : Bit) (s : State) : Outcome := .next (s.writeCommand .owWriteBit (wordOwwbit b))

/-- `OW_WRITE_BYTE v`, word `0x00000003 | (v << 8)` (R76). -/
def execOwwbyte (v : Byte) (s : State) : Outcome := .next (s.writeCommand .owWriteByte (wordOwwbyte v))

/-- `OW_READ_BIT`, word 0x00000004 (R78). -/
def execOwrbit (s : State) : Outcome := .next (s.writeCommand .owReadBit (layoutCommand 0 0 0x4#4))

/-- `OW_READ_BYTE`, word 0x00000005 (R80). -/
def execOwrbyte (s : State) : Outcome := .next (s.writeCommand .owReadByte (layoutCommand 0 0 0x5#4))

/-! ## Completion: what each operation writes in its last step (R47) -/

/-- `OW_RESET`: `PRESENCE`, and `OK` or `BUS_ABSENT` as the condition `p == 1` held (R72). -/
def closeOwReset (seen : Bool) (s : State) : State :=
  s.reportPresence.complete .owReset (if seen then .ok else .busAbsent)

/-- `OW_WRITE_BIT`: `OK` (R74). -/
def closeOwWriteBit (s : State) : State := s.complete .owWriteBit .ok

/-- `OW_WRITE_BYTE`: `OK` (R76). -/
def closeOwWriteByte (s : State) : State := s.complete .owWriteByte .ok

/-- `OW_READ_BIT`: `DATA <- zext_32(v)`, `OK` (R78). -/
def closeOwReadBit (s : State) : State := (s.setData (zext32Bit s.sbit)).complete .owReadBit .ok

/-- `OW_READ_BYTE`: `DATA <- zext_32(v)`, `OK` (R80). -/
def closeOwReadByte (s : State) : State := (s.setData (zext32Byte s.shift)).complete .owReadByte .ok

end Sys2Proof.Machine
end

