-- ==== Sys2Proof/Machine/Wire.lean ====
section
/-! DEFINITION. The three wire command bytes of 42_ds18b20_session.md R83 to R85. Each is a call of `ow_write_byte`
with that byte (30_encoding.md R59); its effect on the device is outside the block (00_scope.md R4). -/

namespace Sys2Proof.Machine

/-- `SKIP_ROM`, 0xCC (R83). -/
def execSkipRom (s : State) : Outcome := .next (s.callWriteByte 0xCC#8)

/-- `START_CONV`, 0x44 (R84). -/
def execStartConv (s : State) : Outcome := .next (s.callWriteByte 0x44#8)

/-- `READ_SCRATCHPAD`, 0xBE (R85). -/
def execReadScratchpad (s : State) : Outcome := .next (s.callWriteByte 0xBE#8)

/-- The wire command byte the session procedures send at a point (R86, R88). -/
def Point.wireByte : Point → Option Byte
  | .scSkip | .gcSkip => some 0xCC#8
  | .scConv => some 0x44#8
  | .gcRead => some 0xBE#8
  | _ => none

end Sys2Proof.Machine
end

