-- ==== Sys2Proof/Machine/Dispatch.lean ====
section
/-! DEFINITION. What each instruction does: one arm per constructor of Instr. -/

namespace Sys2Proof.Machine

def exec (i : Instr) (s : State) : Host.Outcome State Fault Refusal :=
  match i with
  | .owreset => Sys2Proof.Machine.execOwreset s
  | .owwbit b => Sys2Proof.Machine.execOwwbit b s
  | .owwbyte v => Sys2Proof.Machine.execOwwbyte v s
  | .owrbit => Sys2Proof.Machine.execOwrbit s
  | .owrbyte => Sys2Proof.Machine.execOwrbyte s
  | .dsconv => Sys2Proof.Machine.execDsconv s
  | .dsget => Sys2Proof.Machine.execDsget s
  | .dsread => Sys2Proof.Machine.execDsread s
  | .dsreadb limit => Sys2Proof.Machine.execDsreadb limit s
  | .skipRom => Sys2Proof.Machine.execSkipRom s
  | .startConv => Sys2Proof.Machine.execStartConv s
  | .readScratchpad => Sys2Proof.Machine.execReadScratchpad s

end Sys2Proof.Machine
end

