-- ==== Sys2Proof/Machine/Sequencer.lean ====
section
/-! DEFINITION. The sequencer's steps: what the block does at each point of the operation rules' pseudocode
(10_state.md R20, 40_line_primitives.md R70). -/

namespace Sys2Proof.Machine

/-- The completion of an operation, one step (R25, R47). `held`: the condition of its command rule held; an operation
without one does not look at it. -/
def closing (op : Op) (held : Bool) (s : State) : State :=
  match op with
  | .owReset => closeOwReset held s
  | .owWriteBit => closeOwWriteBit s
  | .owWriteByte => closeOwWriteByte s
  | .owReadBit => closeOwReadBit s
  | .owReadByte => closeOwReadByte s
  | .dsStartConversion => closeDsStartConversion s
  | .dsGetConversion => closeDsGetConversion held s
  | .dsRead => closeDsRead held s
  | .dsReadBounded => closeDsReadBounded held s

/-- The command rule has a condition: `p == 1` (R72) or `r == OK` (R89, R91, R93). -/
def Op.hasTest : Op → Bool
  | .owReset | .dsGetConversion | .dsRead | .dsReadBounded => true
  | .owWriteBit | .owWriteByte | .owReadBit | .owReadByte | .dsStartConversion => false

/-- The condition of the command rule; false where there is none. -/
def Op.testHolds (op : Op) (s : State) : Bool :=
  match op with
  | .owReset => s.pres
  | .dsGetConversion | .dsRead | .dsReadBounded => s.ret == .ok
  | .owWriteBit | .owWriteByte | .owReadBit | .owReadByte | .dsStartConversion => false

/-- The point of the completion, by the command rule's condition. -/
def lastPoint (held : Bool) : Point := if held then .cmdOk else .cmdDone

/-- One step at point `p` of operation `op` with operand `o`, the return points `ps` below: one primitive, condition or
assignment, and with it the calls and returns that follow up to the next one (R20, R70; log entry 6). The four points
that send a wire command byte are run as instructions (Machine/Fetch.lean); their arms here are the same call. -/
def stepPoint (op : Op) (o : Operand) (p : Point) (ps : List Point) (s : State) : Outcome :=
  match p with
  -- ow_reset (R71)
  | .rstDrive => .next (s.driveLow.goto op o (.rstLow :: ps))
  | .rstLow => .next (s.delay s.params.tRstLow (.run op o (.rstRel :: ps)))
  | .rstRel => .next (s.release.goto op o (.rstPds :: ps))
  | .rstPds => .next (s.delay s.params.tRstPds (.run op o (.rstSample :: ps)))
  | .rstSample => s.sample (.run op o (.rstTest :: ps))
  | .rstTest => .next (s.goto op o ((if s.sbit then .rstAbsent else .rstHold) :: ps))
  | .rstHold => .next (s.delay s.params.tRstHold (.run op o (.rstPresent :: ps)))
  | .rstPresent => .next ({ s with pres := true }.returnTo op o ps)
  | .rstAbsent => .next ({ s with pres := false }.returnTo op o ps)
  -- ow_write_bit (R73)
  | .wbDrive => .next (s.driveLow.goto op o (.wbLow :: ps))
  | .wbLow => .next (s.delay s.params.tWLow (.run op o (.wbSet :: ps)))
  | .wbSet => .next ((s.setLine (slotBit o s.wbit ps)).goto op o (.wbHold :: ps))
  | .wbHold => .next (s.delay s.params.tWHold (.run op o (.wbRel :: ps)))
  | .wbRel => .next (s.release.goto op o (.wbRec :: ps))
  | .wbRec => .next (s.delay s.params.tWRec (.run op o (resume op ps)))
  -- ow_write_byte (R75), called by OW_WRITE_BYTE at wyArg (R76)
  | .wyArg => .next ({ s with shift := o.asByte }.goto op o (.wyInit :: ps))
  | .wyInit => .next ({ s with biti := 0 }.goto op o (.wyNext :: ps))
  | .wyNext =>
    .next (if s.biti < 8 then { s with wbit := bitOf s.shift s.biti }.goto op o (.wbDrive :: .wyInc :: ps)
      else s.returnTo op o ps)
  | .wyInc => .next ({ s with biti := s.biti + 1 }.goto op o (.wyNext :: ps))
  -- ow_read_bit (R77)
  | .rbDrive => .next (s.driveLow.goto op o (.rbLow :: ps))
  | .rbLow => .next (s.delay s.params.tRLow (.run op o (.rbRel :: ps)))
  | .rbRel => .next (s.release.goto op o (.rbPre :: ps))
  | .rbPre => .next (s.delay s.params.tRPre (.run op o (.rbSample :: ps)))
  | .rbSample => s.sample (.run op o (.rbPost :: ps))
  | .rbPost => .next (s.delay s.params.tRPost (.run op o (resume op ps)))
  -- ow_read_byte (R79)
  | .ryClear => .next ({ s with shift := 0 }.goto op o (.ryInit :: ps))
  | .ryInit => .next ({ s with biti := 0 }.goto op o (.ryNext :: ps))
  | .ryNext => .next (if s.biti < 8 then s.goto op o (.rbDrive :: .ryStore :: ps) else s.returnTo op o ps)
  | .ryStore => .next ({ s with shift := withBit s.shift s.biti s.sbit }.goto op o (.ryInc :: ps))
  | .ryInc => .next ({ s with biti := s.biti + 1 }.goto op o (.ryNext :: ps))
  -- ds_start_conversion (R86)
  | .scTest =>
    .next (if s.pres then s.goto op o (.scSkip :: ps) else { s with ret := .busAbsent }.returnTo op o ps)
  | .scSkip => .next (s.callWriteByte 0xCC#8)
  | .scConv => .next (s.callWriteByte 0x44#8)
  -- ds_get_conversion (R88)
  | .gcTest =>
    .next (if s.pres then s.goto op o (.gcSkip :: ps) else { s with ret := .busAbsent }.returnTo op o ps)
  | .gcSkip => .next (s.callWriteByte 0xCC#8)
  | .gcRead => .next (s.callWriteByte 0xBE#8)
  | .gcLsb => .next ({ s with lsb := s.shift }.goto op o (.ryClear :: .gcMsb :: ps))
  | .gcMsb => .next ({ s with msb := s.shift, ret := .ok }.returnTo op o ps)
  -- ds_read (R90)
  | .rdTest =>
    .next (if s.ret = .busAbsent then s.returnTo op o ps else s.goto op o (.rbDrive :: .rdPoll :: ps))
  | .rdPoll => .next (s.goto op o (.rdUntil :: ps))
  | .rdUntil =>
    .next (s.goto op o (if s.sbit then .rstDrive :: .gcTest :: .rdReturn :: ps else .rbDrive :: .rdPoll :: ps))
  -- ds_read_bounded (R92)
  | .rnTest => .next (if s.ret = .busAbsent then s.returnTo op o ps else s.goto op o (.rnZero :: ps))
  | .rnZero => .next ({ s with polln := 0 }.goto op o (.rbDrive :: .rnPoll :: ps))
  | .rnPoll => .next (s.goto op o (.rnInc :: ps))
  | .rnInc => .next ({ s with polln := s.polln + 1 }.goto op o (.rnUntil :: ps))
  | .rnUntil =>
    .next (s.goto op o (if s.sbit || s.polln == o.asLimit then .rnAfter :: ps else .rbDrive :: .rnPoll :: ps))
  | .rnAfter =>
    .next (if s.sbit then s.goto op o (.rstDrive :: .gcTest :: .rnReturn :: ps)
      else { s with ret := .timeout }.returnTo op o ps)
  -- only returned to, never stood at: the return goes on at once
  | .scOk => .next (s.returnTo op o (.scOk :: ps))
  | .gcLsbCall => .next (s.returnTo op o (.gcLsbCall :: ps))
  | .rdReturn => .next (s.returnTo op o (.rdReturn :: ps))
  | .rnReturn => .next (s.returnTo op o (.rnReturn :: ps))
  -- the command rules (R72 to R93)
  | .cmdTake => .next (s.goto op o ((if Op.hasTest op then .cmdTest else .cmdDone) :: ps))
  | .cmdTest => .next (s.goto op o (lastPoint (Op.testHolds op s) :: ps))
  | .cmdOk => .next (closing op true s)
  | .cmdDone => .next (closing op false s)

end Sys2Proof.Machine
end

