-- ==== Sys2Proof/Machine/Fetch.lean ====
section
/-! DEFINITION. Whose turn it is and what instruction, if any, the step runs: a command word the host writes, or the
wire command byte at the sequencer's point. -/

namespace Sys2Proof.Machine

/-- What a step is about to do: run an instruction in a state, or something that runs no instruction. -/
inductive Fetched where
  | instr (i : Instr) (s : State)
  | other (o : Outcome)

/-- The block's turn. Idle, it waits and nothing changes (70_reset_and_hazards.md R117; log entry 18). Else it runs
the wire command byte of its point, or the step of its point. A byte that is no wire command would be sent all the same
(R76); no point has one. A stack without a point, which no run has, is a return to the command rule. -/
def blockTurn (s : State) : Fetched :=
  match s.seq with
  | .idle => .other (.next s)
  | .run op o [] => .other (.next (s.returnTo op o []))
  | .run op o (p :: ps) =>
    match p.wireByte with
    | none => .other (stepPoint op o p ps s)
    | some b =>
      match decodeWire b with
      | .ok i => .instr i s
      | .error _ => .other (.next (s.callWriteByte b))

/-- One host access (20_memory.md R36 to R39). A word written to `CMD` is decoded and run; an illegal word is
accepted and completed at once; a word written while the block is busy is lost whatever its bits, which the meanings
see to (60_exceptions.md R103, R108). -/
def hostTurn (a : HostAccess) (s : State) : Fetched :=
  match a with
  | .read addr width =>
    match hostReg s.params.base addr width with
    | none => .other (.refused .notAnAccess)
    | some r => .other (.next (s.hostRead r))
  | .write addr width v =>
    match hostReg s.params.base addr width with
    | none => .other (.refused .notAnAccess)
    | some .cmd =>
      match decodeCommand v with
      | .ok i => .instr i s
      | .error _ => .other (.next (s.writeIllegal v))
    | some .status => .other (.next (s.writeStatus v))
    | some .data => .other (.next s)
    | some .temp => .other (.next s)

/-- The host's `wait`: it reads `STATUS`, and goes on polling, one block step between polls, until `BUSY` is 0
(30_encoding.md R61; log entry 15). -/
def waitTurn (s : State) : State :=
  if Status.busy s.status then { s.hostRead .status with turns := .block :: .wait :: s.turns } else s.hostRead .status

/-- The next turn: the first listed one, the block's when none is listed (log entry 2). -/
def fetch (s : State) : Fetched :=
  match s.turns with
  | [] => blockTurn s
  | .block :: ts => blockTurn { s with turns := ts }
  | .host a :: ts => hostTurn a { s with turns := ts }
  | .wait :: ts => .other (.next (waitTurn { s with turns := ts }))
  | .blockReset :: ts => .other (.next ({ s with turns := ts }.blockReset))

/-! ## Where a step fetches its next instruction -/

/-- The host's write of a command word `w` is the next turn. -/
def State.placeCommand (w : Word) (s : State) : State :=
  { s with turns := .host (.write (s.params.base + HostReg.offset .cmd) 4 w) :: s.turns }

/-- A session operation stands at the point `p` of its procedure, right after the bus reset and with nothing below, and
the block moves next. -/
def State.placeSession (op : Op) (w : Word) (p : Point) (s : State) : State :=
  { s with
    seq := .run op .none [p]
    cmd := w
    status := Status.accept s.status
    lineOut := .rel
    timer := 0
    pres := true
    turns := .block :: s.turns }

/-- The session operation that sends the wire command byte `b` stands where it sends it; a byte the block never sends
has no such place, and the state stays. -/
def State.placeWire (b : Byte) (s : State) : State :=
  if b = 0xCC#8 then s.placeSession .dsStartConversion (layoutCommand 0 0 0x6#4) .scSkip
  else if b = 0x44#8 then s.placeSession .dsStartConversion (layoutCommand 0 0 0x6#4) .scConv
  else if b = 0xBE#8 then s.placeSession .dsGetConversion (layoutCommand 0 0 0x7#4) .gcRead
  else s

end Sys2Proof.Machine
end

