-- ==== Sys2Proof/Machine/Step.lean ====
section
/-! DEFINITION. One step of the machine, and where a step fetches its next instruction. -/

namespace Sys2Proof.Machine

/-- One step: the agent whose turn it is moves; a command word or a wire command byte is run by `exec`. -/
def step (s : State) : Host.Outcome State Fault Refusal :=
  match fetch s with
  | .instr i t => exec i t
  | .other o => o

/-- `s` with the instruction `w` of `nbits` bits where the next step fetches it: a command word as the host's next
write to `CMD`, a wire command byte at the session point that sends it (log entry 16). -/
def State.withFetchWord (s : State) (nbits w : Nat) : State :=
  if nbits = 32 then s.placeCommand (BitVec.ofNat 32 w)
  else if nbits = 8 then s.placeWire (BitVec.ofNat 8 w)
  else s

end Sys2Proof.Machine
end

