-- ==== Sys2Proof/Machine/HostProgram.lean ====
section
/-! DEFINITION. The host's side: the statements and pseudo-instructions of 30_encoding.md R61 and R62 as turns, and the
conversion of the raw temperature (42_ds18b20_session.md R94), which the host applies and the block does not. -/

namespace Sys2Proof.Machine

/-- A host statement (R61) or pseudo-instruction (R62). Immediates are numbers as written, in or out of range. -/
inductive HostStmt where
  | owreset
  | owwbit (b : Nat)
  | owwbyte (v : Nat)
  | owrbit
  | owrbyte
  | dsconv
  | dsget
  | dsread
  | dsreadb (n : Nat)
  /-- `.word w`: any 32-bit word written to `CMD`. -/
  | word (w : Word)
  | wait
  /-- `rd REG`. -/
  | rd (r : HostReg)
  /-- `wr REG, w`. -/
  | wr (r : HostReg) (w : Word)
  | owskip
  | owconv
  | owrdsp
  | owcmd (v : Nat)
  /-- `do op`. -/
  | doWait (op : HostStmt)
  deriving DecidableEq, Repr

/-- The statement is one of R61 that writes `CMD`: what `do` may take (R62). -/
def HostStmt.writesCmd : HostStmt → Bool
  | .owreset | .owwbit _ | .owwbyte _ | .owrbit | .owrbyte | .dsconv | .dsget | .dsread | .dsreadb _ | .word _ => true
  | .wr r _ => r == .cmd
  | .wait | .rd _ | .owskip | .owconv | .owrdsp | .owcmd _ | .doWait _ => false

/-- The host's write of a word to a register of the window at `base` (R36). -/
def writeTurn (base : Nat) (r : HostReg) (w : Word) : Turn := .host (.write (base + r.offset) 4 w)

/-- `owwbyte v`: an immediate out of range is an assembly error (R61). -/
def assembleByte (base v : Nat) : Option (List Turn) :=
  if v < 256 then some [writeTurn base .cmd (0x00000003#32 ||| (BitVec.ofNat 32 v <<< 8))] else none

/-- The turns of a statement; `none` is an assembly error (R61, R62). DESIGN CHOICE (log entry 23): the host's accesses
alone, with no block turn beside them. -/
def assemble (base : Nat) : HostStmt → Option (List Turn)
  | .owreset => some [writeTurn base .cmd 0x00000001#32]
  | .owwbit b => if b < 2 then some [writeTurn base .cmd (0x00000002#32 ||| (BitVec.ofNat 32 b <<< 8))] else none
  | .owwbyte v => assembleByte base v
  | .owrbit => some [writeTurn base .cmd 0x00000004#32]
  | .owrbyte => some [writeTurn base .cmd 0x00000005#32]
  | .dsconv => some [writeTurn base .cmd 0x00000006#32]
  | .dsget => some [writeTurn base .cmd 0x00000007#32]
  | .dsread => some [writeTurn base .cmd 0x00000008#32]
  | .dsreadb n =>
    if 1 ≤ n ∧ n ≤ 65535 then some [writeTurn base .cmd (0x00000009#32 ||| (BitVec.ofNat 32 n <<< 16))] else none
  | .word w => some [writeTurn base .cmd w]
  | .wait => some [.wait]
  | .rd r => some [.host (.read (base + r.offset) 4)]
  | .wr r w => some [writeTurn base r w]
  | .owskip => assembleByte base 0xCC
  | .owconv => assembleByte base 0x44
  | .owrdsp => assembleByte base 0xBE
  | .owcmd v => (assembleByte base v).map (· ++ [.wait])
  | .doWait op => if op.writesCmd then (assemble base op).map (· ++ [.wait]) else none

/-- The turns of a program: its statements one after the other (R61). DESIGN CHOICE (log entry 23): this is one schedule
of the program and names no other. R46 leaves every interleaving open (the schedules of 95_test_vectors.md P4 are two),
and here the block takes no step between two statements but those it takes inside a `wait` (log entry 15). Every other
schedule is another list of turns, with block turns between these. -/
def assembleAll (base : Nat) : List HostStmt → Option (List Turn)
  | [] => some []
  | st :: rest =>
    match assemble base st, assembleAll base rest with
    | some a, some b => some (a ++ b)
    | _, _ => none

/-- Degrees Celsius of a `TEMP` word: the rational `raw / TEMP_SCALE`, computed by the host (00_scope.md R9, R94). -/
def celsius (scale : Config.TempScale) (temp : Word) : Rat := (temp.toInt : Rat) / (scale.unitsPerDegree : Rat)

end Sys2Proof.Machine
end

