-- ==== Sys2Proof/Safety.lean ====
section
/-! DEFINITION. The terms claims are stated in: runs, the expected traces of 95_test_vectors.md section 0, nominal
durations (70_reset_and_hazards.md R126), and the invariant of the machine. -/

namespace Sys2Proof.Machine

/-! ## Runs -/

/-- Some number of steps leads from `s` to `t` without a fault or a refusal. -/
def Reaches (s t : State) : Prop := ∃ n, Host.Core.run Sys2Proof.core n s = .next t

/-- The block is idle, no delay runs, and only the block moves from here: where an operation can start and run to its end
undisturbed. -/
structure Quiet (s : State) : Prop where
  notBusy : Status.busy s.status = false
  seqIdle : s.seq = .idle
  noDelay : s.timer = 0
  noTurns : s.turns = []

/-! ## Expected traces, the abbreviations of 95_test_vectors.md section 0 -/

/-- `RST+` when presence is seen (`v` = 0), `RST-` when not (R71). -/
def traceReset (p : Config.Params) (v : Bit) : List TraceEvent :=
  [.low, .wait p.tRstLow, .rel, .wait p.tRstPds, .sample v] ++ (if v then [] else [.wait p.tRstHold])

/-- `W(b)` (R73). -/
def traceWriteBit (p : Config.Params) (b : Bit) : List TraceEvent :=
  [.low, .wait p.tWLow, .set b, .wait p.tWHold, .rel, .wait p.tWRec]

/-- `R(v)` (R77). -/
def traceReadBit (p : Config.Params) (v : Bit) : List TraceEvent :=
  [.low, .wait p.tRLow, .rel, .wait p.tRPre, .sample v, .wait p.tRPost]

/-- The bits of a byte in wire order, bit 0 first (R42). -/
def wireBits (v : Byte) : List Bit :=
  [v.getLsbD 0, v.getLsbD 1, v.getLsbD 2, v.getLsbD 3, v.getLsbD 4, v.getLsbD 5, v.getLsbD 6, v.getLsbD 7]

/-- `WB(x)` (R75). -/
def traceWriteByte (p : Config.Params) (v : Byte) : List TraceEvent := (wireBits v).flatMap (traceWriteBit p)

/-- `RB(x)` (R79). -/
def traceReadByte (p : Config.Params) (v : Byte) : List TraceEvent := (wireBits v).flatMap (traceReadBit p)

/-- `k` busy polls (R90). -/
def traceBusyPolls (p : Config.Params) (k : Nat) : List TraceEvent := (List.replicate k false).flatMap (traceReadBit p)

/-- The byte whose bit `i` is the `i`-th of eight samples: `Σ s_i · 2^i` (R79). -/
def sampledByte (f : Nat → Bit) : Byte :=
  BitVec.ofNat 8 ((f 0).toNat * 1 + (f 1).toNat * 2 + (f 2).toNat * 4 + (f 3).toNat * 8 + (f 4).toNat * 16 +
    (f 5).toNat * 32 + (f 6).toNat * 64 + (f 7).toNat * 128)

/-- The byte the eight samples from the `k`-th on will make (R79). -/
def State.byteAt (s : State) (k : Nat) : Byte := sampledByte (fun i => s.levelAt (k + i))

/-- The environment has given `n` more samples: `t` draws from where `s` would after `n`. -/
def DrewLevels (s t : State) (n : Nat) : Prop := ∀ k, t.levelAt k = s.levelAt (n + k)

/-! ## Durations (R126) -/

/-- Nominal bus reset, by the level sampled in the presence window. -/
def nominalReset (p : Config.Params) (v : Bit) : Nat := p.tRstLow + p.tRstPds + (if v then 0 else p.tRstHold)

/-- Nominal write slot. -/
def nominalWriteBit (p : Config.Params) : Nat := p.tWLow + p.tWHold + p.tWRec

/-- Nominal read slot. -/
def nominalReadBit (p : Config.Params) : Nat := p.tRLow + p.tRPre + p.tRPost

/-- `n` delays of nominal length `d` in all were run: none shorter than its length, none longer by more than the slack
(R7). -/
def Lasted (s t : State) (d n : Nat) : Prop :=
  s.elapsed + d ≤ t.elapsed ∧ t.elapsed ≤ s.elapsed + d + n * s.params.delaySlackUs

/-! ## Acceptance and completion -/

/-- The operation `op` stands at its completion, the command rule's condition having held or not. -/
def Completing (s : State) (op : Op) (held : Bool) : Prop := ∃ o ps, s.seq = .run op o (lastPoint held :: ps)

/-- `t` is `s` with the command word `w` accepted: `CMD`, `STATUS.BUSY`, `STATUS.DONE` and `seq` change, all else is as
before (R23, R25). -/
structure Accepted (s t : State) (op : Op) (o : Operand) (w : Word) (start : List Point) : Prop where
  state : t = { s with cmd := w, status := t.status, seq := .run op o start }
  busy : Status.busy t.status = true
  notDone : Status.done t.status = false
  result : Status.result t.status = Status.result s.status
  presence : Status.presence t.status = Status.presence s.status
  overrun : Status.overrun t.status = Status.overrun s.status
  reserved : Status.reservedZero t.status = true

/-- From the acceptance of `w` in `s` to its completion in `u`: the operation put `events` and then its one `DONE` on
the trace, drew `m` samples, ran `n` delays of nominal length `d` in all, and ended idle with the line released
(R25, R47, R82). `PRESENCE`, `DATA`, `TEMP` and the sequencer's registers are left to each statement. -/
structure Finished (s u : State) (op : Op) (w : Word) (r : ResultCode) (events : List TraceEvent) (m n d : Nat) :
    Prop where
  seqIdle : u.seq = .idle
  released : u.lineOut = .rel
  noDelay : u.timer = 0
  cmd : u.cmd = w
  notBusy : Status.busy u.status = false
  isDone : Status.done u.status = true
  result : Status.result u.status = r
  overrun : Status.overrun u.status = Status.overrun s.status
  reserved : Status.reservedZero u.status = true
  trace : u.trace = s.trace ++ events ++ [.done (some op) r]
  drew : DrewLevels s u m
  lasted : Lasted s u d n
  params : u.params = s.params
  turns : u.turns = s.turns
  resets : u.resets = s.resets
  reads : u.reads = s.reads

/-! ## The invariant -/

/-- The procedures of the operation rules. -/
inductive Proc where
  | owReset
  | owWriteBit
  | owWriteByte
  | owReadBit
  | owReadByte
  | dsStart
  | dsGet
  | dsRead
  | dsReadBounded
  /-- The command rule itself, after its procedure. -/
  | command
  deriving DecidableEq, Repr

/-- The procedure a point belongs to. -/
def Point.proc : Point → Proc
  | .rstDrive | .rstLow | .rstRel | .rstPds | .rstSample | .rstTest | .rstHold | .rstPresent | .rstAbsent => .owReset
  | .wbDrive | .wbLow | .wbSet | .wbHold | .wbRel | .wbRec => .owWriteBit
  | .wyArg | .wyInit | .wyNext | .wyInc => .owWriteByte
  | .rbDrive | .rbLow | .rbRel | .rbPre | .rbSample | .rbPost => .owReadBit
  | .ryClear | .ryInit | .ryNext | .ryStore | .ryInc => .owReadByte
  | .scTest | .scSkip | .scConv | .scOk => .dsStart
  | .gcTest | .gcSkip | .gcRead | .gcLsbCall | .gcLsb | .gcMsb => .dsGet
  | .rdTest | .rdPoll | .rdUntil | .rdReturn => .dsRead
  | .rnTest | .rnZero | .rnPoll | .rnInc | .rnUntil | .rnAfter | .rnReturn => .dsReadBounded
  | .cmdTake | .cmdTest | .cmdOk | .cmdDone => .command

/-- The procedure whose return a point takes up, for the points a call returns to. -/
def Point.awaits : Point → Option Proc
  | .wyInc => some .owWriteBit
  | .ryStore | .rdPoll | .rnPoll => some .owReadBit
  | .scTest | .gcTest => some .owReset
  | .scConv | .scOk | .gcRead | .gcLsbCall => some .owWriteByte
  | .gcLsb | .gcMsb => some .owReadByte
  | .rdTest | .rnTest => some .dsStart
  | .rdReturn | .rnReturn => some .dsGet
  | .rstDrive | .rstLow | .rstRel | .rstPds | .rstSample | .rstTest | .rstHold | .rstPresent | .rstAbsent => none
  | .wbDrive | .wbLow | .wbSet | .wbHold | .wbRel | .wbRec | .wyArg | .wyInit | .wyNext => none
  | .rbDrive | .rbLow | .rbRel | .rbPre | .rbSample | .rbPost | .ryClear | .ryInit | .ryNext | .ryInc => none
  | .scSkip | .gcSkip | .rdUntil | .rnZero | .rnInc | .rnUntil | .rnAfter => none
  | .cmdTake | .cmdTest | .cmdOk | .cmdDone => none

/-- The procedure an operation's command rule calls, and the rule itself: the bottom of the stack. -/
def Op.runs : Op → Proc → Bool
  | _, .command => true
  | .owReset, p => p == .owReset
  | .owWriteBit, p => p == .owWriteBit
  | .owWriteByte, p => p == .owWriteByte
  | .owReadBit, p => p == .owReadBit
  | .owReadByte, p => p == .owReadByte
  | .dsStartConversion, p => p == .dsStart
  | .dsGetConversion, p => p == .dsGet
  | .dsRead, p => p == .dsRead
  | .dsReadBounded, p => p == .dsReadBounded

/-- There is a point, every point below the top takes up the return of the procedure above it, and the bottom is a
procedure of the operation (R20). -/
def legalStack (op : Op) : List Point → Bool
  | [] => false
  | [p] => Op.runs op p.proc
  | p :: q :: ps => q.awaits == some p.proc && legalStack op (q :: ps)

/-- What the line port does while the sequencer stands at a point (R64 to R66, R82). -/
def lineAt (drive : Config.Write1Drive) (o : Operand) (passed : Bit) : List Point → LineOut
  | .rstLow :: _ | .rstRel :: _ | .wbLow :: _ | .wbSet :: _ | .rbLow :: _ | .rbRel :: _ => .low
  | .wbHold :: ps | .wbRel :: ps => setLineOut drive (slotBit o passed ps)
  | _ => .rel

/-- The poll count stays within the limit: below it while a slot runs, at most it when the slot is counted (R92). -/
def pollsWithin (limit polln : Nat) (ps : List Point) : Bool :=
  if ps.contains .rnPoll || ps.contains .rnInc then polln < limit
  else if ps.contains .rnUntil then polln ≤ limit
  else true

/-- A byte procedure has a bit in hand that it has not counted yet: bit `BITI` is being sent or read (R75, R79). -/
def bitPending (ps : List Point) : Bool :=
  ps.any fun p => p == .wyInc || p == .ryStore || p == .ryInc

/-- Points a session procedure reaches only after its bus reset saw presence (R86, R88, R98). -/
def Point.afterPresence : Point → Bool
  | .scSkip | .scConv | .scOk | .gcSkip | .gcRead | .gcLsbCall | .gcLsb | .gcMsb => true
  | .rdPoll | .rdUntil | .rnZero | .rnPoll | .rnInc | .rnUntil | .rnAfter => true
  | _ => false

/-- The operation is one of the session operations, whose completion reports `ret`. -/
def Op.isSession : Op → Bool
  | .dsStartConversion | .dsGetConversion | .dsRead | .dsReadBounded => true
  | .owReset | .owWriteBit | .owWriteByte | .owReadBit | .owReadByte => false

/-- The returned result agrees with the last presence sample: `BUS_ABSENT` exactly when it saw none, `TIMEOUT` only from
the bounded read, `ILLEGAL` never (60_exceptions.md R100 to R102). -/
def resultAgrees (op : Op) (ret : ResultCode) (pres : Bit) : Bool :=
  match ret with
  | .ok => pres
  | .busAbsent => !pres
  | .timeout => pres && op == .dsReadBounded
  | .illegal => false

/-- At the completion the returned values agree with the condition that led there. -/
def closingAgrees (op : Op) (ret : ResultCode) (pres held : Bit) : Bool :=
  if op == .owReset then pres == held
  else !Op.isSession op || (resultAgrees op ret pres && (op == .dsStartConversion || (ret == .ok) == held))

/-- Where the returned result is about to be read, it agrees with the presence sample; and the sequencer stands at none
of the points that are only returned to. -/
def returnAgrees (op : Op) (ret : ResultCode) (pres : Bit) : List Point → Bool
  | .rdTest :: _ | .rnTest :: _ => resultAgrees .dsStartConversion ret pres
  | .scOk :: _ | .gcLsbCall :: _ | .rdReturn :: _ | .rnReturn :: _ => false
  | .cmdTake :: _ | .cmdTest :: _ => !Op.isSession op || resultAgrees op ret pres
  | .cmdOk :: _ => closingAgrees op ret pres true
  | .cmdDone :: _ => closingAgrees op ret pres false
  | _ => true

/-- The part of the invariant about a running operation: the latched command, the stack, the line, the poll and bit
counts and the results. -/
structure RunInv (s : State) (op : Op) (o : Operand) (ps : List Point) : Prop where
  latched : decodeCommand s.cmd = .ok (op.instr s.cmd) ∧ o = operandOf op s.cmd
  stack : legalStack op ps = true
  line : s.lineOut = lineAt s.params.write1Drive o s.wbit ps
  polls : pollsWithin o.asLimit s.polln ps = true
  bits : bitPending ps = true → s.biti < 8
  presence : ps.any Point.afterPresence = true → s.pres = true
  returned : returnAgrees op s.ret s.pres ps = true

/-- The invariant every step keeps. -/
structure Inv (s : State) : Prop where
  busyRuns : Status.busy s.status = true ↔ s.seq ≠ .idle
  busyNotDone : Status.busy s.status = true → Status.done s.status = false
  statusReserved : Status.reservedZero s.status = true
  dataReserved : s.data &&& 0x000000FF#32 = s.data
  tempExtended : sext32Half (s.temp.extractLsb' 0 16) = s.temp
  bitiRange : s.biti ≤ 8
  pollnRange : s.polln ≤ 65535
  noDelay : s.timer = 0
  idleReleased : s.seq = .idle → s.lineOut = .rel
  running : ∀ op o ps, s.seq = .run op o ps → RunInv s op o ps

end Sys2Proof.Machine
end

