-- ==== Sys2Proof/Certificates/Slice0/Obligations.lean ====
section
/-! DEFINITION. The statements about the machine. -/

open Sys2Proof Sys2Proof.Machine

/-! ## Reset -/

/-- R117: what block reset leaves. The sequencer's data registers, which R117 leaves unspecified, are not mentioned. -/
def Obligations.ResetHoldsTheStatedValues : Prop :=
  State.reset.lineOut = .rel ∧ State.reset.seq = .idle ∧ State.reset.timer = 0 ∧ State.reset.cmd = 0x00000000#32 ∧
    State.reset.status = 0x00000000#32 ∧ State.reset.data = 0x00000000#32 ∧ State.reset.temp = 0x00000000#32 ∧
    Status.busy State.reset.status = false ∧ Status.done State.reset.status = false ∧
    Status.result State.reset.status = .ok ∧ Status.presence State.reset.status = false ∧
    Status.overrun State.reset.status = false

/-- R117, R118, R119: a block reset, also while an operation runs, takes every register to its reset value in one step,
puts nothing on the bus and records no completion; the parameters stay. Model's choice: that the inputs and the
observation (`turns`, `levels`, `excess`, `reads`, `elapsed` and the draw counters) stay as they are (log entries 3, 4
and 14), and that `BITI` and `POLLN`, which R117 leaves unspecified, stay in the ranges of R21 (log entry 10). -/
def Obligations.BlockResetAbortsAndReleases : Prop :=
  ∀ (s : State) (ts : List Turn), s.turns = .blockReset :: ts →
    ∃ t, step s = .next t ∧ t.lineOut = .rel ∧ t.seq = .idle ∧ t.timer = 0 ∧ t.cmd = 0 ∧ t.status = 0 ∧ t.data = 0 ∧
      t.temp = 0 ∧ t.trace = s.trace ∧ t.params = s.params ∧ t.turns = ts ∧ t.levels = s.levels ∧ t.samples = s.samples ∧
      t.excess = s.excess ∧ t.delays = s.delays ∧ t.reads = s.reads ∧ t.elapsed = s.elapsed ∧ t.biti ≤ 8 ∧
      t.polln ≤ 65535

/-! ## Encoding -/

/-- Words and bytes written out from R56 and R59 decode to what they stand for. -/
def Obligations.SpecWordsDecodeToTheirInstructions : Prop :=
  decodeCommand 0x00000001#32 = .ok .owreset ∧ decodeCommand 0x00000002#32 = .ok (.owwbit false) ∧
    decodeCommand 0x00000102#32 = .ok (.owwbit true) ∧ decodeCommand 0x0000CC03#32 = .ok (.owwbyte 0xCC#8) ∧
    decodeCommand 0x00000004#32 = .ok .owrbit ∧ decodeCommand 0x00000005#32 = .ok .owrbyte ∧
    decodeCommand 0x00000006#32 = .ok .dsconv ∧ decodeCommand 0x00000007#32 = .ok .dsget ∧
    decodeCommand 0x00000008#32 = .ok .dsread ∧ decodeCommand 0xFFFF0009#32 = .ok (.dsreadb 0xFFFF#16) ∧
    decodeWire 0b11001100#8 = .ok .skipRom ∧ decodeWire 0b01000100#8 = .ok .startConv ∧
    decodeWire 0b10111110#8 = .ok .readScratchpad

/-- Decoding the encoding of a well-formed instruction gives it back, whatever its operands. -/
def Obligations.DecodeOfEncodeIsTheInstruction : Prop :=
  ∀ i : Instr, i.wellFormed = true → decode (encode i) = .ok i

/-- A word or byte that decodes is the encoding of the well-formed instruction it decodes to: each has one meaning. -/
def Obligations.EncodeOfDecodeIsTheWord : Prop :=
  ∀ (c : Code) (i : Instr), decode c = .ok i → i.wellFormed = true ∧ encode i = c

/-- R57: the decoder gives a row's operation with its operand exactly to the words that row accepts, an illegal word is
one no row accepts, and no word is accepted by two rows. -/
def Obligations.DecodeFollowsMatchAndMask : Prop :=
  ∀ w : Word,
    (∀ r ∈ commandRows, (w &&& r.mask = r.pattern ∧ (r.op = .dsReadBounded → w.extractLsb' 16 16 ≠ 0#16)) →
      decodeCommand w = .ok (r.op.instr w) ∧
        ∀ q ∈ commandRows, (w &&& q.mask = q.pattern ∧ (q.op = .dsReadBounded → w.extractLsb' 16 16 ≠ 0#16)) → q = r) ∧
    ((∀ r ∈ commandRows, ¬ (w &&& r.mask = r.pattern ∧ (r.op = .dsReadBounded → w.extractLsb' 16 16 ≠ 0#16))) →
      ∃ e, decodeCommand w = .error e)

/-- R58 in terms of the fields of R54 as numbers: `OP` reserved, a reserved field not 0, or a poll limit of 0, and no
other word, is illegal. -/
def Obligations.IllegalWordsAreExactlyTheReservedOnes : Prop :=
  ∀ w : Word,
    (∃ e, decodeCommand w = .error e) ↔
      (w.toNat % 16 = 0 ∨ 10 ≤ w.toNat % 16 ∨ w.toNat / 16 % 16 ≠ 0 ∨
        (w.toNat % 16 = 2 ∧ (2 ≤ w.toNat / 256 % 256 ∨ w.toNat / 65536 ≠ 0)) ∨
        (w.toNat % 16 = 3 ∧ w.toNat / 65536 ≠ 0) ∨
        (w.toNat % 16 = 9 ∧ (w.toNat / 256 % 256 ≠ 0 ∨ w.toNat / 65536 = 0)) ∨
        (w.toNat % 16 ∈ [1, 4, 5, 6, 7, 8] ∧ (w.toNat / 256 % 256 ≠ 0 ∨ w.toNat / 65536 ≠ 0)))

/-- The assembler's words are the encoder's, an immediate out of range is an assembly error, and a pseudo-instruction
is its expansion (R61, R62). -/
def Obligations.AssemblerAgreesWithTheEncoder : Prop :=
  ∀ base : Nat,
    (∀ (st : HostStmt) (i : Instr) (w : Word),
      (st, i) ∈ [(.owreset, .owreset), (.owrbit, .owrbit), (.owrbyte, .owrbyte), (.dsconv, .dsconv), (.dsget, .dsget),
        (.dsread, .dsread)] → encode i = .command w →
      assemble base st = some [.host (.write base 4 w)]) ∧
    (∀ b : Nat, assemble base (.owwbit b) =
      if b < 2 then some [.host (.write base 4 (wordOwwbit (b == 1)))] else none) ∧
    (∀ v : Nat, assemble base (.owwbyte v) =
      if v < 256 then some [.host (.write base 4 (wordOwwbyte (BitVec.ofNat 8 v)))] else none) ∧
    (∀ n : Nat, assemble base (.dsreadb n) =
      if 1 ≤ n ∧ n ≤ 65535 then some [.host (.write base 4 (wordDsreadb (BitVec.ofNat 16 n)))] else none) ∧
    assemble base .owskip = assemble base (.owwbyte 0xCC) ∧ assemble base .owconv = assemble base (.owwbyte 0x44) ∧
    assemble base .owrdsp = assemble base (.owwbyte 0xBE) ∧
    (∀ v : Nat, assemble base (.owcmd v) = (assemble base (.owwbyte v)).map (· ++ [.wait]))

/-! ## A step runs the decoded instruction -/

/-- When the next turn is a host write of a legal command word to `CMD`, the step is `exec` of the decoded instruction
with that turn used up; a word that decodes to nothing goes the way of an illegal command. -/
def Obligations.StepRunsTheWrittenCommand : Prop :=
  ∀ (s : State) (ts : List Turn) (w : Word), s.turns = .host (.write s.params.base 4 w) :: ts →
    (∀ i, decodeCommand w = .ok i → step s = exec i { s with turns := ts }) ∧
    (∀ e, decodeCommand w = .error e → step s = .next ({ s with turns := ts }.writeIllegal w))

/-- When the block moves and its point sends a wire command byte, the step is `exec` of the instruction the byte decodes
to; at every other point it is that point's step, at the operation's last point its completion, and idle nothing. The
block moves when its turn is listed and when no turn is. Model's choice: that a wire command byte is an instruction run
by `exec` at its point (log entry 12), that the block moves when no turn is listed (log entry 2), and that an idle
block's turn changes nothing (log entry 18). -/
def Obligations.StepRunsTheSequencer : Prop :=
  ∀ (s : State) (ts : List Turn), (s.turns = .block :: ts ∨ s.turns = [] ∧ ts = []) →
    (∀ op o p ps b i, s.seq = .run op o (p :: ps) → p.wireByte = some b → decodeWire b = .ok i →
      step s = exec i { s with turns := ts }) ∧
    (∀ op o p ps, s.seq = .run op o (p :: ps) → p.wireByte = none →
      step s = stepPoint op o p ps { s with turns := ts }) ∧
    (∀ op held, Completing s op held → step s = .next (closing op held { s with turns := ts })) ∧
    (s.seq = .idle → step s = .next { s with turns := ts })

/-- The four points of the session procedures that send a wire command byte, and the bytes (R83, R84, R85). -/
def Obligations.WirePointsSendTheFixedBytes : Prop :=
  ∀ (p : Point) (b : Byte), p.wireByte = some b ↔
    ((p = .scSkip ∨ p = .gcSkip) ∧ b = 0xCC#8) ∨ (p = .scConv ∧ b = 0x44#8) ∨ (p = .gcRead ∧ b = 0xBE#8)

/-! ## The commands: acceptance, run and completion -/

/-- `OW_RESET` (R71, R72): from a quiet state it is accepted and runs to its end: the bus reset, `PRESENCE`, and `OK` or
`BUS_ABSENT` by the level sampled. -/
def Obligations.OwResetCompletes : Prop :=
  ∀ s : State, Quiet s → ∃ t u, exec .owreset s = .next t ∧ Accepted s t .owReset .none 0x00000001#32 [.rstDrive] ∧
    Reaches t u ∧
    Finished s u .owReset 0x00000001#32 (if s.levelAt 0 then .busAbsent else .ok) (traceReset s.params (s.levelAt 0)) 1
      (if s.levelAt 0 then 2 else 3) (nominalReset s.params (s.levelAt 0)) ∧
    Status.presence u.status = !s.levelAt 0 ∧ u.pres = !s.levelAt 0 ∧ u.data = s.data ∧ u.temp = s.temp ∧
    u.shift = s.shift ∧ u.biti = s.biti ∧ u.lsb = s.lsb ∧ u.msb = s.msb ∧ u.polln = s.polln

/-- `OW_WRITE_BIT b` (R73, R74): one write slot carrying `b`, `OK`. -/
def Obligations.OwWriteBitCompletes : Prop :=
  ∀ (s : State) (b : Bit), Quiet s → ∃ t u, exec (.owwbit b) s = .next t ∧
    Accepted s t .owWriteBit (.bit b) (if b then 0x00000102#32 else 0x00000002#32) [.wbDrive] ∧ Reaches t u ∧
    Finished s u .owWriteBit (if b then 0x00000102#32 else 0x00000002#32) .ok (traceWriteBit s.params b) 0 3
      (nominalWriteBit s.params) ∧
    Status.presence u.status = Status.presence s.status ∧ u.pres = s.pres ∧ u.data = s.data ∧ u.temp = s.temp ∧
    u.shift = s.shift ∧ u.biti = s.biti ∧ u.lsb = s.lsb ∧ u.msb = s.msb ∧ u.polln = s.polln

/-- `OW_WRITE_BYTE v` (R75, R76): eight write slots carrying `v`, bit 0 first, `OK`. -/
def Obligations.OwWriteByteCompletes : Prop :=
  ∀ (s : State) (v : Byte), Quiet s → ∃ t u, exec (.owwbyte v) s = .next t ∧
    Accepted s t .owWriteByte (.byte v) (0x00000003#32 ||| (v.zeroExtend 32 <<< 8)) [.wyArg] ∧ Reaches t u ∧
    Finished s u .owWriteByte (0x00000003#32 ||| (v.zeroExtend 32 <<< 8)) .ok (traceWriteByte s.params v) 0 24
      (8 * nominalWriteBit s.params) ∧
    Status.presence u.status = Status.presence s.status ∧ u.pres = s.pres ∧ u.data = s.data ∧ u.temp = s.temp ∧
    u.lsb = s.lsb ∧ u.msb = s.msb ∧ u.polln = s.polln

/-- `OW_READ_BIT` (R77, R78): one read slot, and `DATA` is the sampled bit, `OK`. -/
def Obligations.OwReadBitCompletes : Prop :=
  ∀ s : State, Quiet s → ∃ t u, exec .owrbit s = .next t ∧ Accepted s t .owReadBit .none 0x00000004#32 [.rbDrive] ∧
    Reaches t u ∧
    Finished s u .owReadBit 0x00000004#32 .ok (traceReadBit s.params (s.levelAt 0)) 1 3 (nominalReadBit s.params) ∧
    Status.presence u.status = Status.presence s.status ∧ u.pres = s.pres ∧
    u.data = (if s.levelAt 0 then 0x00000001#32 else 0x00000000#32) ∧ u.temp = s.temp ∧
    u.shift = s.shift ∧ u.biti = s.biti ∧ u.lsb = s.lsb ∧ u.msb = s.msb ∧ u.polln = s.polln

/-- `OW_READ_BYTE` (R79, R80): eight read slots, and `DATA` is the byte whose bit `i` is the `i`-th sample, `OK`. -/
def Obligations.OwReadByteCompletes : Prop :=
  ∀ s : State, Quiet s → ∃ t u, exec .owrbyte s = .next t ∧ Accepted s t .owReadByte .none 0x00000005#32 [.ryClear] ∧
    Reaches t u ∧
    Finished s u .owReadByte 0x00000005#32 .ok (traceReadByte s.params (s.byteAt 0)) 8 24 (8 * nominalReadBit s.params) ∧
    (∀ i, u.data.getLsbD i = (decide (i < 8) && s.levelAt i)) ∧
    Status.presence u.status = Status.presence s.status ∧ u.pres = s.pres ∧ u.temp = s.temp ∧
    u.lsb = s.lsb ∧ u.msb = s.msb ∧ u.polln = s.polln

/-- `DS_START_CONVERSION` (R86, R87): without presence nothing follows the bus reset and the result is `BUS_ABSENT`; with
it, 0xCC and 0x44 follow and the result is `OK`. -/
def Obligations.DsStartConversionCompletes : Prop :=
  ∀ s : State, Quiet s → ∃ t u, exec .dsconv s = .next t ∧
    Accepted s t .dsStartConversion .none 0x00000006#32 [.rstDrive, .scTest] ∧ Reaches t u ∧
    (if s.levelAt 0 then
      Finished s u .dsStartConversion 0x00000006#32 .busAbsent (traceReset s.params true) 1 2 (nominalReset s.params true)
    else
      Finished s u .dsStartConversion 0x00000006#32 .ok
        (traceReset s.params false ++ traceWriteByte s.params 0xCC#8 ++ traceWriteByte s.params 0x44#8) 1 51
        (nominalReset s.params false + 16 * nominalWriteBit s.params)) ∧
    Status.presence u.status = !s.levelAt 0 ∧ u.pres = !s.levelAt 0 ∧ u.data = s.data ∧ u.temp = s.temp ∧
    u.lsb = s.lsb ∧ u.msb = s.msb ∧ u.polln = s.polln

/-- `DS_GET_CONVERSION` (R88, R89): without presence nothing follows the bus reset, the result is `BUS_ABSENT` and `TEMP`
stays; with it, 0xCC and 0xBE follow, two bytes are read and `TEMP` is their sign-extended pair. -/
def Obligations.DsGetConversionCompletes : Prop :=
  ∀ s : State, Quiet s → ∃ t u, exec .dsget s = .next t ∧
    Accepted s t .dsGetConversion .none 0x00000007#32 [.rstDrive, .gcTest] ∧ Reaches t u ∧
    (if s.levelAt 0 then
      Finished s u .dsGetConversion 0x00000007#32 .busAbsent (traceReset s.params true) 1 2
        (nominalReset s.params true) ∧ u.temp = s.temp ∧ u.lsb = s.lsb ∧ u.msb = s.msb
    else
      Finished s u .dsGetConversion 0x00000007#32 .ok
        (traceReset s.params false ++ traceWriteByte s.params 0xCC#8 ++ traceWriteByte s.params 0xBE#8 ++
          traceReadByte s.params (s.byteAt 1) ++ traceReadByte s.params (s.byteAt 9)) 17 99
        (nominalReset s.params false + 16 * nominalWriteBit s.params + 16 * nominalReadBit s.params) ∧
      u.temp = (s.byteAt 9 ++ s.byteAt 1).signExtend 32 ∧ u.lsb = s.byteAt 1 ∧ u.msb = s.byteAt 9) ∧
    Status.presence u.status = !s.levelAt 0 ∧ u.pres = !s.levelAt 0 ∧ u.data = s.data ∧ u.polln = s.polln

/-- `DS_READ` (R90, R91) when the first bus reset sees no presence: nothing follows, `BUS_ABSENT`, `TEMP` stays. -/
def Obligations.DsReadWithoutDeviceEndsAtOnce : Prop :=
  ∀ s : State, Quiet s → s.levelAt 0 = true → ∃ t u, exec .dsread s = .next t ∧
    Accepted s t .dsRead .none 0x00000008#32 [.rstDrive, .scTest, .rdTest] ∧ Reaches t u ∧
    Finished s u .dsRead 0x00000008#32 .busAbsent (traceReset s.params true) 1 2 (nominalReset s.params true) ∧
    Status.presence u.status = false ∧ u.data = s.data ∧ u.temp = s.temp ∧ u.lsb = s.lsb ∧ u.msb = s.msb ∧
    u.polln = s.polln

/-- `DS_READ` (R90, R91) with a device that is busy for `k` polls and then done, for every `k`: conversion started,
`k` + 1 poll slots, then the scratchpad read, which ends `OK` with `TEMP` written, or `BUS_ABSENT` with `TEMP` kept
if its bus reset sees no presence. -/
def Obligations.DsReadCompletesAfterAnyBusyPolls : Prop :=
  ∀ (s : State) (k : Nat), Quiet s → s.levelAt 0 = false → (∀ j < k, s.levelAt (1 + j) = false) →
    s.levelAt (1 + k) = true → ∃ t u, exec .dsread s = .next t ∧
    Accepted s t .dsRead .none 0x00000008#32 [.rstDrive, .scTest, .rdTest] ∧ Reaches t u ∧
    (if s.levelAt (2 + k) then
      Finished s u .dsRead 0x00000008#32 .busAbsent
        (traceReset s.params false ++ traceWriteByte s.params 0xCC#8 ++ traceWriteByte s.params 0x44#8 ++
          traceBusyPolls s.params k ++ traceReadBit s.params true ++ traceReset s.params true) (3 + k)
        (51 + 3 * (k + 1) + 2)
        (nominalReset s.params false + 16 * nominalWriteBit s.params + (k + 1) * nominalReadBit s.params +
          nominalReset s.params true) ∧
      Status.presence u.status = false ∧ u.temp = s.temp ∧ u.lsb = s.lsb ∧ u.msb = s.msb
    else
      Finished s u .dsRead 0x00000008#32 .ok
        (traceReset s.params false ++ traceWriteByte s.params 0xCC#8 ++ traceWriteByte s.params 0x44#8 ++
          traceBusyPolls s.params k ++ traceReadBit s.params true ++
          (traceReset s.params false ++ traceWriteByte s.params 0xCC#8 ++ traceWriteByte s.params 0xBE#8 ++
            traceReadByte s.params (s.byteAt (3 + k)) ++ traceReadByte s.params (s.byteAt (11 + k)))) (19 + k)
        (51 + 3 * (k + 1) + 99)
        (nominalReset s.params false + 16 * nominalWriteBit s.params + (k + 1) * nominalReadBit s.params +
          (nominalReset s.params false + 16 * nominalWriteBit s.params + 16 * nominalReadBit s.params)) ∧
      Status.presence u.status = true ∧ u.temp = (s.byteAt (11 + k) ++ s.byteAt (3 + k)).signExtend 32 ∧
      u.lsb = s.byteAt (3 + k) ∧ u.msb = s.byteAt (11 + k)) ∧
    u.data = s.data ∧ u.polln = s.polln

/-- The hang of R104: as long as every poll samples 0, for however many polls, `DS_READ` is still polling, busy, with no
completion recorded and no fault. -/
def Obligations.DsReadPollsWithoutBound : Prop :=
  ∀ (s : State) (k : Nat), Quiet s → s.levelAt 0 = false → (∀ j < k, s.levelAt (1 + j) = false) →
    ∃ t u, exec .dsread s = .next t ∧ Reaches t u ∧ u.seq = .run .dsRead .none [.rbDrive, .rdPoll] ∧
      Status.busy u.status = true ∧ Status.done u.status = false ∧ u.temp = s.temp ∧ u.data = s.data ∧
      u.trace = s.trace ++ (traceReset s.params false ++ traceWriteByte s.params 0xCC#8 ++
        traceWriteByte s.params 0x44#8 ++ traceBusyPolls s.params k)

/-- `DS_READ_BOUNDED` (R92, R93) when the first bus reset sees no presence: nothing follows, `BUS_ABSENT`, `TEMP`
stays. -/
def Obligations.DsReadBoundedWithoutDeviceEndsAtOnce : Prop :=
  ∀ (s : State) (limit : Half), Quiet s → limit ≠ 0 → s.levelAt 0 = true → ∃ t u, exec (.dsreadb limit) s = .next t ∧
    Accepted s t .dsReadBounded (.limit limit) (0x00000009#32 ||| (limit.zeroExtend 32 <<< 16))
      [.rstDrive, .scTest, .rnTest] ∧ Reaches t u ∧
    Finished s u .dsReadBounded (0x00000009#32 ||| (limit.zeroExtend 32 <<< 16)) .busAbsent (traceReset s.params true)
      1 2 (nominalReset s.params true) ∧
    Status.presence u.status = false ∧ u.data = s.data ∧ u.temp = s.temp ∧ u.lsb = s.lsb ∧ u.msb = s.msb ∧
    u.polln = s.polln

/-- `DS_READ_BOUNDED` (R92, R93) with a device that is done within the limit: as `DS_READ`; a 1 on the last allowed slot
is success. -/
def Obligations.DsReadBoundedCompletesWithinTheLimit : Prop :=
  ∀ (s : State) (limit : Half) (k : Nat), Quiet s → k < limit.toNat → s.levelAt 0 = false →
    (∀ j < k, s.levelAt (1 + j) = false) → s.levelAt (1 + k) = true → ∃ t u, exec (.dsreadb limit) s = .next t ∧
    Accepted s t .dsReadBounded (.limit limit) (0x00000009#32 ||| (limit.zeroExtend 32 <<< 16))
      [.rstDrive, .scTest, .rnTest] ∧ Reaches t u ∧
    (if s.levelAt (2 + k) then
      Finished s u .dsReadBounded (0x00000009#32 ||| (limit.zeroExtend 32 <<< 16)) .busAbsent
        (traceReset s.params false ++ traceWriteByte s.params 0xCC#8 ++ traceWriteByte s.params 0x44#8 ++
          traceBusyPolls s.params k ++ traceReadBit s.params true ++ traceReset s.params true) (3 + k)
        (51 + 3 * (k + 1) + 2)
        (nominalReset s.params false + 16 * nominalWriteBit s.params + (k + 1) * nominalReadBit s.params +
          nominalReset s.params true) ∧
      Status.presence u.status = false ∧ u.temp = s.temp ∧ u.lsb = s.lsb ∧ u.msb = s.msb
    else
      Finished s u .dsReadBounded (0x00000009#32 ||| (limit.zeroExtend 32 <<< 16)) .ok
        (traceReset s.params false ++ traceWriteByte s.params 0xCC#8 ++ traceWriteByte s.params 0x44#8 ++
          traceBusyPolls s.params k ++ traceReadBit s.params true ++
          (traceReset s.params false ++ traceWriteByte s.params 0xCC#8 ++ traceWriteByte s.params 0xBE#8 ++
            traceReadByte s.params (s.byteAt (3 + k)) ++ traceReadByte s.params (s.byteAt (11 + k)))) (19 + k)
        (51 + 3 * (k + 1) + 99)
        (nominalReset s.params false + 16 * nominalWriteBit s.params + (k + 1) * nominalReadBit s.params +
          (nominalReset s.params false + 16 * nominalWriteBit s.params + 16 * nominalReadBit s.params)) ∧
      Status.presence u.status = true ∧ u.temp = (s.byteAt (11 + k) ++ s.byteAt (3 + k)).signExtend 32 ∧
      u.lsb = s.byteAt (3 + k) ∧ u.msb = s.byteAt (11 + k)) ∧
    u.data = s.data ∧ u.polln = k + 1

/-- `DS_READ_BOUNDED` (R92, R93, R101) when `limit` polls all sample 0: `TIMEOUT`, `PRESENCE` = 1, `TEMP` kept, and no
further bus activity. -/
def Obligations.DsReadBoundedTimesOut : Prop :=
  ∀ (s : State) (limit : Half), Quiet s → limit ≠ 0 → s.levelAt 0 = false →
    (∀ j < limit.toNat, s.levelAt (1 + j) = false) → ∃ t u, exec (.dsreadb limit) s = .next t ∧
    Accepted s t .dsReadBounded (.limit limit) (0x00000009#32 ||| (limit.zeroExtend 32 <<< 16))
      [.rstDrive, .scTest, .rnTest] ∧ Reaches t u ∧
    Finished s u .dsReadBounded (0x00000009#32 ||| (limit.zeroExtend 32 <<< 16)) .timeout
      (traceReset s.params false ++ traceWriteByte s.params 0xCC#8 ++ traceWriteByte s.params 0x44#8 ++
        traceBusyPolls s.params limit.toNat) (1 + limit.toNat) (51 + 3 * limit.toNat)
      (nominalReset s.params false + 16 * nominalWriteBit s.params + limit.toNat * nominalReadBit s.params) ∧
    Status.presence u.status = true ∧ u.data = s.data ∧ u.temp = s.temp ∧ u.lsb = s.lsb ∧ u.msb = s.msb ∧
    u.polln = limit.toNat

/-- Model's choice (log entry 12) beside R59 and R83 to R85: in a running operation each wire command byte is loaded into
`SHIFT` as a call of `ow_write_byte`, everything else staying, and, undisturbed, goes out in eight write slots, bit 0
first, before the procedure goes on after it: at the next point, or past a `return OK`, which sets the result. -/
def Obligations.WireCommandsSendTheirByte : Prop :=
  ∀ (s : State) (i : Instr) (v : Byte) (op : Op) (o : Operand) (ps : List Point),
    (i, v) ∈ [(Instr.skipRom, 0xCC#8), (.startConv, 0x44#8), (.readScratchpad, 0xBE#8)] → s.seq = .run op o ps →
    exec i s = .next { s with shift := v, seq := .run op o (.wyInit :: afterWireStack ps) } ∧
    (s.turns = [] → s.timer = 0 →
      ∃ u, Reaches { s with shift := v, seq := .run op o (.wyInit :: afterWireStack ps) } u ∧
        u.seq = .run op o (resume op (afterWireStack ps)) ∧ u.trace = s.trace ++ traceWriteByte s.params v ∧
        u.lineOut = .rel ∧ u.timer = 0 ∧ DrewLevels s u 0 ∧ Lasted s u (8 * nominalWriteBit s.params) 24 ∧ u.cmd = s.cmd ∧
        u.status = s.status ∧ u.data = s.data ∧ u.temp = s.temp ∧ u.lsb = s.lsb ∧ u.msb = s.msb ∧ u.polln = s.polln ∧
        u.pres = s.pres ∧ u.ret = returnedResult (afterWireStack ps) s.ret ∧ u.sbit = s.sbit ∧
        u.params = s.params ∧ u.turns = s.turns ∧ u.resets = s.resets ∧ u.reads = s.reads)

/-- Model's choice (log entry 12): with no operation running a wire command byte is sent as the host sends it, by
`OW_WRITE_BYTE` (the pseudo-instructions of R62). -/
def Obligations.WireCommandsOfAnIdleBlockAreWriteByte : Prop :=
  ∀ (s : State) (i : Instr) (v : Byte),
    (i, v) ∈ [(Instr.skipRom, 0xCC#8), (.startConv, 0x44#8), (.readScratchpad, 0xBE#8)] → s.seq = .idle →
    exec i s = exec (.owwbyte v) s

/-- `LIMIT = 0` is illegal (R58, R102): the word 0x00000009 puts nothing on the bus and completes at once with `ILLEGAL`.
Model's choice (log entry 19): that `exec` of the ill-formed term `dsreadb 0` is the handling of that word. -/
def Obligations.ZeroLimitCompletesIllegal : Prop :=
  ∀ s : State, Status.busy s.status = false → ∃ t, exec (.dsreadb 0) s = .next t ∧
    t = { s with cmd := 0x00000009#32, status := t.status, trace := s.trace ++ [.done none .illegal] } ∧
    Status.busy t.status = false ∧ Status.done t.status = true ∧ Status.result t.status = .illegal ∧
    Status.presence t.status = Status.presence s.status ∧ Status.overrun t.status = Status.overrun s.status

/-- R102: an illegal word written to an idle block is accepted and completed in the same step: `CMD` holds it, `BUSY`
stays 0, `DONE` is 1, `RESULT` is `ILLEGAL`; `PRESENCE`, `DATA`, `TEMP`, the line and the sequencer stay. -/
def Obligations.IllegalWordCompletesAtAcceptance : Prop :=
  ∀ (s : State) (ts : List Turn) (w : Word) (e : DecodeError), s.turns = .host (.write s.params.base 4 w) :: ts →
    decodeCommand w = .error e → Status.busy s.status = false → ∃ t, step s = .next t ∧
    t = { s with turns := ts, cmd := w, status := t.status, trace := s.trace ++ [.done none .illegal] } ∧
    Status.busy t.status = false ∧ Status.done t.status = true ∧ Status.result t.status = .illegal ∧
    Status.presence t.status = Status.presence s.status ∧ Status.overrun t.status = Status.overrun s.status

/-- R103: any word, legal or not, written to `CMD` while the block is busy is discarded: `OVERRUN` is set and nothing
else changes. -/
def Obligations.CommandWhileBusyIsOverrun : Prop :=
  ∀ (s : State) (ts : List Turn) (w : Word), s.turns = .host (.write s.params.base 4 w) :: ts →
    Status.busy s.status = true → ∃ t, step s = .next t ∧ t = { s with turns := ts, status := t.status } ∧
    Status.overrun t.status = true ∧ Status.busy t.status = true ∧ Status.done t.status = Status.done s.status ∧
    Status.result t.status = Status.result s.status ∧ Status.presence t.status = Status.presence s.status

/-! ## The host window -/

/-- R36 and R38: a 32-bit read at offset 0x00, 0x04, 0x08 or 0x0C returns `CMD`, the fields of `STATUS` with the
reserved bits 0, `DATA[7:0]`, or the sign extension of `TEMP[15:0]`, and changes nothing. -/
def Obligations.HostReadReturnsTheRegister : Prop :=
  ∀ (s : State) (ts : List Turn) (off : Nat) (v : Word), s.turns = .host (.read (s.params.base + off) 4) :: ts →
    (off, v) ∈ [(0x00, s.cmd), (0x04, s.status &&& 0x0000003F#32), (0x08, s.data &&& 0x000000FF#32),
      (0x0C, (s.temp.extractLsb' 0 16).signExtend 32)] →
    step s = .next { s with turns := ts, reads := s.reads ++ [v] }

/-- R39 for the three registers whose write starts nothing: a write to `STATUS` with bit 5 = 1 clears `OVERRUN`, with
bit 5 = 0 it changes nothing, and writes to `DATA` and `TEMP` change nothing. -/
def Obligations.HostWritesHaveNoOtherEffect : Prop :=
  ∀ (s : State) (ts : List Turn) (off : Nat) (v : Word), s.turns = .host (.write (s.params.base + off) 4 v) :: ts →
    (off = 0x08 ∨ off = 0x0C → step s = .next { s with turns := ts }) ∧
    (off = 0x04 → v.getLsbD 5 = false → step s = .next { s with turns := ts }) ∧
    (off = 0x04 → v.getLsbD 5 = true → ∃ t, step s = .next t ∧ t = { s with turns := ts, status := t.status } ∧
      Status.overrun t.status = false ∧ Status.busy t.status = Status.busy s.status ∧
      Status.done t.status = Status.done s.status ∧ Status.result t.status = Status.result s.status ∧
      Status.presence t.status = Status.presence s.status)

/-- R37: an access that is not 32 bits wide at offset 0, 4, 8 or 12 of the window is refused. -/
def Obligations.OtherAccessesAreRefused : Prop :=
  ∀ (s : State) (ts : List Turn) (addr width : Nat) (v : Word),
    (s.turns = .host (.read addr width) :: ts ∨ s.turns = .host (.write addr width v) :: ts) →
    (width ≠ 4 ∨ (addr ≠ s.params.base ∧ addr ≠ s.params.base + 4 ∧ addr ≠ s.params.base + 8 ∧
      addr ≠ s.params.base + 12)) →
    step s = .refused .notAnAccess

/-- The host's `wait` (R61): it reads `STATUS` each time and is over only when `BUSY` is 0; while `BUSY` is 1 the block
takes a step before the next poll (DESIGN CHOICE, log entry 15). -/
def Obligations.WaitEndsOnlyWhenNotBusy : Prop :=
  ∀ (s : State) (ts : List Turn), s.turns = .wait :: ts →
    step s = .next { s with
      turns := if Status.busy s.status then .block :: .wait :: ts else ts,
      reads := s.reads ++ [s.status &&& 0x0000003F#32] }

/-! ## The primitives -/

/-- R64, R65, R66: what `DriveLow()`, `Release()` and `SetLine(b)` do to the line and the trace, and to nothing else. -/
def Obligations.LinePrimitivesWriteOnlyTheLine : Prop :=
  ∀ (s : State) (b : Bit),
    s.driveLow = { s with lineOut := .low, trace := s.trace ++ [.low] } ∧
    s.release = { s with lineOut := .rel, trace := s.trace ++ [.rel] } ∧
    s.setLine b = { s with
      lineOut := if b = false then .low else if s.params.write1Drive = .release then .rel else .high,
      trace := s.trace ++ [.set b] }

/-- R20, R67, R71, R77: at the two points that sample, with the line released, the level drawn is recorded and kept and
the sequencer goes on; with the line not released the machine faults. Model's choice: that the level comes from the list
`levels` with its counter `samples` (log entry 3), that the assignment `s <- Sample()` or `v <- Sample()` falls in the
primitive's own step (log entry 6), and that its variable has its home in `sbit` (log entry 7). -/
def Obligations.SampleNeedsTheLineReleased : Prop :=
  ∀ (s : State) (op : Op) (o : Operand) (p q : Point) (ps : List Point),
    (p, q) ∈ [(Point.rstSample, Point.rstTest), (.rbSample, .rbPost)] →
    (s.lineOut = .rel → stepPoint op o p ps s = .next { s with
      seq := .run op o (q :: ps), sbit := s.levelAt 0, trace := s.trace ++ [.sample (s.levelAt 0)],
      levels := s.levels.tail, samples := s.samples + 1 }) ∧
    (s.lineOut ≠ .rel → stepPoint op o p ps s = .fault .sampleNotReleased)

/-- R7, R22, R68, R70: a delay of `n` µs is one step that loads `timer` with some `d`, `n ≤ d ≤ n + DELAY_SLACK_US`, and
ends with `timer` 0, `d` µs later, one event `WAIT(n)` recorded and the line as it was; every such `d` occurs; and each
delay of the operation rules is this step for its parameter of R6. Model's choice: that the actual length comes from the
list `excess` with its counter `delays` (log entry 4), that the time passed is summed in `elapsed` (log entry 14), and
that a delay of 0 µs is such a step too (log entry 5). -/
def Obligations.DelayLastsWithinTheSlack : Prop :=
  ∀ s : State,
    (∀ (n : Nat) (next : Seq),
      (∃ d, n ≤ d ∧ d ≤ n + s.params.delaySlackUs ∧ (s.loadTimer n).timer = d ∧
        s.delay n next = { s with
          seq := next, timer := 0, excess := s.excess.tail, delays := s.delays + 1, trace := s.trace ++ [.wait n],
          elapsed := s.elapsed + d }) ∧
      (∀ d, n ≤ d → d ≤ n + s.params.delaySlackUs →
        ({ s with excess := [d - n] }.delay n next).elapsed = s.elapsed + d)) ∧
    (∀ (op : Op) (o : Operand) (p : Point) (n : Nat) (ps qs : List Point),
      (p, n, qs) ∈ [(Point.rstLow, s.params.tRstLow, Point.rstRel :: ps), (.rstPds, s.params.tRstPds, .rstSample :: ps),
        (.rstHold, s.params.tRstHold, .rstPresent :: ps), (.wbLow, s.params.tWLow, .wbSet :: ps),
        (.wbHold, s.params.tWHold, .wbRel :: ps), (.wbRec, s.params.tWRec, resume op ps),
        (.rbLow, s.params.tRLow, .rbRel :: ps), (.rbPre, s.params.tRPre, .rbSample :: ps),
        (.rbPost, s.params.tRPost, resume op ps)] →
      stepPoint op o p ps s = .next (s.delay n (.run op o qs)))

/-- R94: the sign extension of `MSB : LSB` reads, as a signed number, 256 times the signed `MSB` plus the `LSB`, and the
host's temperature is that number over `TEMP_SCALE`. -/
def Obligations.TemperatureIsTheSignedPair : Prop :=
  ∀ (msb lsb : Byte) (scale : Config.TempScale),
    (sext32Half (rawTemperature msb lsb)).toInt = 256 * msb.toInt + lsb.toNat ∧
    celsius scale (sext32Half (rawTemperature msb lsb)) =
      ((256 * msb.toInt + lsb.toNat : Int) : Rat) / (if scale = .ds18b20 then 16 else 2)

/-! ## The invariant -/

/-- The reset state satisfies the invariant. -/
def Obligations.ResetSatisfiesTheInvariant : Prop := Inv State.reset

/-- Every step from a state that satisfies the invariant, whoever moves, leads to one that does. -/
def Obligations.StepKeepsTheInvariant : Prop := ∀ s t : State, Inv s → step s = .next t → Inv t

/-- R67: no run reaches `Sample()` with the line not released: from a state that satisfies the invariant no step
faults. -/
def Obligations.NoStepFaults : Prop := ∀ (s : State) (f : Fault), Inv s → step s ≠ .fault f

/-- From a state that satisfies the invariant the machine stops only for an access R37 refuses: whenever the next turn is
not such an access, there is a next state. -/
def Obligations.StepStopsOnlyForForeignAccesses : Prop :=
  ∀ s : State, Inv s →
    (∀ addr width ts, s.turns = .host (.read addr width) :: ts →
      width = 4 ∧ addr ∈ [s.params.base, s.params.base + 4, s.params.base + 8, s.params.base + 12]) →
    (∀ addr width v ts, s.turns = .host (.write addr width v) :: ts →
      width = 4 ∧ addr ∈ [s.params.base, s.params.base + 4, s.params.base + 8, s.params.base + 12]) →
    ∃ t, step s = .next t

/-- R20: the stack of points is never deeper than four. -/
def Obligations.StackHoldsAtMostFourPoints : Prop :=
  ∀ (s : State) (op : Op) (o : Operand) (ps : List Point), Inv s → s.seq = .run op o ps → ps.length ≤ 4

/-- R82, R52: whatever step makes the block idle, the line is released and no delay runs. -/
def Obligations.LineIsReleasedWheneverIdle : Prop :=
  ∀ s t : State, Inv s → step s = .next t → t.seq = .idle → t.lineOut = .rel ∧ t.timer = 0

/-- R100, R101: a completed operation reports exactly one kind: `BUS_ABSENT` with `PRESENCE` = 0, `TIMEOUT` only from
`DS_READ_BOUNDED` and with `PRESENCE` = 1, never `ILLEGAL`. Model's choice: that the block moves when no turn is listed
(log entry 2), and that the completion is the step after the condition of the command rule (log entries 20 and 24). -/
def Obligations.CompletionReportsOneKind : Prop :=
  ∀ (s t : State) (op : Op) (held : Bool) (ts : List Turn), Inv s → Completing s op held →
    (s.turns = .block :: ts ∨ s.turns = []) → step s = .next t →
    t.seq = .idle ∧ Status.busy t.status = false ∧ Status.done t.status = true ∧ Status.result t.status ≠ .illegal ∧
    (Status.result t.status = .busAbsent → Status.presence t.status = false) ∧
    (Status.result t.status = .timeout → op = .dsReadBounded ∧ Status.presence t.status = true) ∧
    t.trace = s.trace ++ [.done (some op) (Status.result t.status)]

/-! ## Rules about the whole machine -/

/-- R31: `TEMP` changes only at an `OK` completion of `DS_GET_CONVERSION`, `DS_READ` or `DS_READ_BOUNDED`, to the sign
extension of `MSB : LSB`, and at block reset. -/
def Obligations.TempChangesOnlyAtSuccessfulReads : Prop :=
  ∀ s t : State, step s = .next t →
    t.temp = s.temp ∨ (s.turns.head? = some .blockReset ∧ t.temp = 0) ∨
    (∃ op, Completing s op true ∧ op ∈ [Op.dsGetConversion, .dsRead, .dsReadBounded] ∧ t.seq = .idle ∧
      Status.result t.status = .ok ∧ t.temp = (s.msb ++ s.lsb).signExtend 32)

/-- R30: `DATA` changes only at the completion of `OW_READ_BIT` or `OW_READ_BYTE`, to the bit or byte read, and at block
reset. -/
def Obligations.DataChangesOnlyAtTransportReads : Prop :=
  ∀ s t : State, step s = .next t →
    t.data = s.data ∨ (s.turns.head? = some .blockReset ∧ t.data = 0) ∨
    (∃ held, Completing s .owReadBit held ∧ t.seq = .idle ∧ t.data = (if s.sbit then 1#32 else 0#32)) ∨
    (∃ held, Completing s .owReadByte held ∧ t.seq = .idle ∧ t.data = s.shift.zeroExtend 32)

/-- R25, R26: `BUSY` rises only by the acceptance of a legal command word, which clears `DONE`, and falls only by a
completion, which sets `DONE`, or by block reset. -/
def Obligations.BusyChangesOnlyByAcceptanceAndCompletion : Prop :=
  ∀ s t : State, step s = .next t →
    Status.busy t.status = Status.busy s.status ∨
    (Status.busy t.status = true ∧ Status.done t.status = false ∧ ∃ w ts i, decodeCommand w = .ok i ∧
      s.turns = .host (.write s.params.base 4 w) :: ts ∧ t.cmd = w ∧ t.seq ≠ .idle) ∨
    (Status.busy t.status = false ∧ Status.done t.status = true ∧ t.seq = .idle ∧ ∃ op held, Completing s op held ∧
      t.trace = s.trace ++ [.done (some op) (Status.result t.status)]) ∨
    (s.turns.head? = some .blockReset ∧ t.status = 0)

/-- R23, R51: `CMD` changes only by a write to `CMD` while `BUSY` is 0, to the word written, and at block reset: while an
operation runs, its word stays latched. -/
def Obligations.CmdChangesOnlyByAcceptedWrites : Prop :=
  ∀ s t : State, step s = .next t →
    t.cmd = s.cmd ∨ (s.turns.head? = some .blockReset ∧ t.cmd = 0) ∨
    (Status.busy s.status = false ∧ ∃ w ts, s.turns = .host (.write s.params.base 4 w) :: ts ∧ t.cmd = w)

/-- R27, R28, R47: while the block stays busy, `RESULT`, `PRESENCE`, `DATA` and `TEMP` keep the values of earlier
operations: no partial result is ever readable. -/
def Obligations.ResultsHoldWhileBusy : Prop :=
  ∀ s t : State, step s = .next t → Status.busy s.status = true → Status.busy t.status = true →
    Status.result t.status = Status.result s.status ∧ Status.presence t.status = Status.presence s.status ∧
    Status.done t.status = Status.done s.status ∧ t.data = s.data ∧ t.temp = s.temp ∧ t.cmd = s.cmd

/-- R29: `OVERRUN` rises only by a write to `CMD` while `BUSY` is 1 and falls only by a write to `STATUS` with bit 5 = 1
or by block reset. -/
def Obligations.OverrunChangesOnlyByTheHost : Prop :=
  ∀ s t : State, step s = .next t →
    Status.overrun t.status = Status.overrun s.status ∨
    (Status.overrun t.status = true ∧ Status.busy s.status = true ∧
      ∃ w ts, s.turns = .host (.write s.params.base 4 w) :: ts) ∨
    (Status.overrun t.status = false ∧ ∃ v ts, s.turns = .host (.write (s.params.base + 4) 4 v) :: ts ∧
      v.getLsbD 5 = true) ∨
    (Status.overrun t.status = false ∧ s.turns.head? = some .blockReset)

/-- R70, R15: a step appends at most one event to the trace and never takes one back; R20: a step that appends none
touches no line (but for a block reset, R117), samples nothing and takes no time; R117: no step changes a parameter.
Model's choice: that the time passed is summed in `elapsed` (log entry 14) and the samples drawn are counted (log
entry 3). -/
def Obligations.StepAppendsAtMostOneEvent : Prop :=
  ∀ s t : State, step s = .next t →
    t.params = s.params ∧
    ((t.trace = s.trace ∧ t.elapsed = s.elapsed ∧ t.samples = s.samples ∧
        (t.lineOut = s.lineOut ∨ s.turns.head? = some .blockReset)) ∨
      ∃ e, t.trace = s.trace ++ [e])

/-- R17: `line_out` changes only by `DriveLow`, `Release` or `SetLine`, which record their event, and at block reset; it
goes to HIGH only when `WRITE1_DRIVE` is `drive_high`. -/
def Obligations.LineChangesOnlyByPrimitives : Prop :=
  ∀ s t : State, step s = .next t →
    (t.lineOut = s.lineOut ∨ (s.turns.head? = some .blockReset ∧ t.lineOut = .rel) ∨
      (t.lineOut = .low ∧ (t.trace = s.trace ++ [.low] ∨ t.trace = s.trace ++ [.set false])) ∨
      (t.lineOut = .rel ∧ (t.trace = s.trace ++ [.rel] ∨ t.trace = s.trace ++ [.set true])) ∨
      (t.lineOut = .high ∧ t.trace = s.trace ++ [.set true])) ∧
    (t.lineOut = .high → s.lineOut = .high ∨ s.params.write1Drive = .driveHigh)

/-- R46: once a command was accepted, `STATUS` shows `BUSY` or `DONE` until block reset. -/
def Obligations.BusyOrDoneAfterAcceptance : Prop :=
  ∀ s t : State, step s = .next t → s.turns.head? ≠ some .blockReset →
    (Status.busy s.status = true ∨ Status.done s.status = true) →
    Status.busy t.status = true ∨ Status.done t.status = true

/-- R49, R103, R40: while an operation runs, a host access and a block step can be swapped: the two orders end in the
same state, so no access can disturb the operation. -/
def Obligations.HostAccessesCommuteWithARunningOperation : Prop :=
  ∀ (s t : State) (a : HostAccess) (ts : List Turn), Status.busy s.status = true →
    (∀ addr width, a = .read addr width → hostReg s.params.base addr width ≠ none) →
    (∀ addr width v, a = .write addr width v → hostReg s.params.base addr width ≠ none) →
    step { s with turns := [.block] } = .next t → Status.busy t.status = true →
    ∃ u, Host.Core.run Sys2Proof.core 2 { s with turns := .host a :: .block :: ts } = .next u ∧
      Host.Core.run Sys2Proof.core 2 { s with turns := .block :: .host a :: ts } = .next u

/-- R32: an operation's trace depends only on its command, the parameters and the levels it samples: two quiet states
that agree on these, whatever their registers hold and however long their delays take, run the same command in lockstep
with the same events. -/
def Obligations.LeftoverRegistersDoNotMatter : Prop :=
  ∀ (s₁ s₂ t₁ t₂ : State) (i : Instr) (w : Word), Quiet s₁ → Quiet s₂ → s₁.lineOut = .rel → s₂.lineOut = .rel →
    s₁.params = s₂.params → (∀ k, s₁.levelAt k = s₂.levelAt k) → encode i = .command w → i.wellFormed = true →
    exec i s₁ = .next t₁ → exec i s₂ = .next t₂ →
    ∀ n, ∃ u₁ u₂ es, Host.Core.run Sys2Proof.core n t₁ = .next u₁ ∧ Host.Core.run Sys2Proof.core n t₂ = .next u₂ ∧
      u₁.trace = s₁.trace ++ es ∧ u₂.trace = s₂.trace ++ es ∧ u₁.seq = u₂.seq ∧ u₁.lineOut = u₂.lineOut ∧
      u₁.timer = u₂.timer

/-- R20: every operation except `DS_READ` ends after a bounded number of steps: undisturbed, from any point of it in a
state that satisfies the invariant, the block comes to rest, with a completion recorded. -/
def Obligations.OperationsExceptDsReadEnd : Prop :=
  ∀ (s : State) (op : Op) (o : Operand) (ps : List Point), Inv s → s.turns = [] → s.seq = .run op o ps →
    op ≠ .dsRead → ∃ t es r, Reaches s t ∧ t.seq = .idle ∧ Status.busy t.status = false ∧
      Status.done t.status = true ∧ t.trace = s.trace ++ es ++ [.done (some op) r]

/-- The source's first testable property (95_test_vectors.md S1): a byte sent and echoed bit by bit is read back whole,
for every byte. -/
def Obligations.EchoedByteIsReadBack : Prop :=
  ∀ (s : State) (v : Byte), Quiet s → (∀ i < 8, s.levelAt i = v.getLsbD i) →
    ∃ t u t' u', exec (.owwbyte v) s = .next t ∧ Reaches t u ∧
      u.trace = s.trace ++ traceWriteByte s.params v ++ [.done (some .owWriteByte) .ok] ∧
      exec .owrbyte u = .next t' ∧ Reaches t' u' ∧ u'.data = v.zeroExtend 32 ∧
      u'.trace = u.trace ++ traceReadByte s.params v ++ [.done (some .owReadByte) .ok]

/-- R126: the nominal durations at the parameters' defaults, in µs. -/
def Obligations.NominalDurationsAtTheDefaults : Prop :=
  nominalReset .default false = 1000 ∧ nominalReset .default true = 570 ∧ nominalWriteBit .default = 64 ∧
    nominalReadBit .default = 130 ∧ 8 * nominalWriteBit .default = 512 ∧ 8 * nominalReadBit .default = 1040 ∧
    nominalReset .default false + 16 * nominalWriteBit .default = 2024 ∧
    nominalReset .default false + 16 * nominalWriteBit .default + 16 * nominalReadBit .default = 4104

/-! ## Acceptance and completion under any turns -/

/-- R20, R23, R25 to R31, R72 to R93: with any turns listed behind it, a legal command word written to `CMD` while `BUSY`
is 0 is accepted; in the command rule, after its procedure, the assignment of what the procedure returned and the
condition are a block step each, and the next completes the operation: `RESULT`, `PRESENCE`, `DATA` and `TEMP` are what
the operation's rule says, and nothing else changes. Model's choice: that the block moves when no turn is listed (log
entry 2), that the last step makes all the result writes after the condition (log entries 20 and 24), and that `p`, `v`
and `r` have no place of their own beside what was returned (log entry 7). -/
def Obligations.AcceptanceAndCompletionUnderAnyTurns : Prop :=
  ∀ (s : State) (ts : List Turn),
    (∀ (w : Word) (i : Instr), s.turns = .host (.write s.params.base 4 w) :: ts → decodeCommand w = .ok i →
      Status.busy s.status = false → ∃ t op, step s = .next t ∧ i = Op.instr op w ∧
        Accepted { s with turns := ts } t op (operandOf op w) w (Op.start op)) ∧
    (∀ (op : Op) (o : Operand) (ps : List Point), (s.turns = .block :: ts ∨ s.turns = [] ∧ ts = []) →
      (s.seq = .run op o (.cmdTake :: ps) → step s = .next { s with
        turns := ts,
        seq := .run op o ((if op ∈ [Op.owReset, .dsGetConversion, .dsRead, .dsReadBounded] then .cmdTest
          else .cmdDone) :: ps) }) ∧
      (s.seq = .run op o (.cmdTest :: ps) → op ∈ [Op.owReset, .dsGetConversion, .dsRead, .dsReadBounded] →
        step s = .next { s with
          turns := ts,
          seq := .run op o ((if (if op = .owReset then s.pres = true else s.ret = .ok) then .cmdOk
            else .cmdDone) :: ps) })) ∧
    (∀ (op : Op) (held : Bool), Completing s op held → (s.turns = .block :: ts ∨ s.turns = [] ∧ ts = []) →
      ∃ t, step s = .next t ∧
        t = { s with
          turns := ts, seq := .idle, status := t.status, data := t.data, temp := t.temp,
          trace := s.trace ++ [.done (some op) (Status.result t.status)] } ∧
        Status.busy t.status = false ∧ Status.done t.status = true ∧
        Status.overrun t.status = Status.overrun s.status ∧ Status.reservedZero t.status = true ∧
        Status.result t.status =
          (if op = .owReset then (if held then .ok else .busAbsent)
          else if op ∈ [Op.owWriteBit, .owWriteByte, .owReadBit, .owReadByte] then .ok
          else if op ∈ [Op.dsGetConversion, .dsRead, .dsReadBounded] ∧ held then .ok else s.ret) ∧
        Status.presence t.status =
          (if op ∈ [Op.owReset, .dsStartConversion, .dsGetConversion, .dsRead, .dsReadBounded] then s.pres
          else Status.presence s.status) ∧
        t.data = (if op = .owReadBit then (if s.sbit then 1#32 else 0#32)
          else if op = .owReadByte then s.shift.zeroExtend 32 else s.data) ∧
        t.temp = (if op ∈ [Op.dsGetConversion, .dsRead, .dsReadBounded] ∧ held then
          (s.msb ++ s.lsb).signExtend 32 else s.temp))

/-- R26, R27, R28: `RESULT` changes only at the completion of an operation or of an illegal word, `PRESENCE` only at the
completion of one of the five operations that run a bus reset, to the last presence sample, `DONE` rises only at a
completion and falls only by acceptance; and each at block reset. -/
def Obligations.ResultPresenceAndDoneChangeOnlyByTheirRules : Prop :=
  ∀ s t : State, step s = .next t →
    (Status.result t.status = Status.result s.status ∨
      (∃ op held, Completing s op held ∧ t.seq = .idle ∧ t.trace = s.trace ++ [.done (some op) (Status.result t.status)]) ∨
      (Status.result t.status = .illegal ∧ Status.busy s.status = false ∧ ∃ w ts e, decodeCommand w = .error e ∧
        s.turns = .host (.write s.params.base 4 w) :: ts) ∨
      (s.turns.head? = some .blockReset ∧ Status.result t.status = .ok)) ∧
    (Status.presence t.status = Status.presence s.status ∨
      (∃ op held, Completing s op held ∧ op ∈ [Op.owReset, .dsStartConversion, .dsGetConversion, .dsRead, .dsReadBounded] ∧
        t.seq = .idle ∧ Status.presence t.status = s.pres) ∨
      (s.turns.head? = some .blockReset ∧ Status.presence t.status = false)) ∧
    (Status.done t.status = Status.done s.status ∨
      (Status.done t.status = true ∧ t.seq = .idle ∧ ∃ op held r, Completing s op held ∧
        t.trace = s.trace ++ [.done (some op) r]) ∨
      (Status.done t.status = true ∧ Status.busy s.status = false ∧ ∃ w ts e, decodeCommand w = .error e ∧
        s.turns = .host (.write s.params.base 4 w) :: ts) ∨
      (Status.done t.status = false ∧ Status.busy s.status = false ∧ ∃ w ts i, decodeCommand w = .ok i ∧
        s.turns = .host (.write s.params.base 4 w) :: ts) ∨
      (s.turns.head? = some .blockReset ∧ Status.done t.status = false))
end

