-- ==== Sys2Proof/Laws/Flags.lean ====
section
/-! SUPPORT. The fields of a packed `STATUS` word, and what acceptance, completion and the single-field updates do to
each field. -/

namespace Sys2Proof.Machine

@[simp] theorem ofCode_code (r : ResultCode) : ResultCode.ofCode r.code = r := by cases r <;> decide

section pack
variable (b d p o : Bool) (r : ResultCode)

@[simp] theorem busy_pack : Status.busy (Status.pack b d r p o) = b := by
  cases b <;> cases d <;> cases p <;> cases o <;> cases r <;> decide

@[simp] theorem done_pack : Status.done (Status.pack b d r p o) = d := by
  cases b <;> cases d <;> cases p <;> cases o <;> cases r <;> decide

@[simp] theorem result_pack : Status.result (Status.pack b d r p o) = r := by
  cases b <;> cases d <;> cases p <;> cases o <;> cases r <;> decide

@[simp] theorem presence_pack : Status.presence (Status.pack b d r p o) = p := by
  cases b <;> cases d <;> cases p <;> cases o <;> cases r <;> decide

@[simp] theorem overrun_pack : Status.overrun (Status.pack b d r p o) = o := by
  cases b <;> cases d <;> cases p <;> cases o <;> cases r <;> decide

@[simp] theorem reservedZero_pack : Status.reservedZero (Status.pack b d r p o) = true := by
  cases b <;> cases d <;> cases p <;> cases o <;> cases r <;> decide

end pack

section updates
variable (st : Word) (r : ResultCode) (p o : Bool)

@[simp] theorem busy_accept : Status.busy (Status.accept st) = true := by simp [Status.accept]
@[simp] theorem done_accept : Status.done (Status.accept st) = false := by simp [Status.accept]
@[simp] theorem result_accept : Status.result (Status.accept st) = Status.result st := by simp [Status.accept]
@[simp] theorem presence_accept : Status.presence (Status.accept st) = Status.presence st := by simp [Status.accept]
@[simp] theorem overrun_accept : Status.overrun (Status.accept st) = Status.overrun st := by simp [Status.accept]
@[simp] theorem reservedZero_accept : Status.reservedZero (Status.accept st) = true := by simp [Status.accept]

@[simp] theorem busy_complete : Status.busy (Status.complete r st) = false := by simp [Status.complete]
@[simp] theorem done_complete : Status.done (Status.complete r st) = true := by simp [Status.complete]
@[simp] theorem result_complete : Status.result (Status.complete r st) = r := by simp [Status.complete]
@[simp] theorem presence_complete : Status.presence (Status.complete r st) = Status.presence st := by
  simp [Status.complete]
@[simp] theorem overrun_complete : Status.overrun (Status.complete r st) = Status.overrun st := by
  simp [Status.complete]
@[simp] theorem reservedZero_complete : Status.reservedZero (Status.complete r st) = true := by
  simp [Status.complete]

@[simp] theorem busy_setPresence : Status.busy (Status.setPresence p st) = Status.busy st := by
  simp [Status.setPresence]
@[simp] theorem done_setPresence : Status.done (Status.setPresence p st) = Status.done st := by
  simp [Status.setPresence]
@[simp] theorem result_setPresence : Status.result (Status.setPresence p st) = Status.result st := by
  simp [Status.setPresence]
@[simp] theorem presence_setPresence : Status.presence (Status.setPresence p st) = p := by
  simp [Status.setPresence]
@[simp] theorem overrun_setPresence : Status.overrun (Status.setPresence p st) = Status.overrun st := by
  simp [Status.setPresence]
@[simp] theorem reservedZero_setPresence : Status.reservedZero (Status.setPresence p st) = true := by
  simp [Status.setPresence]

@[simp] theorem busy_setOverrun : Status.busy (Status.setOverrun o st) = Status.busy st := by
  simp [Status.setOverrun]
@[simp] theorem done_setOverrun : Status.done (Status.setOverrun o st) = Status.done st := by
  simp [Status.setOverrun]
@[simp] theorem result_setOverrun : Status.result (Status.setOverrun o st) = Status.result st := by
  simp [Status.setOverrun]
@[simp] theorem presence_setOverrun : Status.presence (Status.setOverrun o st) = Status.presence st := by
  simp [Status.setOverrun]
@[simp] theorem overrun_setOverrun : Status.overrun (Status.setOverrun o st) = o := by simp [Status.setOverrun]
@[simp] theorem reservedZero_setOverrun : Status.reservedZero (Status.setOverrun o st) = true := by
  simp [Status.setOverrun]

@[simp] theorem complete_complete (q : ResultCode) :
    Status.complete r (Status.complete q st) = Status.complete r st := by
  simp [Status.complete]

@[simp] theorem setOverrun_setOverrun (q : Bool) :
    Status.setOverrun o (Status.setOverrun q st) = Status.setOverrun o st := by
  simp [Status.setOverrun]

end updates

end Sys2Proof.Machine
end

