-- ==== Sys2Proof/Laws/State.lean ====
section
/-! SUPPORT. One lemma per field per update of the state, each true by definition: what the shared operations write and
what they leave. -/

namespace Sys2Proof.Machine

variable (s : State)

/-! ## driveLow -/

@[simp] theorem driveLow_lineOut : (s.driveLow).lineOut = .low := rfl
@[simp] theorem driveLow_seq : (s.driveLow).seq = s.seq := rfl
@[simp] theorem driveLow_shift : (s.driveLow).shift = s.shift := rfl
@[simp] theorem driveLow_biti : (s.driveLow).biti = s.biti := rfl
@[simp] theorem driveLow_lsb : (s.driveLow).lsb = s.lsb := rfl
@[simp] theorem driveLow_msb : (s.driveLow).msb = s.msb := rfl
@[simp] theorem driveLow_polln : (s.driveLow).polln = s.polln := rfl
@[simp] theorem driveLow_pres : (s.driveLow).pres = s.pres := rfl
@[simp] theorem driveLow_timer : (s.driveLow).timer = s.timer := rfl
@[simp] theorem driveLow_cmd : (s.driveLow).cmd = s.cmd := rfl
@[simp] theorem driveLow_status : (s.driveLow).status = s.status := rfl
@[simp] theorem driveLow_data : (s.driveLow).data = s.data := rfl
@[simp] theorem driveLow_temp : (s.driveLow).temp = s.temp := rfl
@[simp] theorem driveLow_wbit : (s.driveLow).wbit = s.wbit := rfl
@[simp] theorem driveLow_sbit : (s.driveLow).sbit = s.sbit := rfl
@[simp] theorem driveLow_ret : (s.driveLow).ret = s.ret := rfl
@[simp] theorem driveLow_params : (s.driveLow).params = s.params := rfl
@[simp] theorem driveLow_turns : (s.driveLow).turns = s.turns := rfl
@[simp] theorem driveLow_levels : (s.driveLow).levels = s.levels := rfl
@[simp] theorem driveLow_excess : (s.driveLow).excess = s.excess := rfl
@[simp] theorem driveLow_samples : (s.driveLow).samples = s.samples := rfl
@[simp] theorem driveLow_delays : (s.driveLow).delays = s.delays := rfl
@[simp] theorem driveLow_resets : (s.driveLow).resets = s.resets := rfl
@[simp] theorem driveLow_trace : (s.driveLow).trace = s.trace ++ [.low] := rfl
@[simp] theorem driveLow_reads : (s.driveLow).reads = s.reads := rfl
@[simp] theorem driveLow_elapsed : (s.driveLow).elapsed = s.elapsed := rfl

/-! ## release -/

@[simp] theorem release_lineOut : (s.release).lineOut = .rel := rfl
@[simp] theorem release_seq : (s.release).seq = s.seq := rfl
@[simp] theorem release_shift : (s.release).shift = s.shift := rfl
@[simp] theorem release_biti : (s.release).biti = s.biti := rfl
@[simp] theorem release_lsb : (s.release).lsb = s.lsb := rfl
@[simp] theorem release_msb : (s.release).msb = s.msb := rfl
@[simp] theorem release_polln : (s.release).polln = s.polln := rfl
@[simp] theorem release_pres : (s.release).pres = s.pres := rfl
@[simp] theorem release_timer : (s.release).timer = s.timer := rfl
@[simp] theorem release_cmd : (s.release).cmd = s.cmd := rfl
@[simp] theorem release_status : (s.release).status = s.status := rfl
@[simp] theorem release_data : (s.release).data = s.data := rfl
@[simp] theorem release_temp : (s.release).temp = s.temp := rfl
@[simp] theorem release_wbit : (s.release).wbit = s.wbit := rfl
@[simp] theorem release_sbit : (s.release).sbit = s.sbit := rfl
@[simp] theorem release_ret : (s.release).ret = s.ret := rfl
@[simp] theorem release_params : (s.release).params = s.params := rfl
@[simp] theorem release_turns : (s.release).turns = s.turns := rfl
@[simp] theorem release_levels : (s.release).levels = s.levels := rfl
@[simp] theorem release_excess : (s.release).excess = s.excess := rfl
@[simp] theorem release_samples : (s.release).samples = s.samples := rfl
@[simp] theorem release_delays : (s.release).delays = s.delays := rfl
@[simp] theorem release_resets : (s.release).resets = s.resets := rfl
@[simp] theorem release_trace : (s.release).trace = s.trace ++ [.rel] := rfl
@[simp] theorem release_reads : (s.release).reads = s.reads := rfl
@[simp] theorem release_elapsed : (s.release).elapsed = s.elapsed := rfl

/-! ## setLine -/

@[simp] theorem setLine_lineOut (b : Bit) : (s.setLine b).lineOut = setLineOut s.params.write1Drive b := rfl
@[simp] theorem setLine_seq (b : Bit) : (s.setLine b).seq = s.seq := rfl
@[simp] theorem setLine_shift (b : Bit) : (s.setLine b).shift = s.shift := rfl
@[simp] theorem setLine_biti (b : Bit) : (s.setLine b).biti = s.biti := rfl
@[simp] theorem setLine_lsb (b : Bit) : (s.setLine b).lsb = s.lsb := rfl
@[simp] theorem setLine_msb (b : Bit) : (s.setLine b).msb = s.msb := rfl
@[simp] theorem setLine_polln (b : Bit) : (s.setLine b).polln = s.polln := rfl
@[simp] theorem setLine_pres (b : Bit) : (s.setLine b).pres = s.pres := rfl
@[simp] theorem setLine_timer (b : Bit) : (s.setLine b).timer = s.timer := rfl
@[simp] theorem setLine_cmd (b : Bit) : (s.setLine b).cmd = s.cmd := rfl
@[simp] theorem setLine_status (b : Bit) : (s.setLine b).status = s.status := rfl
@[simp] theorem setLine_data (b : Bit) : (s.setLine b).data = s.data := rfl
@[simp] theorem setLine_temp (b : Bit) : (s.setLine b).temp = s.temp := rfl
@[simp] theorem setLine_wbit (b : Bit) : (s.setLine b).wbit = s.wbit := rfl
@[simp] theorem setLine_sbit (b : Bit) : (s.setLine b).sbit = s.sbit := rfl
@[simp] theorem setLine_ret (b : Bit) : (s.setLine b).ret = s.ret := rfl
@[simp] theorem setLine_params (b : Bit) : (s.setLine b).params = s.params := rfl
@[simp] theorem setLine_turns (b : Bit) : (s.setLine b).turns = s.turns := rfl
@[simp] theorem setLine_levels (b : Bit) : (s.setLine b).levels = s.levels := rfl
@[simp] theorem setLine_excess (b : Bit) : (s.setLine b).excess = s.excess := rfl
@[simp] theorem setLine_samples (b : Bit) : (s.setLine b).samples = s.samples := rfl
@[simp] theorem setLine_delays (b : Bit) : (s.setLine b).delays = s.delays := rfl
@[simp] theorem setLine_resets (b : Bit) : (s.setLine b).resets = s.resets := rfl
@[simp] theorem setLine_trace (b : Bit) : (s.setLine b).trace = s.trace ++ [.set b] := rfl
@[simp] theorem setLine_reads (b : Bit) : (s.setLine b).reads = s.reads := rfl
@[simp] theorem setLine_elapsed (b : Bit) : (s.setLine b).elapsed = s.elapsed := rfl

/-! ## takeSample -/

@[simp] theorem takeSample_lineOut : (s.takeSample).lineOut = s.lineOut := rfl
@[simp] theorem takeSample_seq : (s.takeSample).seq = s.seq := rfl
@[simp] theorem takeSample_shift : (s.takeSample).shift = s.shift := rfl
@[simp] theorem takeSample_biti : (s.takeSample).biti = s.biti := rfl
@[simp] theorem takeSample_lsb : (s.takeSample).lsb = s.lsb := rfl
@[simp] theorem takeSample_msb : (s.takeSample).msb = s.msb := rfl
@[simp] theorem takeSample_polln : (s.takeSample).polln = s.polln := rfl
@[simp] theorem takeSample_pres : (s.takeSample).pres = s.pres := rfl
@[simp] theorem takeSample_timer : (s.takeSample).timer = s.timer := rfl
@[simp] theorem takeSample_cmd : (s.takeSample).cmd = s.cmd := rfl
@[simp] theorem takeSample_status : (s.takeSample).status = s.status := rfl
@[simp] theorem takeSample_data : (s.takeSample).data = s.data := rfl
@[simp] theorem takeSample_temp : (s.takeSample).temp = s.temp := rfl
@[simp] theorem takeSample_wbit : (s.takeSample).wbit = s.wbit := rfl
@[simp] theorem takeSample_sbit : (s.takeSample).sbit = s.levelAt 0 := rfl
@[simp] theorem takeSample_ret : (s.takeSample).ret = s.ret := rfl
@[simp] theorem takeSample_params : (s.takeSample).params = s.params := rfl
@[simp] theorem takeSample_turns : (s.takeSample).turns = s.turns := rfl
@[simp] theorem takeSample_levels : (s.takeSample).levels = s.levels.tail := rfl
@[simp] theorem takeSample_excess : (s.takeSample).excess = s.excess := rfl
@[simp] theorem takeSample_samples : (s.takeSample).samples = s.samples + 1 := rfl
@[simp] theorem takeSample_delays : (s.takeSample).delays = s.delays := rfl
@[simp] theorem takeSample_resets : (s.takeSample).resets = s.resets := rfl
@[simp] theorem takeSample_trace : (s.takeSample).trace = s.trace ++ [.sample (s.levelAt 0)] := rfl
@[simp] theorem takeSample_reads : (s.takeSample).reads = s.reads := rfl
@[simp] theorem takeSample_elapsed : (s.takeSample).elapsed = s.elapsed := rfl

/-! ## loadTimer -/

@[simp] theorem loadTimer_lineOut (n : Nat) : (s.loadTimer n).lineOut = s.lineOut := rfl
@[simp] theorem loadTimer_seq (n : Nat) : (s.loadTimer n).seq = s.seq := rfl
@[simp] theorem loadTimer_shift (n : Nat) : (s.loadTimer n).shift = s.shift := rfl
@[simp] theorem loadTimer_biti (n : Nat) : (s.loadTimer n).biti = s.biti := rfl
@[simp] theorem loadTimer_lsb (n : Nat) : (s.loadTimer n).lsb = s.lsb := rfl
@[simp] theorem loadTimer_msb (n : Nat) : (s.loadTimer n).msb = s.msb := rfl
@[simp] theorem loadTimer_polln (n : Nat) : (s.loadTimer n).polln = s.polln := rfl
@[simp] theorem loadTimer_pres (n : Nat) : (s.loadTimer n).pres = s.pres := rfl
@[simp] theorem loadTimer_timer (n : Nat) : (s.loadTimer n).timer = n + s.excessAt 0 := rfl
@[simp] theorem loadTimer_cmd (n : Nat) : (s.loadTimer n).cmd = s.cmd := rfl
@[simp] theorem loadTimer_status (n : Nat) : (s.loadTimer n).status = s.status := rfl
@[simp] theorem loadTimer_data (n : Nat) : (s.loadTimer n).data = s.data := rfl
@[simp] theorem loadTimer_temp (n : Nat) : (s.loadTimer n).temp = s.temp := rfl
@[simp] theorem loadTimer_wbit (n : Nat) : (s.loadTimer n).wbit = s.wbit := rfl
@[simp] theorem loadTimer_sbit (n : Nat) : (s.loadTimer n).sbit = s.sbit := rfl
@[simp] theorem loadTimer_ret (n : Nat) : (s.loadTimer n).ret = s.ret := rfl
@[simp] theorem loadTimer_params (n : Nat) : (s.loadTimer n).params = s.params := rfl
@[simp] theorem loadTimer_turns (n : Nat) : (s.loadTimer n).turns = s.turns := rfl
@[simp] theorem loadTimer_levels (n : Nat) : (s.loadTimer n).levels = s.levels := rfl
@[simp] theorem loadTimer_excess (n : Nat) : (s.loadTimer n).excess = s.excess.tail := rfl
@[simp] theorem loadTimer_samples (n : Nat) : (s.loadTimer n).samples = s.samples := rfl
@[simp] theorem loadTimer_delays (n : Nat) : (s.loadTimer n).delays = s.delays + 1 := rfl
@[simp] theorem loadTimer_resets (n : Nat) : (s.loadTimer n).resets = s.resets := rfl
@[simp] theorem loadTimer_trace (n : Nat) : (s.loadTimer n).trace = s.trace := rfl
@[simp] theorem loadTimer_reads (n : Nat) : (s.loadTimer n).reads = s.reads := rfl
@[simp] theorem loadTimer_elapsed (n : Nat) : (s.loadTimer n).elapsed = s.elapsed := rfl

/-! ## expireTimer -/

@[simp] theorem expireTimer_lineOut (n : Nat) : (s.expireTimer n).lineOut = s.lineOut := rfl
@[simp] theorem expireTimer_seq (n : Nat) : (s.expireTimer n).seq = s.seq := rfl
@[simp] theorem expireTimer_shift (n : Nat) : (s.expireTimer n).shift = s.shift := rfl
@[simp] theorem expireTimer_biti (n : Nat) : (s.expireTimer n).biti = s.biti := rfl
@[simp] theorem expireTimer_lsb (n : Nat) : (s.expireTimer n).lsb = s.lsb := rfl
@[simp] theorem expireTimer_msb (n : Nat) : (s.expireTimer n).msb = s.msb := rfl
@[simp] theorem expireTimer_polln (n : Nat) : (s.expireTimer n).polln = s.polln := rfl
@[simp] theorem expireTimer_pres (n : Nat) : (s.expireTimer n).pres = s.pres := rfl
@[simp] theorem expireTimer_timer (n : Nat) : (s.expireTimer n).timer = 0 := rfl
@[simp] theorem expireTimer_cmd (n : Nat) : (s.expireTimer n).cmd = s.cmd := rfl
@[simp] theorem expireTimer_status (n : Nat) : (s.expireTimer n).status = s.status := rfl
@[simp] theorem expireTimer_data (n : Nat) : (s.expireTimer n).data = s.data := rfl
@[simp] theorem expireTimer_temp (n : Nat) : (s.expireTimer n).temp = s.temp := rfl
@[simp] theorem expireTimer_wbit (n : Nat) : (s.expireTimer n).wbit = s.wbit := rfl
@[simp] theorem expireTimer_sbit (n : Nat) : (s.expireTimer n).sbit = s.sbit := rfl
@[simp] theorem expireTimer_ret (n : Nat) : (s.expireTimer n).ret = s.ret := rfl
@[simp] theorem expireTimer_params (n : Nat) : (s.expireTimer n).params = s.params := rfl
@[simp] theorem expireTimer_turns (n : Nat) : (s.expireTimer n).turns = s.turns := rfl
@[simp] theorem expireTimer_levels (n : Nat) : (s.expireTimer n).levels = s.levels := rfl
@[simp] theorem expireTimer_excess (n : Nat) : (s.expireTimer n).excess = s.excess := rfl
@[simp] theorem expireTimer_samples (n : Nat) : (s.expireTimer n).samples = s.samples := rfl
@[simp] theorem expireTimer_delays (n : Nat) : (s.expireTimer n).delays = s.delays := rfl
@[simp] theorem expireTimer_resets (n : Nat) : (s.expireTimer n).resets = s.resets := rfl
@[simp] theorem expireTimer_trace (n : Nat) : (s.expireTimer n).trace = s.trace ++ [.wait n] := rfl
@[simp] theorem expireTimer_reads (n : Nat) : (s.expireTimer n).reads = s.reads := rfl
@[simp] theorem expireTimer_elapsed (n : Nat) : (s.expireTimer n).elapsed = s.elapsed + s.timer := rfl

/-! ## goto -/

@[simp] theorem goto_lineOut (op : Op) (o : Operand) (p : List Point) : (s.goto op o p).lineOut = s.lineOut := rfl
@[simp] theorem goto_seq (op : Op) (o : Operand) (p : List Point) : (s.goto op o p).seq = .run op o p := rfl
@[simp] theorem goto_shift (op : Op) (o : Operand) (p : List Point) : (s.goto op o p).shift = s.shift := rfl
@[simp] theorem goto_biti (op : Op) (o : Operand) (p : List Point) : (s.goto op o p).biti = s.biti := rfl
@[simp] theorem goto_lsb (op : Op) (o : Operand) (p : List Point) : (s.goto op o p).lsb = s.lsb := rfl
@[simp] theorem goto_msb (op : Op) (o : Operand) (p : List Point) : (s.goto op o p).msb = s.msb := rfl
@[simp] theorem goto_polln (op : Op) (o : Operand) (p : List Point) : (s.goto op o p).polln = s.polln := rfl
@[simp] theorem goto_pres (op : Op) (o : Operand) (p : List Point) : (s.goto op o p).pres = s.pres := rfl
@[simp] theorem goto_timer (op : Op) (o : Operand) (p : List Point) : (s.goto op o p).timer = s.timer := rfl
@[simp] theorem goto_cmd (op : Op) (o : Operand) (p : List Point) : (s.goto op o p).cmd = s.cmd := rfl
@[simp] theorem goto_status (op : Op) (o : Operand) (p : List Point) : (s.goto op o p).status = s.status := rfl
@[simp] theorem goto_data (op : Op) (o : Operand) (p : List Point) : (s.goto op o p).data = s.data := rfl
@[simp] theorem goto_temp (op : Op) (o : Operand) (p : List Point) : (s.goto op o p).temp = s.temp := rfl
@[simp] theorem goto_wbit (op : Op) (o : Operand) (p : List Point) : (s.goto op o p).wbit = s.wbit := rfl
@[simp] theorem goto_sbit (op : Op) (o : Operand) (p : List Point) : (s.goto op o p).sbit = s.sbit := rfl
@[simp] theorem goto_ret (op : Op) (o : Operand) (p : List Point) : (s.goto op o p).ret = s.ret := rfl
@[simp] theorem goto_params (op : Op) (o : Operand) (p : List Point) : (s.goto op o p).params = s.params := rfl
@[simp] theorem goto_turns (op : Op) (o : Operand) (p : List Point) : (s.goto op o p).turns = s.turns := rfl
@[simp] theorem goto_levels (op : Op) (o : Operand) (p : List Point) : (s.goto op o p).levels = s.levels := rfl
@[simp] theorem goto_excess (op : Op) (o : Operand) (p : List Point) : (s.goto op o p).excess = s.excess := rfl
@[simp] theorem goto_samples (op : Op) (o : Operand) (p : List Point) : (s.goto op o p).samples = s.samples := rfl
@[simp] theorem goto_delays (op : Op) (o : Operand) (p : List Point) : (s.goto op o p).delays = s.delays := rfl
@[simp] theorem goto_resets (op : Op) (o : Operand) (p : List Point) : (s.goto op o p).resets = s.resets := rfl
@[simp] theorem goto_trace (op : Op) (o : Operand) (p : List Point) : (s.goto op o p).trace = s.trace := rfl
@[simp] theorem goto_reads (op : Op) (o : Operand) (p : List Point) : (s.goto op o p).reads = s.reads := rfl
@[simp] theorem goto_elapsed (op : Op) (o : Operand) (p : List Point) : (s.goto op o p).elapsed = s.elapsed := rfl

/-! ## returnTo -/

@[simp] theorem returnTo_lineOut (op : Op) (o : Operand) (p : List Point) : (s.returnTo op o p).lineOut = s.lineOut := rfl
@[simp] theorem returnTo_seq (op : Op) (o : Operand) (p : List Point) : (s.returnTo op o p).seq = .run op o (resume op p) := rfl
@[simp] theorem returnTo_shift (op : Op) (o : Operand) (p : List Point) : (s.returnTo op o p).shift = s.shift := rfl
@[simp] theorem returnTo_biti (op : Op) (o : Operand) (p : List Point) : (s.returnTo op o p).biti = s.biti := rfl
@[simp] theorem returnTo_lsb (op : Op) (o : Operand) (p : List Point) : (s.returnTo op o p).lsb = s.lsb := rfl
@[simp] theorem returnTo_msb (op : Op) (o : Operand) (p : List Point) : (s.returnTo op o p).msb = s.msb := rfl
@[simp] theorem returnTo_polln (op : Op) (o : Operand) (p : List Point) : (s.returnTo op o p).polln = s.polln := rfl
@[simp] theorem returnTo_pres (op : Op) (o : Operand) (p : List Point) : (s.returnTo op o p).pres = s.pres := rfl
@[simp] theorem returnTo_timer (op : Op) (o : Operand) (p : List Point) : (s.returnTo op o p).timer = s.timer := rfl
@[simp] theorem returnTo_cmd (op : Op) (o : Operand) (p : List Point) : (s.returnTo op o p).cmd = s.cmd := rfl
@[simp] theorem returnTo_status (op : Op) (o : Operand) (p : List Point) : (s.returnTo op o p).status = s.status := rfl
@[simp] theorem returnTo_data (op : Op) (o : Operand) (p : List Point) : (s.returnTo op o p).data = s.data := rfl
@[simp] theorem returnTo_temp (op : Op) (o : Operand) (p : List Point) : (s.returnTo op o p).temp = s.temp := rfl
@[simp] theorem returnTo_wbit (op : Op) (o : Operand) (p : List Point) : (s.returnTo op o p).wbit = s.wbit := rfl
@[simp] theorem returnTo_sbit (op : Op) (o : Operand) (p : List Point) : (s.returnTo op o p).sbit = s.sbit := rfl
@[simp] theorem returnTo_ret (op : Op) (o : Operand) (p : List Point) : (s.returnTo op o p).ret = returnedResult p s.ret := rfl
@[simp] theorem returnTo_params (op : Op) (o : Operand) (p : List Point) : (s.returnTo op o p).params = s.params := rfl
@[simp] theorem returnTo_turns (op : Op) (o : Operand) (p : List Point) : (s.returnTo op o p).turns = s.turns := rfl
@[simp] theorem returnTo_levels (op : Op) (o : Operand) (p : List Point) : (s.returnTo op o p).levels = s.levels := rfl
@[simp] theorem returnTo_excess (op : Op) (o : Operand) (p : List Point) : (s.returnTo op o p).excess = s.excess := rfl
@[simp] theorem returnTo_samples (op : Op) (o : Operand) (p : List Point) : (s.returnTo op o p).samples = s.samples := rfl
@[simp] theorem returnTo_delays (op : Op) (o : Operand) (p : List Point) : (s.returnTo op o p).delays = s.delays := rfl
@[simp] theorem returnTo_resets (op : Op) (o : Operand) (p : List Point) : (s.returnTo op o p).resets = s.resets := rfl
@[simp] theorem returnTo_trace (op : Op) (o : Operand) (p : List Point) : (s.returnTo op o p).trace = s.trace := rfl
@[simp] theorem returnTo_reads (op : Op) (o : Operand) (p : List Point) : (s.returnTo op o p).reads = s.reads := rfl
@[simp] theorem returnTo_elapsed (op : Op) (o : Operand) (p : List Point) : (s.returnTo op o p).elapsed = s.elapsed := rfl

/-! ## refuseCommand -/

@[simp] theorem refuseCommand_lineOut : (s.refuseCommand).lineOut = s.lineOut := rfl
@[simp] theorem refuseCommand_seq : (s.refuseCommand).seq = s.seq := rfl
@[simp] theorem refuseCommand_shift : (s.refuseCommand).shift = s.shift := rfl
@[simp] theorem refuseCommand_biti : (s.refuseCommand).biti = s.biti := rfl
@[simp] theorem refuseCommand_lsb : (s.refuseCommand).lsb = s.lsb := rfl
@[simp] theorem refuseCommand_msb : (s.refuseCommand).msb = s.msb := rfl
@[simp] theorem refuseCommand_polln : (s.refuseCommand).polln = s.polln := rfl
@[simp] theorem refuseCommand_pres : (s.refuseCommand).pres = s.pres := rfl
@[simp] theorem refuseCommand_timer : (s.refuseCommand).timer = s.timer := rfl
@[simp] theorem refuseCommand_cmd : (s.refuseCommand).cmd = s.cmd := rfl
@[simp] theorem refuseCommand_status : (s.refuseCommand).status = Status.setOverrun true s.status := rfl
@[simp] theorem refuseCommand_data : (s.refuseCommand).data = s.data := rfl
@[simp] theorem refuseCommand_temp : (s.refuseCommand).temp = s.temp := rfl
@[simp] theorem refuseCommand_wbit : (s.refuseCommand).wbit = s.wbit := rfl
@[simp] theorem refuseCommand_sbit : (s.refuseCommand).sbit = s.sbit := rfl
@[simp] theorem refuseCommand_ret : (s.refuseCommand).ret = s.ret := rfl
@[simp] theorem refuseCommand_params : (s.refuseCommand).params = s.params := rfl
@[simp] theorem refuseCommand_turns : (s.refuseCommand).turns = s.turns := rfl
@[simp] theorem refuseCommand_levels : (s.refuseCommand).levels = s.levels := rfl
@[simp] theorem refuseCommand_excess : (s.refuseCommand).excess = s.excess := rfl
@[simp] theorem refuseCommand_samples : (s.refuseCommand).samples = s.samples := rfl
@[simp] theorem refuseCommand_delays : (s.refuseCommand).delays = s.delays := rfl
@[simp] theorem refuseCommand_resets : (s.refuseCommand).resets = s.resets := rfl
@[simp] theorem refuseCommand_trace : (s.refuseCommand).trace = s.trace := rfl
@[simp] theorem refuseCommand_reads : (s.refuseCommand).reads = s.reads := rfl
@[simp] theorem refuseCommand_elapsed : (s.refuseCommand).elapsed = s.elapsed := rfl

/-! ## delay -/

@[simp] theorem delay_lineOut (n : Nat) (q : Seq) : (s.delay n q).lineOut = s.lineOut := rfl
@[simp] theorem delay_seq (n : Nat) (q : Seq) : (s.delay n q).seq = q := rfl
@[simp] theorem delay_shift (n : Nat) (q : Seq) : (s.delay n q).shift = s.shift := rfl
@[simp] theorem delay_biti (n : Nat) (q : Seq) : (s.delay n q).biti = s.biti := rfl
@[simp] theorem delay_lsb (n : Nat) (q : Seq) : (s.delay n q).lsb = s.lsb := rfl
@[simp] theorem delay_msb (n : Nat) (q : Seq) : (s.delay n q).msb = s.msb := rfl
@[simp] theorem delay_polln (n : Nat) (q : Seq) : (s.delay n q).polln = s.polln := rfl
@[simp] theorem delay_pres (n : Nat) (q : Seq) : (s.delay n q).pres = s.pres := rfl
@[simp] theorem delay_timer (n : Nat) (q : Seq) : (s.delay n q).timer = 0 := rfl
@[simp] theorem delay_cmd (n : Nat) (q : Seq) : (s.delay n q).cmd = s.cmd := rfl
@[simp] theorem delay_status (n : Nat) (q : Seq) : (s.delay n q).status = s.status := rfl
@[simp] theorem delay_data (n : Nat) (q : Seq) : (s.delay n q).data = s.data := rfl
@[simp] theorem delay_temp (n : Nat) (q : Seq) : (s.delay n q).temp = s.temp := rfl
@[simp] theorem delay_wbit (n : Nat) (q : Seq) : (s.delay n q).wbit = s.wbit := rfl
@[simp] theorem delay_sbit (n : Nat) (q : Seq) : (s.delay n q).sbit = s.sbit := rfl
@[simp] theorem delay_ret (n : Nat) (q : Seq) : (s.delay n q).ret = s.ret := rfl
@[simp] theorem delay_params (n : Nat) (q : Seq) : (s.delay n q).params = s.params := rfl
@[simp] theorem delay_turns (n : Nat) (q : Seq) : (s.delay n q).turns = s.turns := rfl
@[simp] theorem delay_levels (n : Nat) (q : Seq) : (s.delay n q).levels = s.levels := rfl
@[simp] theorem delay_excess (n : Nat) (q : Seq) : (s.delay n q).excess = s.excess.tail := rfl
@[simp] theorem delay_samples (n : Nat) (q : Seq) : (s.delay n q).samples = s.samples := rfl
@[simp] theorem delay_delays (n : Nat) (q : Seq) : (s.delay n q).delays = s.delays + 1 := rfl
@[simp] theorem delay_resets (n : Nat) (q : Seq) : (s.delay n q).resets = s.resets := rfl
@[simp] theorem delay_trace (n : Nat) (q : Seq) : (s.delay n q).trace = s.trace ++ [.wait n] := rfl
@[simp] theorem delay_reads (n : Nat) (q : Seq) : (s.delay n q).reads = s.reads := rfl
@[simp] theorem delay_elapsed (n : Nat) (q : Seq) : (s.delay n q).elapsed = s.elapsed + (n + s.excessAt 0) := rfl

/-! ## accept -/

@[simp] theorem accept_lineOut (op : Op) (w : Word) : (s.accept op w).lineOut = s.lineOut := rfl
@[simp] theorem accept_seq (op : Op) (w : Word) : (s.accept op w).seq = .run op (operandOf op w) (Op.start op) := rfl
@[simp] theorem accept_shift (op : Op) (w : Word) : (s.accept op w).shift = s.shift := rfl
@[simp] theorem accept_biti (op : Op) (w : Word) : (s.accept op w).biti = s.biti := rfl
@[simp] theorem accept_lsb (op : Op) (w : Word) : (s.accept op w).lsb = s.lsb := rfl
@[simp] theorem accept_msb (op : Op) (w : Word) : (s.accept op w).msb = s.msb := rfl
@[simp] theorem accept_polln (op : Op) (w : Word) : (s.accept op w).polln = s.polln := rfl
@[simp] theorem accept_pres (op : Op) (w : Word) : (s.accept op w).pres = s.pres := rfl
@[simp] theorem accept_timer (op : Op) (w : Word) : (s.accept op w).timer = s.timer := rfl
@[simp] theorem accept_cmd (op : Op) (w : Word) : (s.accept op w).cmd = w := rfl
@[simp] theorem accept_status (op : Op) (w : Word) : (s.accept op w).status = Status.accept s.status := rfl
@[simp] theorem accept_data (op : Op) (w : Word) : (s.accept op w).data = s.data := rfl
@[simp] theorem accept_temp (op : Op) (w : Word) : (s.accept op w).temp = s.temp := rfl
@[simp] theorem accept_wbit (op : Op) (w : Word) : (s.accept op w).wbit = s.wbit := rfl
@[simp] theorem accept_sbit (op : Op) (w : Word) : (s.accept op w).sbit = s.sbit := rfl
@[simp] theorem accept_ret (op : Op) (w : Word) : (s.accept op w).ret = s.ret := rfl
@[simp] theorem accept_params (op : Op) (w : Word) : (s.accept op w).params = s.params := rfl
@[simp] theorem accept_turns (op : Op) (w : Word) : (s.accept op w).turns = s.turns := rfl
@[simp] theorem accept_levels (op : Op) (w : Word) : (s.accept op w).levels = s.levels := rfl
@[simp] theorem accept_excess (op : Op) (w : Word) : (s.accept op w).excess = s.excess := rfl
@[simp] theorem accept_samples (op : Op) (w : Word) : (s.accept op w).samples = s.samples := rfl
@[simp] theorem accept_delays (op : Op) (w : Word) : (s.accept op w).delays = s.delays := rfl
@[simp] theorem accept_resets (op : Op) (w : Word) : (s.accept op w).resets = s.resets := rfl
@[simp] theorem accept_trace (op : Op) (w : Word) : (s.accept op w).trace = s.trace := rfl
@[simp] theorem accept_reads (op : Op) (w : Word) : (s.accept op w).reads = s.reads := rfl
@[simp] theorem accept_elapsed (op : Op) (w : Word) : (s.accept op w).elapsed = s.elapsed := rfl

/-! ## complete -/

@[simp] theorem complete_lineOut (op : Op) (r : ResultCode) : (s.complete op r).lineOut = s.lineOut := rfl
@[simp] theorem complete_seq (op : Op) (r : ResultCode) : (s.complete op r).seq = .idle := rfl
@[simp] theorem complete_shift (op : Op) (r : ResultCode) : (s.complete op r).shift = s.shift := rfl
@[simp] theorem complete_biti (op : Op) (r : ResultCode) : (s.complete op r).biti = s.biti := rfl
@[simp] theorem complete_lsb (op : Op) (r : ResultCode) : (s.complete op r).lsb = s.lsb := rfl
@[simp] theorem complete_msb (op : Op) (r : ResultCode) : (s.complete op r).msb = s.msb := rfl
@[simp] theorem complete_polln (op : Op) (r : ResultCode) : (s.complete op r).polln = s.polln := rfl
@[simp] theorem complete_pres (op : Op) (r : ResultCode) : (s.complete op r).pres = s.pres := rfl
@[simp] theorem complete_timer (op : Op) (r : ResultCode) : (s.complete op r).timer = s.timer := rfl
@[simp] theorem complete_cmd (op : Op) (r : ResultCode) : (s.complete op r).cmd = s.cmd := rfl
@[simp] theorem complete_status (op : Op) (r : ResultCode) : (s.complete op r).status = Status.complete r s.status := rfl
@[simp] theorem complete_data (op : Op) (r : ResultCode) : (s.complete op r).data = s.data := rfl
@[simp] theorem complete_temp (op : Op) (r : ResultCode) : (s.complete op r).temp = s.temp := rfl
@[simp] theorem complete_wbit (op : Op) (r : ResultCode) : (s.complete op r).wbit = s.wbit := rfl
@[simp] theorem complete_sbit (op : Op) (r : ResultCode) : (s.complete op r).sbit = s.sbit := rfl
@[simp] theorem complete_ret (op : Op) (r : ResultCode) : (s.complete op r).ret = s.ret := rfl
@[simp] theorem complete_params (op : Op) (r : ResultCode) : (s.complete op r).params = s.params := rfl
@[simp] theorem complete_turns (op : Op) (r : ResultCode) : (s.complete op r).turns = s.turns := rfl
@[simp] theorem complete_levels (op : Op) (r : ResultCode) : (s.complete op r).levels = s.levels := rfl
@[simp] theorem complete_excess (op : Op) (r : ResultCode) : (s.complete op r).excess = s.excess := rfl
@[simp] theorem complete_samples (op : Op) (r : ResultCode) : (s.complete op r).samples = s.samples := rfl
@[simp] theorem complete_delays (op : Op) (r : ResultCode) : (s.complete op r).delays = s.delays := rfl
@[simp] theorem complete_resets (op : Op) (r : ResultCode) : (s.complete op r).resets = s.resets := rfl
@[simp] theorem complete_trace (op : Op) (r : ResultCode) : (s.complete op r).trace = s.trace ++ [.done (some op) r] := rfl
@[simp] theorem complete_reads (op : Op) (r : ResultCode) : (s.complete op r).reads = s.reads := rfl
@[simp] theorem complete_elapsed (op : Op) (r : ResultCode) : (s.complete op r).elapsed = s.elapsed := rfl

/-! ## reportPresence -/

@[simp] theorem reportPresence_lineOut : (s.reportPresence).lineOut = s.lineOut := rfl
@[simp] theorem reportPresence_seq : (s.reportPresence).seq = s.seq := rfl
@[simp] theorem reportPresence_shift : (s.reportPresence).shift = s.shift := rfl
@[simp] theorem reportPresence_biti : (s.reportPresence).biti = s.biti := rfl
@[simp] theorem reportPresence_lsb : (s.reportPresence).lsb = s.lsb := rfl
@[simp] theorem reportPresence_msb : (s.reportPresence).msb = s.msb := rfl
@[simp] theorem reportPresence_polln : (s.reportPresence).polln = s.polln := rfl
@[simp] theorem reportPresence_pres : (s.reportPresence).pres = s.pres := rfl
@[simp] theorem reportPresence_timer : (s.reportPresence).timer = s.timer := rfl
@[simp] theorem reportPresence_cmd : (s.reportPresence).cmd = s.cmd := rfl
@[simp] theorem reportPresence_status : (s.reportPresence).status = Status.setPresence s.pres s.status := rfl
@[simp] theorem reportPresence_data : (s.reportPresence).data = s.data := rfl
@[simp] theorem reportPresence_temp : (s.reportPresence).temp = s.temp := rfl
@[simp] theorem reportPresence_wbit : (s.reportPresence).wbit = s.wbit := rfl
@[simp] theorem reportPresence_sbit : (s.reportPresence).sbit = s.sbit := rfl
@[simp] theorem reportPresence_ret : (s.reportPresence).ret = s.ret := rfl
@[simp] theorem reportPresence_params : (s.reportPresence).params = s.params := rfl
@[simp] theorem reportPresence_turns : (s.reportPresence).turns = s.turns := rfl
@[simp] theorem reportPresence_levels : (s.reportPresence).levels = s.levels := rfl
@[simp] theorem reportPresence_excess : (s.reportPresence).excess = s.excess := rfl
@[simp] theorem reportPresence_samples : (s.reportPresence).samples = s.samples := rfl
@[simp] theorem reportPresence_delays : (s.reportPresence).delays = s.delays := rfl
@[simp] theorem reportPresence_resets : (s.reportPresence).resets = s.resets := rfl
@[simp] theorem reportPresence_trace : (s.reportPresence).trace = s.trace := rfl
@[simp] theorem reportPresence_reads : (s.reportPresence).reads = s.reads := rfl
@[simp] theorem reportPresence_elapsed : (s.reportPresence).elapsed = s.elapsed := rfl

/-! ## setData -/

@[simp] theorem setData_lineOut (w : Word) : (s.setData w).lineOut = s.lineOut := rfl
@[simp] theorem setData_seq (w : Word) : (s.setData w).seq = s.seq := rfl
@[simp] theorem setData_shift (w : Word) : (s.setData w).shift = s.shift := rfl
@[simp] theorem setData_biti (w : Word) : (s.setData w).biti = s.biti := rfl
@[simp] theorem setData_lsb (w : Word) : (s.setData w).lsb = s.lsb := rfl
@[simp] theorem setData_msb (w : Word) : (s.setData w).msb = s.msb := rfl
@[simp] theorem setData_polln (w : Word) : (s.setData w).polln = s.polln := rfl
@[simp] theorem setData_pres (w : Word) : (s.setData w).pres = s.pres := rfl
@[simp] theorem setData_timer (w : Word) : (s.setData w).timer = s.timer := rfl
@[simp] theorem setData_cmd (w : Word) : (s.setData w).cmd = s.cmd := rfl
@[simp] theorem setData_status (w : Word) : (s.setData w).status = s.status := rfl
@[simp] theorem setData_data (w : Word) : (s.setData w).data = w := rfl
@[simp] theorem setData_temp (w : Word) : (s.setData w).temp = s.temp := rfl
@[simp] theorem setData_wbit (w : Word) : (s.setData w).wbit = s.wbit := rfl
@[simp] theorem setData_sbit (w : Word) : (s.setData w).sbit = s.sbit := rfl
@[simp] theorem setData_ret (w : Word) : (s.setData w).ret = s.ret := rfl
@[simp] theorem setData_params (w : Word) : (s.setData w).params = s.params := rfl
@[simp] theorem setData_turns (w : Word) : (s.setData w).turns = s.turns := rfl
@[simp] theorem setData_levels (w : Word) : (s.setData w).levels = s.levels := rfl
@[simp] theorem setData_excess (w : Word) : (s.setData w).excess = s.excess := rfl
@[simp] theorem setData_samples (w : Word) : (s.setData w).samples = s.samples := rfl
@[simp] theorem setData_delays (w : Word) : (s.setData w).delays = s.delays := rfl
@[simp] theorem setData_resets (w : Word) : (s.setData w).resets = s.resets := rfl
@[simp] theorem setData_trace (w : Word) : (s.setData w).trace = s.trace := rfl
@[simp] theorem setData_reads (w : Word) : (s.setData w).reads = s.reads := rfl
@[simp] theorem setData_elapsed (w : Word) : (s.setData w).elapsed = s.elapsed := rfl

/-! ## setTemp -/

@[simp] theorem setTemp_lineOut : (s.setTemp).lineOut = s.lineOut := rfl
@[simp] theorem setTemp_seq : (s.setTemp).seq = s.seq := rfl
@[simp] theorem setTemp_shift : (s.setTemp).shift = s.shift := rfl
@[simp] theorem setTemp_biti : (s.setTemp).biti = s.biti := rfl
@[simp] theorem setTemp_lsb : (s.setTemp).lsb = s.lsb := rfl
@[simp] theorem setTemp_msb : (s.setTemp).msb = s.msb := rfl
@[simp] theorem setTemp_polln : (s.setTemp).polln = s.polln := rfl
@[simp] theorem setTemp_pres : (s.setTemp).pres = s.pres := rfl
@[simp] theorem setTemp_timer : (s.setTemp).timer = s.timer := rfl
@[simp] theorem setTemp_cmd : (s.setTemp).cmd = s.cmd := rfl
@[simp] theorem setTemp_status : (s.setTemp).status = s.status := rfl
@[simp] theorem setTemp_data : (s.setTemp).data = s.data := rfl
@[simp] theorem setTemp_temp : (s.setTemp).temp = sext32Half (rawTemperature s.msb s.lsb) := rfl
@[simp] theorem setTemp_wbit : (s.setTemp).wbit = s.wbit := rfl
@[simp] theorem setTemp_sbit : (s.setTemp).sbit = s.sbit := rfl
@[simp] theorem setTemp_ret : (s.setTemp).ret = s.ret := rfl
@[simp] theorem setTemp_params : (s.setTemp).params = s.params := rfl
@[simp] theorem setTemp_turns : (s.setTemp).turns = s.turns := rfl
@[simp] theorem setTemp_levels : (s.setTemp).levels = s.levels := rfl
@[simp] theorem setTemp_excess : (s.setTemp).excess = s.excess := rfl
@[simp] theorem setTemp_samples : (s.setTemp).samples = s.samples := rfl
@[simp] theorem setTemp_delays : (s.setTemp).delays = s.delays := rfl
@[simp] theorem setTemp_resets : (s.setTemp).resets = s.resets := rfl
@[simp] theorem setTemp_trace : (s.setTemp).trace = s.trace := rfl
@[simp] theorem setTemp_reads : (s.setTemp).reads = s.reads := rfl
@[simp] theorem setTemp_elapsed : (s.setTemp).elapsed = s.elapsed := rfl

/-! ## hostRead -/

@[simp] theorem hostRead_lineOut (r : HostReg) : (s.hostRead r).lineOut = s.lineOut := rfl
@[simp] theorem hostRead_seq (r : HostReg) : (s.hostRead r).seq = s.seq := rfl
@[simp] theorem hostRead_shift (r : HostReg) : (s.hostRead r).shift = s.shift := rfl
@[simp] theorem hostRead_biti (r : HostReg) : (s.hostRead r).biti = s.biti := rfl
@[simp] theorem hostRead_lsb (r : HostReg) : (s.hostRead r).lsb = s.lsb := rfl
@[simp] theorem hostRead_msb (r : HostReg) : (s.hostRead r).msb = s.msb := rfl
@[simp] theorem hostRead_polln (r : HostReg) : (s.hostRead r).polln = s.polln := rfl
@[simp] theorem hostRead_pres (r : HostReg) : (s.hostRead r).pres = s.pres := rfl
@[simp] theorem hostRead_timer (r : HostReg) : (s.hostRead r).timer = s.timer := rfl
@[simp] theorem hostRead_cmd (r : HostReg) : (s.hostRead r).cmd = s.cmd := rfl
@[simp] theorem hostRead_status (r : HostReg) : (s.hostRead r).status = s.status := rfl
@[simp] theorem hostRead_data (r : HostReg) : (s.hostRead r).data = s.data := rfl
@[simp] theorem hostRead_temp (r : HostReg) : (s.hostRead r).temp = s.temp := rfl
@[simp] theorem hostRead_wbit (r : HostReg) : (s.hostRead r).wbit = s.wbit := rfl
@[simp] theorem hostRead_sbit (r : HostReg) : (s.hostRead r).sbit = s.sbit := rfl
@[simp] theorem hostRead_ret (r : HostReg) : (s.hostRead r).ret = s.ret := rfl
@[simp] theorem hostRead_params (r : HostReg) : (s.hostRead r).params = s.params := rfl
@[simp] theorem hostRead_turns (r : HostReg) : (s.hostRead r).turns = s.turns := rfl
@[simp] theorem hostRead_levels (r : HostReg) : (s.hostRead r).levels = s.levels := rfl
@[simp] theorem hostRead_excess (r : HostReg) : (s.hostRead r).excess = s.excess := rfl
@[simp] theorem hostRead_samples (r : HostReg) : (s.hostRead r).samples = s.samples := rfl
@[simp] theorem hostRead_delays (r : HostReg) : (s.hostRead r).delays = s.delays := rfl
@[simp] theorem hostRead_resets (r : HostReg) : (s.hostRead r).resets = s.resets := rfl
@[simp] theorem hostRead_trace (r : HostReg) : (s.hostRead r).trace = s.trace := rfl
@[simp] theorem hostRead_reads (r : HostReg) : (s.hostRead r).reads = s.reads ++ [s.readReg r] := rfl
@[simp] theorem hostRead_elapsed (r : HostReg) : (s.hostRead r).elapsed = s.elapsed := rfl

/-! ## blockReset -/

@[simp] theorem blockReset_lineOut : (s.blockReset).lineOut = .rel := rfl
@[simp] theorem blockReset_seq : (s.blockReset).seq = .idle := rfl
@[simp] theorem blockReset_shift : (s.blockReset).shift = Config.freeShift s.resets := rfl
@[simp] theorem blockReset_biti : (s.blockReset).biti = (Config.freeBiti s.resets).val := rfl
@[simp] theorem blockReset_lsb : (s.blockReset).lsb = Config.freeLsb s.resets := rfl
@[simp] theorem blockReset_msb : (s.blockReset).msb = Config.freeMsb s.resets := rfl
@[simp] theorem blockReset_polln : (s.blockReset).polln = (Config.freePolln s.resets).val := rfl
@[simp] theorem blockReset_pres : (s.blockReset).pres = Config.freePres s.resets := rfl
@[simp] theorem blockReset_timer : (s.blockReset).timer = 0 := rfl
@[simp] theorem blockReset_cmd : (s.blockReset).cmd = 0 := rfl
@[simp] theorem blockReset_status : (s.blockReset).status = 0 := rfl
@[simp] theorem blockReset_data : (s.blockReset).data = 0 := rfl
@[simp] theorem blockReset_temp : (s.blockReset).temp = 0 := rfl
@[simp] theorem blockReset_wbit : (s.blockReset).wbit = s.wbit := rfl
@[simp] theorem blockReset_sbit : (s.blockReset).sbit = s.sbit := rfl
@[simp] theorem blockReset_ret : (s.blockReset).ret = s.ret := rfl
@[simp] theorem blockReset_params : (s.blockReset).params = s.params := rfl
@[simp] theorem blockReset_turns : (s.blockReset).turns = s.turns := rfl
@[simp] theorem blockReset_levels : (s.blockReset).levels = s.levels := rfl
@[simp] theorem blockReset_excess : (s.blockReset).excess = s.excess := rfl
@[simp] theorem blockReset_samples : (s.blockReset).samples = s.samples := rfl
@[simp] theorem blockReset_delays : (s.blockReset).delays = s.delays := rfl
@[simp] theorem blockReset_resets : (s.blockReset).resets = s.resets + 1 := rfl
@[simp] theorem blockReset_trace : (s.blockReset).trace = s.trace := rfl
@[simp] theorem blockReset_reads : (s.blockReset).reads = s.reads := rfl
@[simp] theorem blockReset_elapsed : (s.blockReset).elapsed = s.elapsed := rfl

end Sys2Proof.Machine
end

