-- ==== Sys2Proof/Laws/Step.lean ====
section
/-! SUPPORT. What a step is, by whose turn it is and where the sequencer stands; and the small lemmas of the shared
operations. -/

namespace Sys2Proof.Machine

/-! ## Turns -/

/-- With no turn listed the block moves. -/
theorem fetch_noTurns {s : State} (h : s.turns = []) : fetch s = blockTurn s := by
  unfold fetch; rw [h]

theorem fetch_block {s : State} {ts : List Turn} (h : s.turns = .block :: ts) :
    fetch s = blockTurn { s with turns := ts } := by
  unfold fetch; rw [h]

theorem fetch_host {s : State} {a : HostAccess} {ts : List Turn} (h : s.turns = .host a :: ts) :
    fetch s = hostTurn a { s with turns := ts } := by
  unfold fetch; rw [h]

theorem step_wait {s : State} {ts : List Turn} (h : s.turns = .wait :: ts) :
    step s = .next (waitTurn { s with turns := ts }) := by
  unfold step fetch; rw [h]

theorem step_blockReset {s : State} {ts : List Turn} (h : s.turns = .blockReset :: ts) :
    step s = .next ({ s with turns := ts }.blockReset) := by
  unfold step fetch; rw [h]

/-- What the block does in its turn, as an outcome: nothing when idle, else the wire command's meaning or the step of its
point. -/
def blockStep (s : State) : Outcome :=
  match blockTurn s with
  | .instr i t => exec i t
  | .other o => o

theorem step_noTurns {s : State} (h : s.turns = []) : step s = blockStep s := by
  unfold step blockStep; rw [fetch_noTurns h] <;> rfl

theorem step_block {s : State} {ts : List Turn} (h : s.turns = .block :: ts) :
    step s = blockStep { s with turns := ts } := by
  unfold step blockStep; rw [fetch_block h] <;> rfl

@[simp] theorem blockStep_idle {s : State} (h : s.seq = .idle) : blockStep s = .next s := by
  unfold blockStep blockTurn; rw [h]

/-- A stack without a point is a return to the command rule. -/
theorem blockStep_empty {s : State} {op : Op} {o : Operand} (h : s.seq = .run op o []) :
    blockStep s = .next (s.returnTo op o []) := by
  unfold blockStep blockTurn; rw [h]

/-- At every point the block's turn is the step of that point: a wire command byte is sent by the same call its meaning
makes. -/
theorem blockStep_point {s : State} {op : Op} {o : Operand} {p : Point} {ps : List Point}
    (h : s.seq = .run op o (p :: ps)) : blockStep s = stepPoint op o p ps s := by
  unfold blockStep blockTurn; rw [h]
  cases p <;> rfl

/-- At its last point an operation completes. -/
theorem stepPoint_last (op : Op) (o : Operand) (held : Bool) (ps : List Point) (s : State) :
    stepPoint op o (lastPoint held) ps s = .next (closing op held s) := by
  cases held <;> rfl

theorem blockStep_closing {s : State} {op : Op} {held : Bool} (h : Completing s op held) :
    blockStep s = .next (closing op held s) := by
  obtain ⟨o, ps, h⟩ := h
  rw [blockStep_point h, stepPoint_last]

/-- The call of `ow_write_byte` in a running operation. -/
theorem callWriteByte_run {s : State} {op : Op} {o : Operand} {ps : List Point} (v : Byte)
    (h : s.seq = .run op o ps) :
    s.callWriteByte v = { s with shift := v, seq := .run op o (.wyInit :: afterWireStack ps) } := by
  unfold State.callWriteByte; rw [h]

/-! ## Host accesses -/

/-- A host write to `CMD` of a word that decodes runs the instruction. -/
theorem step_writeCmd {s : State} {ts : List Turn} {w : Word} {i : Instr}
    (h : s.turns = .host (.write (s.params.base + HostReg.offset .cmd) 4 w) :: ts) (hw : decodeCommand w = .ok i) :
    step s = exec i { s with turns := ts } := by
  unfold step; rw [fetch_host h]; simp [hostTurn, hostReg, hw]

/-- A host write to `CMD` of a word that decodes to nothing is the illegal command. -/
theorem step_writeCmd_illegal {s : State} {ts : List Turn} {w : Word} {e : DecodeError}
    (h : s.turns = .host (.write (s.params.base + HostReg.offset .cmd) 4 w) :: ts) (hw : decodeCommand w = .error e) :
    step s = .next ({ s with turns := ts }.writeIllegal w) := by
  unfold step; rw [fetch_host h]; simp [hostTurn, hostReg, hw]

/-! ## The timer and the draws -/

/-- What a delay does: its event, its actual length, one draw, and the timer back at 0 (R22, R68). -/
theorem delay_eq (s : State) (n : Nat) (next : Seq) :
    s.delay n next =
      { s with
        seq := next, timer := 0, excess := s.excess.tail, delays := s.delays + 1, trace := s.trace ++ [.wait n],
        elapsed := s.elapsed + (n + s.excessAt 0) } := rfl

theorem excessAt_le (s : State) (k : Nat) : s.excessAt k ≤ s.params.delaySlackUs := Nat.min_le_right _ _

theorem sample_released {s : State} (next : Seq) (h : s.lineOut = .rel) :
    s.sample next = .next { s.takeSample with seq := next } := by
  simp [State.sample, h]

end Sys2Proof.Machine
end

