-- ==== Sys2Proof/Laws/Run.lean ====
section
/-! SUPPORT. Runs of the block alone: one lemma per procedure of 41_onewire_transport.md and 42_ds18b20_session.md that
says where the procedure ends, what it put on the line, what it wrote and how long it took. -/

namespace Sys2Proof.Machine

/-! ## Runs compose -/

theorem Reaches.refl (s : State) : Reaches s s := ⟨0, rfl⟩

theorem run_next {s t : State} (h : step s = .next t) (n : Nat) :
    Host.Core.run Sys2Proof.core (n + 1) s = Host.Core.run Sys2Proof.core n t := by
  have h : Sys2Proof.core.step s = .next t := h
  simp only [Host.Core.run, h]

theorem run_fault {s : State} {f : Fault} (h : step s = .fault f) (n : Nat) :
    Host.Core.run Sys2Proof.core (n + 1) s = .fault f := by
  have h : Sys2Proof.core.step s = .fault f := h
  simp only [Host.Core.run, h]

theorem run_refused {s : State} {r : Refusal} (h : step s = .refused r) (n : Nat) :
    Host.Core.run Sys2Proof.core (n + 1) s = .refused r := by
  have h : Sys2Proof.core.step s = .refused r := h
  simp only [Host.Core.run, h]

theorem Reaches.head {s t u : State} (h : step s = .next t) (r : Reaches t u) : Reaches s u := by
  obtain ⟨n, hn⟩ := r
  exact ⟨n + 1, (run_next h n).trans hn⟩

theorem Reaches.one {s t : State} (h : step s = .next t) : Reaches s t := .head h (.refl t)

theorem Reaches.trans {s t u : State} (a : Reaches s t) (b : Reaches t u) : Reaches s u := by
  obtain ⟨n, hn⟩ := a
  induction n generalizing s with
  | zero => cases hn; exact b
  | succ n ih =>
    cases hs : step s with
    | next s' => exact .head hs (ih ((run_next hs n).symm.trans hn))
    | fault r => exact absurd ((run_fault hs n).symm.trans hn) nofun
    | refused r => exact absurd ((run_refused hs n).symm.trans hn) nofun

/-- One step of the block at a point. -/
theorem step_point {s : State} {op : Op} {o : Operand} {p : Point} {ps : List Point}
    (ht : s.turns = []) (h : s.seq = .run op o (p :: ps)) : step s = stepPoint op o p ps s := by
  rw [step_noTurns ht, blockStep_point h]

theorem step_closing {s : State} {op : Op} {held : Bool} (ht : s.turns = []) (h : Completing s op held) :
    step s = .next (closing op held s) := by
  rw [step_noTurns ht, blockStep_closing h]

/-! ## What a run moves -/

/-- A stretch of an undisturbed run: it put the events `evs` on the line, drew `m` samples and ran `n` delays of nominal
length `d` in all, and left the setting and the host registers alone. -/
structure Moved (s t : State) (evs : List TraceEvent) (m n d : Nat) : Prop where
  params : t.params = s.params
  turns : t.turns = s.turns
  resets : t.resets = s.resets
  reads : t.reads = s.reads
  cmd : t.cmd = s.cmd
  status : t.status = s.status
  data : t.data = s.data
  temp : t.temp = s.temp
  timer : t.timer = s.timer
  trace : t.trace = s.trace ++ evs
  drew : DrewLevels s t m
  lasted : Lasted s t d n

/-- The registers that no bit-level procedure writes. -/
structure SameBytes (s t : State) : Prop where
  shift : t.shift = s.shift
  biti : t.biti = s.biti
  lsb : t.lsb = s.lsb
  msb : t.msb = s.msb
  polln : t.polln = s.polln
  ret : t.ret = s.ret

theorem SameBytes.trans {s t u : State} (a : SameBytes s t) (b : SameBytes t u) : SameBytes s u :=
  ⟨b.1.trans a.1, b.2.trans a.2, b.3.trans a.3, b.4.trans a.4, b.5.trans a.5, b.6.trans a.6⟩

theorem Moved.trans {s t u : State} {e f : List TraceEvent} {m n d m' n' d' : Nat} (a : Moved s t e m n d)
    (b : Moved t u f m' n' d') : Moved s u (e ++ f) (m + m') (n + n') (d + d') where
  params := b.params.trans a.params
  turns := b.turns.trans a.turns
  resets := b.resets.trans a.resets
  reads := b.reads.trans a.reads
  cmd := b.cmd.trans a.cmd
  status := b.status.trans a.status
  data := b.data.trans a.data
  temp := b.temp.trans a.temp
  timer := b.timer.trans a.timer
  trace := by rw [b.trace, a.trace, List.append_assoc]
  drew k := by rw [b.drew k, a.drew, Nat.add_assoc]
  lasted := by
    have h := b.lasted
    simp only [Lasted, a.params] at h ⊢
    have h' := a.lasted
    simp only [Lasted] at h'
    rw [Nat.add_mul]
    omega

theorem Moved.refl (s : State) : Moved s s [] 0 0 0 where
  params := rfl
  turns := rfl
  resets := rfl
  reads := rfl
  cmd := rfl
  status := rfl
  data := rfl
  temp := rfl
  timer := rfl
  trace := by simp
  drew k := by simp
  lasted := by simp [Lasted]

/-- Assigning sequencer registers and moving on moves nothing else. -/
theorem moved_assign (s : State) (q : Seq) (sh : Byte) (bi : Nat) (ls ms : Byte) (po : Nat) (pr wb sb : Bit)
    (re : ResultCode) :
    Moved s { s with
      seq := q, shift := sh, biti := bi, lsb := ls, msb := ms, polln := po, pres := pr, wbit := wb, sbit := sb,
      ret := re } [] 0 0 0 where
  params := rfl
  turns := rfl
  resets := rfl
  reads := rfl
  cmd := rfl
  status := rfl
  data := rfl
  temp := rfl
  timer := rfl
  trace := by simp
  drew k := by rw [Nat.zero_add]; rfl
  lasted := by simp [Lasted]

/-- A state in which a procedure can run undisturbed: only the block moves, no delay is running. -/
structure Ready (s : State) : Prop where
  turns : s.turns = []
  timer : s.timer = 0

theorem Ready.moved {s t : State} {e : List TraceEvent} {m n d : Nat} (r : Ready s) (h : Moved s t e m n d) :
    Ready t :=
  ⟨h.turns.trans r.turns, h.timer.trans r.timer⟩

/-! ## The primitives -/

theorem levelAt_congr {s t : State} {a b : Nat} (hl : t.levels = s.levels.drop a) (hs : t.samples = s.samples + a) :
    t.levelAt b = s.levelAt (a + b) := by
  simp [State.levelAt, hl, hs, Nat.add_assoc]

/-- A step that only moves on: a condition. -/
theorem run_goto {s : State} {op : Op} {o : Operand} {p : Point} {ps qs : List Point} (hr : Ready s)
    (hs : s.seq = .run op o (p :: ps)) (h : stepPoint op o p ps s = .next (s.goto op o qs)) :
    ∃ t, Reaches s t ∧ Moved s t [] 0 0 0 ∧ SameBytes s t ∧ t.lineOut = s.lineOut ∧ t.wbit = s.wbit ∧
      t.sbit = s.sbit ∧ t.pres = s.pres ∧ t.seq = .run op o qs :=
  ⟨_, .one ((step_point hr.turns hs).trans h), moved_assign .., ⟨rfl, rfl, rfl, rfl, rfl, rfl⟩, rfl, rfl, rfl, rfl, rfl⟩

/-- `PRES <- b` and return (R71). -/
theorem run_setPres {s : State} {op : Op} {o : Operand} {p : Point} {ps : List Point} {b : Bit} (hr : Ready s)
    (hs : s.seq = .run op o (p :: ps)) (hret : returnedResult ps s.ret = s.ret)
    (h : stepPoint op o p ps s = .next ({ s with pres := b }.returnTo op o ps)) :
    ∃ t, Reaches s t ∧ Moved s t [] 0 0 0 ∧ SameBytes s t ∧ t.lineOut = s.lineOut ∧ t.wbit = s.wbit ∧
      t.pres = b ∧ t.seq = .run op o (resume op ps) :=
  ⟨_, .one ((step_point hr.turns hs).trans h), moved_assign .., ⟨rfl, rfl, rfl, rfl, rfl, hret⟩, rfl, rfl, rfl, rfl⟩

/-- `DriveLow()` at a point (R64). -/
theorem run_driveLow {s : State} {op : Op} {o : Operand} {p q : Point} {ps : List Point} (hr : Ready s)
    (hs : s.seq = .run op o (p :: ps)) (h : stepPoint op o p ps s = .next (s.driveLow.goto op o (q :: ps))) :
    ∃ t, Reaches s t ∧ Moved s t [.low] 0 0 0 ∧ SameBytes s t ∧ t.lineOut = .low ∧ t.wbit = s.wbit ∧
      t.sbit = s.sbit ∧ t.pres = s.pres ∧ t.seq = .run op o (q :: ps) :=
  ⟨_, .one ((step_point hr.turns hs).trans h), ⟨rfl, rfl, rfl, rfl, rfl, rfl, rfl, rfl, rfl, rfl, fun k => by
    rw [Nat.zero_add]; rfl, by simp [Lasted]⟩, ⟨rfl, rfl, rfl, rfl, rfl, rfl⟩, rfl, rfl, rfl, rfl, rfl⟩

/-- `Release()` at a point (R65). -/
theorem run_release {s : State} {op : Op} {o : Operand} {p q : Point} {ps : List Point} (hr : Ready s)
    (hs : s.seq = .run op o (p :: ps)) (h : stepPoint op o p ps s = .next (s.release.goto op o (q :: ps))) :
    ∃ t, Reaches s t ∧ Moved s t [.rel] 0 0 0 ∧ SameBytes s t ∧ t.lineOut = .rel ∧ t.wbit = s.wbit ∧
      t.sbit = s.sbit ∧ t.pres = s.pres ∧ t.seq = .run op o (q :: ps) :=
  ⟨_, .one ((step_point hr.turns hs).trans h), ⟨rfl, rfl, rfl, rfl, rfl, rfl, rfl, rfl, rfl, rfl, fun k => by
    rw [Nat.zero_add]; rfl, by simp [Lasted]⟩, ⟨rfl, rfl, rfl, rfl, rfl, rfl⟩, rfl, rfl, rfl, rfl, rfl⟩

/-- `SetLine(b)` in a write slot (R66). -/
theorem run_setLine {s : State} {op : Op} {o : Operand} {ps : List Point} (hr : Ready s)
    (hs : s.seq = .run op o (.wbSet :: ps)) :
    ∃ t, Reaches s t ∧ Moved s t [.set (slotBit o s.wbit ps)] 0 0 0 ∧ SameBytes s t ∧ t.wbit = s.wbit ∧
      t.sbit = s.sbit ∧ t.pres = s.pres ∧ t.seq = .run op o (.wbHold :: ps) :=
  ⟨(s.setLine (slotBit o s.wbit ps)).goto op o (.wbHold :: ps), .one (step_point hr.turns hs),
    ⟨rfl, rfl, rfl, rfl, rfl, rfl, rfl, rfl, rfl, rfl, fun k => by rw [Nat.zero_add]; rfl, by simp [Lasted]⟩,
    ⟨rfl, rfl, rfl, rfl, rfl, rfl⟩, rfl, rfl, rfl, rfl⟩

/-- `Sample()` while the line is released (R67). -/
theorem run_sample {s : State} {op : Op} {o : Operand} {p q : Point} {ps : List Point} (hr : Ready s)
    (hs : s.seq = .run op o (p :: ps)) (hl : s.lineOut = .rel)
    (h : stepPoint op o p ps s = s.sample (.run op o (q :: ps))) :
    ∃ t, Reaches s t ∧ Moved s t [.sample (s.levelAt 0)] 1 0 0 ∧ SameBytes s t ∧ t.lineOut = .rel ∧ t.wbit = s.wbit ∧
      t.sbit = s.levelAt 0 ∧ t.pres = s.pres ∧ t.seq = .run op o (q :: ps) :=
  ⟨{ s.takeSample with seq := .run op o (q :: ps) },
    .one (((step_point hr.turns hs).trans h).trans (sample_released _ hl)),
    ⟨rfl, rfl, rfl, rfl, rfl, rfl, rfl, rfl, rfl, rfl, fun k => levelAt_congr (by simp) (by simp),
      by simp [Lasted]⟩,
    ⟨rfl, rfl, rfl, rfl, rfl, rfl⟩, hl, rfl, rfl, rfl, rfl⟩

/-- A delay takes between its length and its length with the slack, and the line holds (R7, R68). -/
theorem run_delay {s : State} {op : Op} {o : Operand} {p : Point} {ps : List Point} {n : Nat} {next : Seq}
    (hr : Ready s) (hs : s.seq = .run op o (p :: ps)) (hp : stepPoint op o p ps s = .next (s.delay n next)) :
    ∃ t, Reaches s t ∧ Moved s t [.wait n] 0 1 n ∧ SameBytes s t ∧ t.lineOut = s.lineOut ∧ t.wbit = s.wbit ∧
      t.sbit = s.sbit ∧ t.pres = s.pres ∧ t.seq = next := by
  have hx := excessAt_le s 0
  exact ⟨_, .one ((step_point hr.turns hs).trans hp),
    ⟨rfl, rfl, rfl, rfl, rfl, rfl, rfl, rfl, hr.timer.symm, rfl, fun k => levelAt_congr (by simp [delay_eq])
      (by simp [delay_eq]), by simp [Lasted, delay_eq]; omega⟩,
    ⟨rfl, rfl, rfl, rfl, rfl, rfl⟩, rfl, rfl, rfl, rfl, rfl⟩

/-! ## The bit procedures -/

/-- `ow_write_bit(b)` (R73) puts one write slot on the line and returns. -/
theorem run_writeBit {s : State} {op : Op} {o : Operand} {ps : List Point} (hr : Ready s)
    (hs : s.seq = .run op o (.wbDrive :: ps)) :
    ∃ t, Reaches s t ∧ Moved s t (traceWriteBit s.params (slotBit o s.wbit ps)) 0 3 (nominalWriteBit s.params) ∧
      SameBytes s t ∧ t.lineOut = .rel ∧ t.sbit = s.sbit ∧ t.pres = s.pres ∧ t.seq = .run op o (resume op ps) := by
  obtain ⟨a, ra, ma, ba, -, wa, sa, pa, qa⟩ := run_driveLow hr hs rfl
  obtain ⟨b, rb, mb, bb, -, wb, sb, pb, qb⟩ := run_delay (n := s.params.tWLow) (hr.moved ma) qa
    (next := .run op o (.wbSet :: ps)) (by simp [stepPoint, ma.params])
  have mb := ma.trans mb
  obtain ⟨c, rc, mc, bc, wc, sc, pc, qc⟩ := run_setLine (hr.moved mb) qb
  rw [wb, wa] at mc
  have mc := mb.trans mc
  obtain ⟨d, rd, md, bd, -, wd, sd, pd, qd⟩ := run_delay (n := s.params.tWHold) (hr.moved mc) qc
    (next := .run op o (.wbRel :: ps)) (by simp [stepPoint, mc.params])
  have md := mc.trans md
  obtain ⟨e, re, me, be, le, we, se, pe, qe⟩ := run_release (hr.moved md) qd rfl
  have me := md.trans me
  obtain ⟨f, rf, mf, bf, lf, wf, sf, pf, qf⟩ := run_delay (n := s.params.tWRec) (hr.moved me) qe
    (next := .run op o (resume op ps)) (by simp [stepPoint, me.params])
  have mf := me.trans mf
  refine ⟨f, ra.trans (rb.trans (rc.trans (rd.trans (re.trans rf)))), ?_,
    ba.trans (bb.trans (bc.trans (bd.trans (be.trans bf)))), lf.trans le, ?_, ?_, qf⟩
  · simpa [traceWriteBit, nominalWriteBit] using mf
  · rw [sf, se, sd, sc, sb, sa]
  · rw [pf, pe, pd, pc, pb, pa]

/-- `ow_read_bit()` (R77) puts one read slot on the line and returns the level sampled in it. -/
theorem run_readBit {s : State} {op : Op} {o : Operand} {ps : List Point} (hr : Ready s)
    (hs : s.seq = .run op o (.rbDrive :: ps)) :
    ∃ t, Reaches s t ∧ Moved s t (traceReadBit s.params (s.levelAt 0)) 1 3 (nominalReadBit s.params) ∧
      SameBytes s t ∧ t.lineOut = .rel ∧ t.wbit = s.wbit ∧ t.sbit = s.levelAt 0 ∧ t.pres = s.pres ∧
      t.seq = .run op o (resume op ps) := by
  obtain ⟨a, ra, ma, ba, -, wa, sa, pa, qa⟩ := run_driveLow hr hs rfl
  obtain ⟨b, rb, mb, bb, -, wb, sb, pb, qb⟩ := run_delay (n := s.params.tRLow) (hr.moved ma) qa
    (next := .run op o (.rbRel :: ps)) (by simp [stepPoint, ma.params])
  have mb := ma.trans mb
  obtain ⟨c, rc, mc, bc, lc, wc, sc, pc, qc⟩ := run_release (hr.moved mb) qb rfl
  have mc := mb.trans mc
  obtain ⟨d, rd, md, bd, ld, wd, sd, pd, qd⟩ := run_delay (n := s.params.tRPre) (hr.moved mc) qc
    (next := .run op o (.rbSample :: ps)) (by simp [stepPoint, mc.params])
  have md := mc.trans md
  obtain ⟨e, re, me, be, le, we, se, pe, qe⟩ := run_sample (hr.moved md) qd (ld.trans lc) rfl
  rw [md.drew] at me se
  have me := md.trans me
  obtain ⟨f, rf, mf, bf, lf, wf, sf, pf, qf⟩ := run_delay (n := s.params.tRPost) (hr.moved me) qe
    (next := .run op o (resume op ps)) (by simp [stepPoint, me.params])
  have mf := me.trans mf
  refine ⟨f, ra.trans (rb.trans (rc.trans (rd.trans (re.trans rf)))), ?_,
    ba.trans (bb.trans (bc.trans (bd.trans (be.trans bf)))), lf.trans le, ?_, sf.trans se, ?_, qf⟩
  · simpa [traceReadBit, nominalReadBit] using mf
  · rw [wf, we, wd, wc, wb, wa]
  · rw [pf, pe, pd, pc, pb, pa]

/-- `ow_reset()` (R71): the reset pulse, the presence sample and, only when presence was seen, the hold. -/
theorem run_reset {s : State} {op : Op} {o : Operand} {ps : List Point} (hr : Ready s)
    (hs : s.seq = .run op o (.rstDrive :: ps)) (hret : ∀ r, returnedResult ps r = r) :
    ∃ t, Reaches s t ∧ Moved s t (traceReset s.params (s.levelAt 0)) 1 (if s.levelAt 0 then 2 else 3)
        (nominalReset s.params (s.levelAt 0)) ∧
      SameBytes s t ∧ t.lineOut = .rel ∧ t.wbit = s.wbit ∧ t.pres = !s.levelAt 0 ∧
      t.seq = .run op o (resume op ps) := by
  obtain ⟨a, ra, ma, ba, -, wa, sa, pa, qa⟩ := run_driveLow hr hs rfl
  obtain ⟨b, rb, mb, bb, -, wb, sb, pb, qb⟩ := run_delay (n := s.params.tRstLow) (hr.moved ma) qa
    (next := .run op o (.rstRel :: ps)) (by simp [stepPoint, ma.params])
  have mb := ma.trans mb
  obtain ⟨c, rc, mc, bc, lc, wc, sc, pc, qc⟩ := run_release (hr.moved mb) qb rfl
  have mc := mb.trans mc
  obtain ⟨d, rd, md, bd, ld, wd, sd, pd, qd⟩ := run_delay (n := s.params.tRstPds) (hr.moved mc) qc
    (next := .run op o (.rstSample :: ps)) (by simp [stepPoint, mc.params])
  have md := mc.trans md
  obtain ⟨e, re, me, be, le, we, se, pe, qe⟩ := run_sample (hr.moved md) qd (ld.trans lc) rfl
  rw [md.drew] at me se
  have me := md.trans me
  have be := ba.trans (bb.trans (bc.trans (bd.trans be)))
  have re := ra.trans (rb.trans (rc.trans (rd.trans re)))
  have we : e.wbit = s.wbit := by rw [we, wd, wc, wb, wa]
  cases hv : s.levelAt 0 with
  | true =>
    have hv' : e.sbit = true := se.trans hv
    obtain ⟨f, rf, mf, bf, lf, wf, -, -, qf⟩ := run_goto (qs := .rstAbsent :: ps) (hr.moved me) qe
      (by simp [stepPoint, hv'])
    have mf := me.trans mf
    obtain ⟨g, rg, mg, bg, lg, wg, pg, qg⟩ := run_setPres (b := false) (hr.moved mf) qf (hret _) rfl
    refine ⟨g, re.trans (rf.trans rg), ?_, be.trans (bf.trans bg), lg.trans (lf.trans le), wg.trans (wf.trans we),
      by simpa using pg, qg⟩
    simpa [traceReset, nominalReset, hv] using mf.trans mg
  | false =>
    have hv' : e.sbit = false := se.trans hv
    obtain ⟨f, rf, mf, bf, lf, wf, -, -, qf⟩ := run_goto (qs := .rstHold :: ps) (hr.moved me) qe
      (by simp [stepPoint, hv'])
    have mf := me.trans mf
    obtain ⟨g, rg, mg, bg, lg, wg, -, -, qg⟩ := run_delay (n := s.params.tRstHold) (hr.moved mf) qf
      (next := .run op o (.rstPresent :: ps)) (by simp [stepPoint, mf.params])
    have mg := mf.trans mg
    obtain ⟨h, rh, mh, bh, lh, wh, ph, qh⟩ := run_setPres (b := true) (hr.moved mg) qg (hret _) rfl
    refine ⟨h, re.trans (rf.trans (rg.trans rh)), ?_, be.trans (bf.trans (bg.trans bh)),
      lh.trans (lg.trans (lf.trans le)), wh.trans (wg.trans (wf.trans we)), by simpa using ph, qh⟩
    simpa [traceReset, nominalReset, hv] using mg.trans mh

/-! ## The byte procedures -/

/-- The registers that no transport procedure writes. -/
structure SameSession (s t : State) : Prop where
  lsb : t.lsb = s.lsb
  msb : t.msb = s.msb
  polln : t.polln = s.polln
  ret : t.ret = s.ret

theorem SameSession.trans {s t u : State} (a : SameSession s t) (b : SameSession t u) : SameSession s u :=
  ⟨b.1.trans a.1, b.2.trans a.2, b.3.trans a.3, b.4.trans a.4⟩

theorem SameBytes.session {s t : State} (a : SameBytes s t) : SameSession s t := ⟨a.lsb, a.msb, a.polln, a.ret⟩

theorem SameSession.refl (s : State) : SameSession s s := ⟨rfl, rfl, rfl, rfl⟩

/-- The registers the session procedures write only at their ends and in their poll loops. -/
structure SameTemps (s t : State) : Prop where
  lsb : t.lsb = s.lsb
  msb : t.msb = s.msb
  polln : t.polln = s.polln

theorem SameTemps.trans {s t u : State} (a : SameTemps s t) (b : SameTemps t u) : SameTemps s u :=
  ⟨b.1.trans a.1, b.2.trans a.2, b.3.trans a.3⟩

theorem SameSession.temps {s t : State} (a : SameSession s t) : SameTemps s t := ⟨a.lsb, a.msb, a.polln⟩

theorem SameBytes.temps {s t : State} (a : SameBytes s t) : SameTemps s t := a.session.temps

/-- A return at the end of a loop: the procedure goes on where it was called. -/
theorem run_returnTo {s : State} {op : Op} {o : Operand} {p : Point} {ps : List Point} (hr : Ready s)
    (hs : s.seq = .run op o (p :: ps)) (h : stepPoint op o p ps s = .next (s.returnTo op o ps)) :
    ∃ t, Reaches s t ∧ Moved s t [] 0 0 0 ∧ SameTemps s t ∧ t.lineOut = s.lineOut ∧ t.shift = s.shift ∧
      t.wbit = s.wbit ∧ t.sbit = s.sbit ∧ t.pres = s.pres ∧ t.ret = returnedResult ps s.ret ∧
      t.seq = .run op o (resume op ps) :=
  ⟨_, .one ((step_point hr.turns hs).trans h), moved_assign .., ⟨rfl, rfl, rfl⟩, rfl, rfl, rfl, rfl, rfl, rfl, rfl⟩

/-- The loop of `ow_write_byte` with `n` bits to go, `BITI = k` (R75). -/
theorem run_writeBits (n : Nat) : ∀ {s : State} {op : Op} {o : Operand} {ps : List Point} {k : Nat}, Ready s →
    s.seq = .run op o (.wyNext :: ps) → s.biti = k → k + n = 8 →
    ∃ t, Reaches s t ∧
      Moved s t ((List.range n).flatMap fun i => traceWriteBit s.params (bitOf s.shift (k + i))) 0 (n * 3)
        (n * nominalWriteBit s.params) ∧
      SameTemps s t ∧ (s.lineOut = .rel ∨ 0 < n → t.lineOut = .rel) ∧ t.sbit = s.sbit ∧ t.pres = s.pres ∧
      t.ret = returnedResult ps s.ret ∧ t.seq = .run op o (resume op ps) := by
  induction n with
  | zero =>
    intro s op o ps k hr hs hb hk
    obtain ⟨t, r, m, b, l, -, -, sb, p, e, q⟩ := run_returnTo hr hs (by
      have : ¬ s.biti < 8 := by omega
      simp [stepPoint, this])
    exact ⟨t, r, by simpa using m, b, fun h => l.trans (by simpa using h), sb, p, e, q⟩
  | succ n ih =>
    intro s op o ps k hr hs hb hk
    have hlt : s.biti < 8 := by omega
    obtain ⟨a, ra, ma, ba, wa, sa, pa, qa⟩ : ∃ a, Reaches s a ∧ Moved s a [] 0 0 0 ∧ SameBytes s a ∧
        a.wbit = bitOf s.shift k ∧ a.sbit = s.sbit ∧ a.pres = s.pres ∧
        a.seq = .run op o (.wbDrive :: .wyInc :: ps) :=
      ⟨{ s with wbit := bitOf s.shift s.biti }.goto op o (.wbDrive :: .wyInc :: ps),
        .one ((step_point hr.turns hs).trans (by simp [stepPoint, hlt])), moved_assign ..,
        ⟨rfl, rfl, rfl, rfl, rfl, rfl⟩, by simp [hb], rfl, rfl, rfl⟩
    obtain ⟨b, rb, mb, bb, lb, sb, pb, qb⟩ := run_writeBit (hr.moved ma) qa
    rw [show slotBit o a.wbit (.wyInc :: ps) = a.wbit from rfl, wa, ma.params] at mb
    have mb := ma.trans mb
    obtain ⟨c, rc, mc, cc, sc, ic, lc, bc, pc, qc⟩ : ∃ c, Reaches b c ∧ Moved b c [] 0 0 0 ∧ SameSession b c ∧
        c.shift = b.shift ∧ c.biti = b.biti + 1 ∧ c.lineOut = b.lineOut ∧ c.sbit = b.sbit ∧ c.pres = b.pres ∧
        c.seq = .run op o (.wyNext :: ps) :=
      ⟨{ b with biti := b.biti + 1 }.goto op o (.wyNext :: ps),
        .one ((step_point (hr.moved mb).turns qb).trans rfl),
        moved_assign ..,
        ⟨rfl, rfl, rfl, rfl⟩, rfl, rfl, rfl, rfl, rfl, rfl⟩
    have mc := mb.trans mc
    have hshift : c.shift = s.shift := by rw [sc, bb.shift, ba.shift]
    have hbiti : c.biti = k + 1 := by rw [ic, bb.biti, ba.biti, hb]
    obtain ⟨d, rd, md, sd, ld, xd, pd, ed, qd⟩ := ih (hr.moved mc) qc hbiti (by omega)
    rw [hshift, mc.params] at md
    refine ⟨d, ra.trans (rb.trans (rc.trans rd)), ?_, ((ba.temps.trans bb.temps).trans cc.temps).trans sd,
      fun _ => ld (.inl (lc.trans lb)), by rw [xd, bc, sb, sa], by rw [pd, pc, pb, pa],
      by rw [ed, cc.ret, bb.ret, ba.ret], qd⟩
    have h := mc.trans md
    simpa [List.range_succ_eq_map, List.flatMap_map, Nat.succ_mul, Nat.add_comm, Nat.add_left_comm] using h

/-- `ow_write_byte(v)` (R75), from its loop's start on with `SHIFT = v`: eight write slots, bit 0 first. -/
theorem run_writeByte {s : State} {op : Op} {o : Operand} {ps : List Point} (hr : Ready s)
    (hs : s.seq = .run op o (.wyInit :: ps)) :
    ∃ t, Reaches s t ∧ Moved s t (traceWriteByte s.params s.shift) 0 24 (8 * nominalWriteBit s.params) ∧
      SameTemps s t ∧ t.lineOut = .rel ∧ t.sbit = s.sbit ∧ t.pres = s.pres ∧ t.ret = returnedResult ps s.ret ∧
      t.seq = .run op o (resume op ps) := by
  obtain ⟨a, ra, ma, sa, ha, ba, xa, pa, qa⟩ : ∃ a, Reaches s a ∧ Moved s a [] 0 0 0 ∧ SameSession s a ∧
      a.shift = s.shift ∧ a.biti = 0 ∧ a.sbit = s.sbit ∧ a.pres = s.pres ∧ a.seq = .run op o (.wyNext :: ps) :=
    ⟨_, .one ((step_point hr.turns hs).trans rfl), moved_assign .., ⟨rfl, rfl, rfl, rfl⟩, rfl, rfl, rfl, rfl, rfl⟩
  obtain ⟨t, r, m, c, l, sb, p, e, q⟩ := run_writeBits 8 (hr.moved ma) qa ba rfl
  rw [ha, ma.params] at m
  have m : Moved a t (traceWriteByte s.params s.shift) 0 24 (8 * nominalWriteBit s.params) := m
  exact ⟨t, ra.trans r, by simpa using ma.trans m, sa.temps.trans c, l (.inr (by omega)), sb.trans xa, p.trans pa,
    by rw [e, sa.ret], q⟩

/-- `SHIFT` after storing the `n` bits `f 0, f 1, …` from bit `k` on (R79). -/
def storeBits : Nat → Nat → (Nat → Bit) → Byte → Byte
  | 0, _, _, v => v
  | n + 1, k, f, v => storeBits n (k + 1) (fun i => f (i + 1)) (withBit v k (f 0))

/-- The loop of `ow_read_byte` with `n` bits to go, `BITI = k` (R79). -/
theorem run_readBits (n : Nat) : ∀ {s : State} {op : Op} {o : Operand} {ps : List Point} {k : Nat}, Ready s →
    s.seq = .run op o (.ryNext :: ps) → (∀ r, returnedResult ps r = r) → s.biti = k → k + n = 8 →
    ∃ t, Reaches s t ∧
      Moved s t ((List.range n).flatMap fun i => traceReadBit s.params (s.levelAt i)) n (n * 3)
        (n * nominalReadBit s.params) ∧
      SameSession s t ∧ (s.lineOut = .rel ∨ 0 < n → t.lineOut = .rel) ∧
      t.shift = storeBits n k s.levelAt s.shift ∧ t.wbit = s.wbit ∧ t.pres = s.pres ∧
      t.seq = .run op o (resume op ps) := by
  induction n with
  | zero =>
    intro s op o ps k hr hs hret hb hk
    obtain ⟨t, r, m, b, l, h, wb, -, p, e, q⟩ := run_returnTo hr hs (by
      have : ¬ s.biti < 8 := by omega
      simp [stepPoint, this])
    exact ⟨t, r, by simpa using m, ⟨b.lsb, b.msb, b.polln, e.trans (hret _)⟩, fun h => l.trans (by simpa using h), h, wb,
      p, q⟩
  | succ n ih =>
    intro s op o ps k hr hs hret hb hk
    have hlt : s.biti < 8 := by omega
    obtain ⟨a, ra, ma, ba, -, wa, -, pa, qa⟩ := run_goto (qs := .rbDrive :: .ryStore :: ps) hr hs
      (by simp [stepPoint, hlt])
    obtain ⟨b, rb, mb, bb, lb, wb, sb, pb, qb⟩ := run_readBit (hr.moved ma) qa
    rw [ma.params, ma.drew] at mb
    rw [ma.drew] at sb
    have mb := ma.trans mb
    obtain ⟨c, rc, mc, cc, sc, ic, lc, wc, pc, qc⟩ : ∃ c, Reaches b c ∧ Moved b c [] 0 0 0 ∧ SameSession b c ∧
        c.shift = withBit b.shift b.biti b.sbit ∧ c.biti = b.biti + 1 ∧ c.lineOut = b.lineOut ∧ c.wbit = b.wbit ∧
        c.pres = b.pres ∧ c.seq = .run op o (.ryNext :: ps) :=
      ⟨{ b with shift := withBit b.shift b.biti b.sbit, biti := b.biti + 1 }.goto op o (.ryNext :: ps),
        .head (t := { b with shift := withBit b.shift b.biti b.sbit }.goto op o (.ryInc :: ps))
          ((step_point (hr.moved mb).turns qb).trans rfl) (.one ((step_point (by exact (hr.moved mb).turns) rfl).trans rfl)),
        moved_assign .., ⟨rfl, rfl, rfl, rfl⟩, rfl, rfl, rfl, rfl, rfl, rfl⟩
    have mc := mb.trans mc
    have hshift : c.shift = withBit s.shift k (s.levelAt 0) := by rw [sc, bb.shift, ba.shift, bb.biti, ba.biti, hb, sb]
    have hbiti : c.biti = k + 1 := by rw [ic, bb.biti, ba.biti, hb]
    have hlevel : c.levelAt = fun i => s.levelAt (i + 1) := by
      funext i; rw [mc.drew]; congr 1; omega
    obtain ⟨d, rd, md, sd, ld, hd, wd, pd, qd⟩ := ih (hr.moved mc) qc hret hbiti (by omega)
    rw [hlevel, mc.params] at md
    rw [hlevel, hshift] at hd
    refine ⟨d, ra.trans (rb.trans (rc.trans rd)), ?_, ((ba.session.trans bb.session).trans cc).trans sd,
      fun _ => ld (.inl (lc.trans lb)), hd, by rw [wd, wc, wb, wa], by rw [pd, pc, pb, pa], qd⟩
    have h := mc.trans md
    simpa [List.range_succ_eq_map, List.flatMap_map, Nat.succ_mul, Nat.add_comm, Nat.add_left_comm] using h

theorem storeBits_eight (f : Nat → Bit) : storeBits 8 0 f 0 = sampledByte f := by
  simp only [storeBits, sampledByte]
  generalize f 0 = b0
  generalize f (0 + 1) = b1
  generalize f (0 + 1 + 1) = b2
  generalize f (0 + 1 + 1 + 1) = b3
  generalize f (0 + 1 + 1 + 1 + 1) = b4
  generalize f (0 + 1 + 1 + 1 + 1 + 1) = b5
  generalize f (0 + 1 + 1 + 1 + 1 + 1 + 1) = b6
  generalize f (0 + 1 + 1 + 1 + 1 + 1 + 1 + 1) = b7
  revert b0 b1 b2 b3 b4 b5 b6 b7
  decide

/-- The bits of a byte made of eight samples are those samples, in order (R42, R79). -/
theorem wireBits_sampledByte (f : Nat → Bit) :
    wireBits (sampledByte f) = [f 0, f 1, f 2, f 3, f 4, f 5, f 6, f 7] := by
  simp only [wireBits, sampledByte]
  generalize f 0 = b0
  generalize f 1 = b1
  generalize f 2 = b2
  generalize f 3 = b3
  generalize f 4 = b4
  generalize f 5 = b5
  generalize f 6 = b6
  generalize f 7 = b7
  revert b0 b1 b2 b3 b4 b5 b6 b7
  decide

/-- Bit `i` of a byte made of eight samples is the `i`-th sample (R79). -/
theorem sampledByte_getLsbD (f : Nat → Bit) (i : Nat) : (sampledByte f).getLsbD i = (decide (i < 8) && f i) := by
  by_cases h : i < 8
  · obtain ⟨h0, h1, h2, h3, h4, h5, h6, h7, -⟩ : _ ∧ _ ∧ _ ∧ _ ∧ _ ∧ _ ∧ _ ∧ _ ∧ True := by
      simpa only [wireBits, List.cons.injEq] using wireBits_sampledByte f
    interval_cases i <;> simpa using ‹_›
  · simpa [h] using BitVec.getLsbD_of_ge _ _ (by omega)

/-- `ow_read_byte()` (R79): eight read slots, and `SHIFT` is the byte their samples make, the first bit 0. -/
theorem run_readByte {s : State} {op : Op} {o : Operand} {ps : List Point} (hr : Ready s)
    (hs : s.seq = .run op o (.ryClear :: ps)) (hret : ∀ r, returnedResult ps r = r) :
    ∃ t, Reaches s t ∧ Moved s t (traceReadByte s.params (s.byteAt 0)) 8 24 (8 * nominalReadBit s.params) ∧
      SameSession s t ∧ t.lineOut = .rel ∧ t.shift = s.byteAt 0 ∧ t.wbit = s.wbit ∧ t.pres = s.pres ∧
      t.seq = .run op o (resume op ps) := by
  obtain ⟨a, ra, ma, sa, ha, ba, wa, pa, qa⟩ : ∃ a, Reaches s a ∧ Moved s a [] 0 0 0 ∧ SameSession s a ∧
      a.shift = 0 ∧ a.biti = 0 ∧ a.wbit = s.wbit ∧ a.pres = s.pres ∧ a.seq = .run op o (.ryNext :: ps) :=
    ⟨{ s with shift := 0, biti := 0 }.goto op o (.ryNext :: ps),
      .head (t := { s with shift := 0 }.goto op o (.ryInit :: ps)) ((step_point hr.turns hs).trans rfl)
        (.one ((step_point (by exact hr.turns) rfl).trans rfl)),
      moved_assign .., ⟨rfl, rfl, rfl, rfl⟩, rfl, rfl, rfl, rfl, rfl⟩
  obtain ⟨b, rb, mb, sb, lb, hb, wb, pb, qb⟩ := run_readBits 8 (hr.moved ma) qa hret ba rfl
  have hlevel : a.levelAt = s.levelAt := by funext i; rw [ma.drew]; congr 1; omega
  have hbyte : s.byteAt 0 = sampledByte s.levelAt := by simp [State.byteAt]
  rw [hlevel, ma.params] at mb
  rw [hlevel, ha, storeBits_eight] at hb
  refine ⟨b, ra.trans rb, ?_, sa.trans sb, lb (.inr (by omega)), hb.trans hbyte.symm, wb.trans wa, pb.trans pa, qb⟩
  have h := ma.trans mb
  rw [hbyte, traceReadByte, wireBits_sampledByte]
  simpa [List.range_succ_eq_map] using h

/-! ## The command rule after its procedure -/

/-- From the return of its procedure an operation reaches its completion, by the assignment of what was returned and the
condition where the rule has them, and nothing else happens (R20, R72 to R93). -/
theorem run_close {s : State} {op : Op} {o : Operand} (hr : Ready s) (hs : s.seq = .run op o (resume op [])) :
    ∃ t, Reaches s t ∧ Moved s t [] 0 0 0 ∧ SameBytes s t ∧ t.lineOut = s.lineOut ∧ t.wbit = s.wbit ∧
      t.sbit = s.sbit ∧ t.pres = s.pres ∧ t.seq = .run op o [lastPoint (Op.testHolds op s)] := by
  cases op
  case owWriteBit | owWriteByte =>
    exact ⟨s, .refl s, .refl s, ⟨rfl, rfl, rfl, rfl, rfl, rfl⟩, rfl, rfl, rfl, rfl, hs⟩
  case owReadBit | owReadByte | dsStartConversion => exact run_goto hr hs rfl
  all_goals
    obtain ⟨a, ra, ma, ba, la, wa, sa, pa, qa⟩ := run_goto (qs := [.cmdTest]) hr hs rfl
    obtain ⟨b, rb, mb, bb, lb, wb, sb, pb, qb⟩ := run_goto (hr.moved ma) qa rfl
    refine ⟨b, ra.trans rb, by simpa using ma.trans mb, ba.trans bb, lb.trans la, wb.trans wa, sb.trans sa, pb.trans pa,
      ?_⟩
    simpa [Op.testHolds, pa, ba.ret] using qb

end Sys2Proof.Machine
end

