-- ==== Sys2Proof/Laws/Session.lean ====
section
/-! SUPPORT. Runs of the session procedures of 42_ds18b20_session.md, built from the runs of the transport procedures. -/

namespace Sys2Proof.Machine

theorem DrewLevels.byteAt {s t : State} {n : Nat} (h : DrewLevels s t n) (k : Nat) : t.byteAt k = s.byteAt (n + k) := by
  unfold State.byteAt; congr 1; funext i; rw [h]; congr 1; omega

/-- A wire command byte is sent by `ow_write_byte` and the procedure goes on after it (R59, R75). -/
theorem run_sendWire {s : State} {op : Op} {o : Operand} {p : Point} {ps : List Point} {v : Byte} (hr : Ready s)
    (hs : s.seq = .run op o (p :: ps)) (hp : stepPoint op o p ps s = .next (s.callWriteByte v)) :
    ∃ t, Reaches s t ∧ Moved s t (traceWriteByte s.params v) 0 24 (8 * nominalWriteBit s.params) ∧ SameTemps s t ∧
      t.lineOut = .rel ∧ t.pres = s.pres ∧ t.ret = returnedResult (p.afterWire :: ps) s.ret ∧
      t.seq = .run op o (resume op (p.afterWire :: ps)) := by
  rw [callWriteByte_run v hs] at hp
  obtain ⟨a, ra, ma, sa, ha, pa, qa⟩ : ∃ a, Reaches s a ∧ Moved s a [] 0 0 0 ∧ SameSession s a ∧
      a.shift = v ∧ a.pres = s.pres ∧ a.seq = .run op o (.wyInit :: p.afterWire :: ps) :=
    ⟨_, .one ((step_point hr.turns hs).trans hp), moved_assign .., ⟨rfl, rfl, rfl, rfl⟩, rfl, rfl, rfl⟩
  obtain ⟨b, rb, mb, sb, lb, -, pb, eb, qb⟩ := run_writeByte (hr.moved ma) qa
  rw [ha, ma.params] at mb
  exact ⟨b, ra.trans rb, by simpa using ma.trans mb, sa.temps.trans sb, lb, pb.trans pa, by rw [eb, sa.ret], qb⟩

/-- `return r`: the returned value is set and the procedure returns. -/
theorem run_return {s : State} {op : Op} {o : Operand} {p : Point} {ps : List Point} {r : ResultCode} (hr : Ready s)
    (hs : s.seq = .run op o (p :: ps)) (hret : ∀ r, returnedResult ps r = r)
    (hp : stepPoint op o p ps s = .next ({ s with ret := r }.returnTo op o ps)) :
    ∃ t, Reaches s t ∧ Moved s t [] 0 0 0 ∧ SameTemps s t ∧ t.lineOut = s.lineOut ∧ t.ret = r ∧ t.sbit = s.sbit ∧
      t.pres = s.pres ∧ t.seq = .run op o (resume op ps) :=
  ⟨_, .one ((step_point hr.turns hs).trans hp), moved_assign .., ⟨rfl, rfl, rfl⟩, rfl, hret _, rfl, rfl, rfl⟩

/-- `ds_start_conversion()` without presence (R86): nothing after the failed bus reset. -/
theorem run_startConv_absent {s : State} {op : Op} {o : Operand} {ps : List Point} (hr : Ready s)
    (hs : s.seq = .run op o (.rstDrive :: .scTest :: ps)) (hret : ∀ r, returnedResult ps r = r)
    (hv : s.levelAt 0 = true) :
    ∃ t, Reaches s t ∧ Moved s t (traceReset s.params true) 1 2 (nominalReset s.params true) ∧ SameTemps s t ∧
      t.lineOut = .rel ∧ t.ret = .busAbsent ∧ t.pres = false ∧ t.seq = .run op o (resume op ps) := by
  obtain ⟨a, ra, ma, ba, la, -, pa, qa⟩ := run_reset hr hs fun _ => rfl
  rw [hv] at ma pa
  obtain ⟨b, rb, mb, bb, lb, eb, -, pb, qb⟩ := run_return (r := .busAbsent) (hr.moved ma) qa hret
    (by simp [stepPoint, pa])
  exact ⟨b, ra.trans rb, by simpa using ma.trans mb, ba.temps.trans bb, lb.trans la, eb, pb.trans pa, qb⟩

/-- `ds_start_conversion()` with presence (R86): `SKIP_ROM`, `START_CONV`, `OK`. -/
theorem run_startConv_present {s : State} {op : Op} {o : Operand} {ps : List Point} (hr : Ready s)
    (hs : s.seq = .run op o (.rstDrive :: .scTest :: ps)) (hv : s.levelAt 0 = false) :
    ∃ t, Reaches s t ∧
      Moved s t (traceReset s.params false ++ traceWriteByte s.params 0xCC#8 ++ traceWriteByte s.params 0x44#8) 1 51
        (nominalReset s.params false + 16 * nominalWriteBit s.params) ∧
      SameTemps s t ∧ t.lineOut = .rel ∧ t.ret = .ok ∧ t.pres = true ∧ t.seq = .run op o (resume op ps) := by
  obtain ⟨a, ra, ma, ba, la, -, pa, qa⟩ := run_reset hr hs fun _ => rfl
  rw [hv] at ma pa
  obtain ⟨b, rb, mb, bb, -, -, -, pb, qb⟩ := run_goto (qs := .scSkip :: ps) (hr.moved ma) qa (by simp [stepPoint, pa])
  have mb := ma.trans mb
  obtain ⟨c, rc, mc, sc, -, pc, -, qc⟩ := run_sendWire (v := 0xCC#8) (hr.moved mb) qb rfl
  rw [mb.params] at mc
  have mc := mb.trans mc
  obtain ⟨d, rd, md, sd, ld, pd, ed, qd⟩ := run_sendWire (v := 0x44#8) (hr.moved mc) qc rfl
  rw [mc.params] at md
  have md := mc.trans md
  refine ⟨d, ra.trans (rb.trans (rc.trans rd)), ?_, ba.temps.trans (bb.temps.trans (sc.trans sd)), ld, ed, ?_, qd⟩
  · have h : nominalReset s.params false + 16 * nominalWriteBit s.params =
        nominalReset s.params false + 8 * nominalWriteBit s.params + 8 * nominalWriteBit s.params := by omega
    rw [h]
    simpa using md
  · rw [pd, pc, pb, pa]; rfl

/-- `ds_get_conversion()` without presence (R88): nothing after the failed bus reset. -/
theorem run_getConv_absent {s : State} {op : Op} {o : Operand} {ps : List Point} (hr : Ready s)
    (hs : s.seq = .run op o (.rstDrive :: .gcTest :: ps)) (hret : ∀ r, returnedResult ps r = r)
    (hv : s.levelAt 0 = true) :
    ∃ t, Reaches s t ∧ Moved s t (traceReset s.params true) 1 2 (nominalReset s.params true) ∧ SameTemps s t ∧
      t.lineOut = .rel ∧ t.ret = .busAbsent ∧ t.pres = false ∧ t.seq = .run op o (resume op ps) := by
  obtain ⟨a, ra, ma, ba, la, -, pa, qa⟩ := run_reset hr hs fun _ => rfl
  rw [hv] at ma pa
  obtain ⟨b, rb, mb, bb, lb, eb, -, pb, qb⟩ := run_return (r := .busAbsent) (hr.moved ma) qa hret
    (by simp [stepPoint, pa])
  exact ⟨b, ra.trans rb, by simpa using ma.trans mb, ba.temps.trans bb, lb.trans la, eb, pb.trans pa, qb⟩

/-- `ds_get_conversion()` with presence (R88): `SKIP_ROM`, `READ_SCRATCHPAD`, the two bytes, `OK`. -/
theorem run_getConv_present {s : State} {op : Op} {o : Operand} {ps : List Point} (hr : Ready s)
    (hs : s.seq = .run op o (.rstDrive :: .gcTest :: ps)) (hret : ∀ r, returnedResult ps r = r)
    (hv : s.levelAt 0 = false) :
    ∃ t, Reaches s t ∧
      Moved s t (traceReset s.params false ++ traceWriteByte s.params 0xCC#8 ++ traceWriteByte s.params 0xBE#8 ++
          traceReadByte s.params (s.byteAt 1) ++ traceReadByte s.params (s.byteAt 9)) 17 99
        (nominalReset s.params false + 16 * nominalWriteBit s.params + 16 * nominalReadBit s.params) ∧
      t.polln = s.polln ∧ t.lineOut = .rel ∧ t.lsb = s.byteAt 1 ∧ t.msb = s.byteAt 9 ∧ t.ret = .ok ∧ t.pres = true ∧
      t.seq = .run op o (resume op ps) := by
  obtain ⟨a, ra, ma, ba, la, -, pa, qa⟩ := run_reset hr hs fun _ => rfl
  rw [hv] at ma pa
  obtain ⟨b, rb, mb, bb, -, -, -, pb, qb⟩ := run_goto (qs := .gcSkip :: ps) (hr.moved ma) qa (by simp [stepPoint, pa])
  have mb := ma.trans mb
  obtain ⟨c, rc, mc, sc, -, pc, -, qc⟩ := run_sendWire (v := 0xCC#8) (hr.moved mb) qb rfl
  rw [mb.params] at mc
  have mc := mb.trans mc
  obtain ⟨d, rd, md, sd, -, pd, -, qd⟩ := run_sendWire (v := 0xBE#8) (hr.moved mc) qc rfl
  rw [mc.params] at md
  have md := mc.trans md
  obtain ⟨f, rf, mf, sf, -, hf, -, pf, qf⟩ := run_readByte (hr.moved md) qd fun _ => rfl
  rw [md.drew.byteAt, md.params] at mf
  rw [md.drew.byteAt] at hf
  have mf := md.trans mf
  obtain ⟨g, rg, mg, hg, ng, pg, qg⟩ : ∃ g, Reaches f g ∧ Moved f g [] 0 0 0 ∧ g.lsb = f.shift ∧
      g.polln = f.polln ∧ g.pres = f.pres ∧ g.seq = .run op o (.ryClear :: .gcMsb :: ps) :=
    ⟨_, .one ((step_point (hr.moved mf).turns qf).trans rfl), moved_assign .., rfl, rfl, rfl, rfl⟩
  have mg := mf.trans mg
  obtain ⟨i, ri, mi, si, li, hi, -, pi, qi⟩ := run_readByte (hr.moved mg) qg fun _ => rfl
  rw [mg.drew.byteAt, mg.params] at mi
  rw [mg.drew.byteAt] at hi
  have mi := mg.trans mi
  obtain ⟨j, rj, mj, hj, kj, nj, lj, ej, pj, qj⟩ : ∃ j, Reaches i j ∧ Moved i j [] 0 0 0 ∧ j.msb = i.shift ∧
      j.lsb = i.lsb ∧ j.polln = i.polln ∧ j.lineOut = i.lineOut ∧ j.ret = .ok ∧ j.pres = i.pres ∧
      j.seq = .run op o (resume op ps) :=
    ⟨_, .one ((step_point (hr.moved mi).turns qi).trans rfl), moved_assign .., rfl, rfl, rfl, rfl, hret _, rfl, rfl⟩
  have mj := mi.trans mj
  refine ⟨j, ra.trans (rb.trans (rc.trans (rd.trans (rf.trans (rg.trans (ri.trans rj)))))), ?_, ?_, lj.trans li, ?_, ?_,
    ej, ?_, qj⟩
  · have h : nominalReset s.params false + 16 * nominalWriteBit s.params + 16 * nominalReadBit s.params =
        nominalReset s.params false + 8 * nominalWriteBit s.params + 8 * nominalWriteBit s.params +
          8 * nominalReadBit s.params + 8 * nominalReadBit s.params := by omega
    rw [h]
    simpa using mj
  · rw [nj, si.polln, ng, sf.polln, sd.polln, sc.polln, bb.polln, ba.polln]
  · rw [kj, si.lsb, hg, hf]
  · rw [hj, hi]
  · rw [pj, pi, pg, pf, pd, pc, pb, pa]; rfl

/-! ## Poll loops -/

theorem traceBusyPolls_succ (p : Config.Params) (k : Nat) :
    traceBusyPolls p (k + 1) = traceReadBit p false ++ traceBusyPolls p k := by
  simp [traceBusyPolls, List.replicate_succ]

/-- `k` busy poll slots of the blocking read: the loop stands where it stood (R90). -/
theorem run_busyPolls (k : Nat) : ∀ {s : State} {op : Op} {o : Operand} {ps : List Point}, Ready s →
    s.seq = .run op o (.rbDrive :: .rdPoll :: ps) → (∀ j < k, s.levelAt j = false) →
    ∃ t, Reaches s t ∧ Moved s t (traceBusyPolls s.params k) k (k * 3) (k * nominalReadBit s.params) ∧ SameBytes s t ∧
      t.wbit = s.wbit ∧ t.pres = s.pres ∧ t.seq = .run op o (.rbDrive :: .rdPoll :: ps) := by
  induction k with
  | zero =>
    intro s op o ps hr hs _
    exact ⟨s, .refl s, by simpa [traceBusyPolls] using Moved.refl s, ⟨rfl, rfl, rfl, rfl, rfl, rfl⟩, rfl, rfl, hs⟩
  | succ k ih =>
    intro s op o ps hr hs hv
    obtain ⟨a, ra, ma, ba, -, wa, xa, pa, qa⟩ := run_readBit hr hs
    rw [hv 0 (by omega)] at ma xa
    obtain ⟨v, rv, mv, bv, -, wv, xv, pv, qv⟩ := run_goto (qs := .rdUntil :: ps) (hr.moved ma) qa rfl
    have mv := ma.trans mv
    obtain ⟨b, rb, mb, bb, -, wb, -, pb, qb⟩ := run_goto (qs := .rbDrive :: .rdPoll :: ps) (hr.moved mv) qv
      (by simp [stepPoint, xv, xa])
    have mb := mv.trans mb
    obtain ⟨c, rc, mc, bc, wc, pc, qc⟩ := ih (hr.moved mb) qb (fun j hj => by rw [mb.drew]; exact hv _ (by omega))
    rw [mb.params] at mc
    refine ⟨c, ra.trans (rv.trans (rb.trans rc)), ?_, ba.trans (bv.trans (bb.trans bc)), by rw [wc, wb, wv, wa],
      by rw [pc, pb, pv, pa], qc⟩
    have h := mb.trans mc
    rw [traceBusyPolls_succ]
    simpa [Nat.succ_mul, Nat.add_comm, Nat.add_left_comm] using h

/-- `k` busy poll slots of the bounded read, the limit not reached: the loop stands where it stood and `POLLN` has
counted them (R92). -/
theorem run_countedPolls (k : Nat) : ∀ {s : State} {op : Op} {o : Operand} {ps : List Point}, Ready s →
    s.seq = .run op o (.rbDrive :: .rnPoll :: ps) → s.polln + k < o.asLimit → (∀ j < k, s.levelAt j = false) →
    ∃ t, Reaches s t ∧ Moved s t (traceBusyPolls s.params k) k (k * 3) (k * nominalReadBit s.params) ∧
      t.polln = s.polln + k ∧ t.lsb = s.lsb ∧ t.msb = s.msb ∧ t.ret = s.ret ∧ t.pres = s.pres ∧
      t.seq = .run op o (.rbDrive :: .rnPoll :: ps) := by
  induction k with
  | zero =>
    intro s op o ps hr hs _ _
    exact ⟨s, .refl s, by simpa [traceBusyPolls] using Moved.refl s, rfl, rfl, rfl, rfl, rfl, hs⟩
  | succ k ih =>
    intro s op o ps hr hs hk hv
    obtain ⟨a, ra, ma, ba, -, wa, xa, pa, qa⟩ := run_readBit hr hs
    rw [hv 0 (by omega)] at ma xa
    obtain ⟨v, rv, mv, bv, -, -, xv, pv, qv⟩ := run_goto (qs := .rnInc :: ps) (hr.moved ma) qa rfl
    have ra := ra.trans rv
    have ba := ba.trans bv
    have xa := xv.trans xa
    have pa := pv.trans pa
    have ma := ma.trans mv
    obtain ⟨b, rb, mb, nb, lb, eb, tb, xb, pb, qb⟩ : ∃ b, Reaches v b ∧ Moved v b [] 0 0 0 ∧ b.polln = v.polln + 1 ∧
        b.lsb = v.lsb ∧ b.msb = v.msb ∧ b.ret = v.ret ∧ b.sbit = v.sbit ∧ b.pres = v.pres ∧
        b.seq = .run op o (.rnUntil :: ps) :=
      ⟨_, .one ((step_point (hr.moved ma).turns qv).trans rfl), moved_assign .., rfl, rfl, rfl, rfl, rfl, rfl, rfl⟩
    have mb := ma.trans mb
    have hne : (b.polln == o.asLimit) = false := by
      rw [nb, ba.polln]; exact beq_eq_false_iff_ne.2 (by omega)
    obtain ⟨c, rc, mc, bc, -, -, -, pc, qc⟩ := run_goto (qs := .rbDrive :: .rnPoll :: ps) (hr.moved mb) qb
      (by simp only [stepPoint, xb, xa, hne]; rfl)
    have mc := mb.trans mc
    have hn : c.polln = s.polln + 1 := by rw [bc.polln, nb, ba.polln]
    obtain ⟨d, rd, md, nd, ld, ed, td, pd, qd⟩ := ih (hr.moved mc) qc (by omega)
      (fun j hj => by rw [mc.drew]; exact hv _ (by omega))
    rw [mc.params] at md
    refine ⟨d, ra.trans (rb.trans (rc.trans rd)), ?_, by omega, by rw [ld, bc.lsb, lb, ba.lsb],
      by rw [ed, bc.msb, eb, ba.msb], by rw [td, bc.ret, tb, ba.ret], by rw [pd, pc, pb, pa], qd⟩
    have h := mc.trans md
    rw [traceBusyPolls_succ]
    simpa [Nat.succ_mul, Nat.add_comm, Nat.add_left_comm] using h

end Sys2Proof.Machine
end

