-- ==== Sys2Proof/Laws/Command.lean ====
section
/-! SUPPORT. Acceptance and completion of a command (10_state.md R23, R25): what lies around the procedure of an
operation. -/

namespace Sys2Proof.Machine

/-- A quiet state accepts, and its operation can run undisturbed. -/
theorem Quiet.ready_accept {s : State} (h : Quiet s) (op : Op) (w : Word) : Ready (s.accept op w) :=
  ⟨h.noTurns, h.noDelay⟩

/-- A command written to an idle block is accepted. -/
theorem writeCommand_idle {s : State} (h : Status.busy s.status = false) (op : Op) (w : Word) :
    s.writeCommand op w = s.accept op w := by
  simp [State.writeCommand, h]

/-- A command written while the block is busy is refused (R103). -/
theorem writeCommand_busy {s : State} (h : Status.busy s.status = true) (op : Op) (w : Word) :
    s.writeCommand op w = s.refuseCommand := by
  simp [State.writeCommand, h]

/-- What acceptance does. -/
theorem accepted {s : State} {op : Op} {w : Word} {o : Operand} {start : List Point} (ho : operandOf op w = o)
    (hst : Op.start op = start) : Accepted s (s.accept op w) op o w start := by
  subst ho hst
  exact ⟨rfl, by simp, by simp, by simp, by simp, by simp, by simp⟩

@[simp] theorem accept_levelAt (s : State) (op : Op) (w : Word) (k : Nat) :
    (s.accept op w).levelAt k = s.levelAt k := rfl

@[simp] theorem accept_byteAt (s : State) (op : Op) (w : Word) (k : Nat) : (s.accept op w).byteAt k = s.byteAt k := rfl

/-- The procedure of an accepted operation has returned in `t`, and `u` is `t` after a completion that writes `STATUS`,
`DATA` and `TEMP` only: the operation is finished. -/
theorem finished {s t u : State} {op : Op} {w : Word} {evs : List TraceEvent} {m n d : Nat} {r : ResultCode}
    (hq : Quiet s) (hm : Moved (s.accept op w) t evs m n d) (hl : t.lineOut = .rel)
    (hs : ∃ st, u.status = Status.complete r st ∧ Status.overrun st = Status.overrun t.status)
    (hu : u = { t with
      status := u.status, seq := .idle, trace := t.trace ++ [.done (some op) r], data := u.data, temp := u.temp }) :
    Finished s u op w r evs m n d := by
  obtain ⟨st, hst, ho⟩ := hs
  constructor
  · rw [hu]
  · rw [hu]; exact hl
  · rw [hu]; exact hm.timer.trans hq.noDelay
  · rw [hu]; exact hm.cmd
  · rw [hst]; simp
  · rw [hst]; simp
  · rw [hst]; simp
  · rw [hst]; simp [ho, hm.status]
  · rw [hst]; simp
  · rw [hu]; simp [hm.trace]
  · rw [hu]; exact hm.drew
  · rw [hu]; exact hm.lasted
  · rw [hu]; exact hm.params
  · rw [hu]; exact hm.turns
  · rw [hu]; exact hm.resets
  · rw [hu]; exact hm.reads

/-- The completion of every operation: some result, and at most `DATA`, `TEMP` and `PRESENCE` written from the
sequencer's registers (R72 to R93). -/
theorem closing_moves (op : Op) (held : Bool) (s : State) : ∃ r, closing op held s =
      { s with
        status := Status.complete r (closing op held s).status, seq := .idle, trace := s.trace ++ [.done (some op) r],
        data := (closing op held s).data, temp := (closing op held s).temp } ∧
    (closing op held s).status = Status.complete r (closing op held s).status ∧
    Status.overrun (closing op held s).status = Status.overrun s.status ∧
    ((closing op held s).data = s.data ∨ (op = .owReadBit ∧ (closing op held s).data = zext32Bit s.sbit) ∨
      (op = .owReadByte ∧ (closing op held s).data = zext32Byte s.shift)) ∧
    ((closing op held s).temp = s.temp ∨ (op ∈ [Op.dsGetConversion, .dsRead, .dsReadBounded] ∧ held = true ∧ r = .ok ∧
      (closing op held s).temp = sext32Half (rawTemperature s.msb s.lsb))) := by
  cases op
  case owReset =>
    exact ⟨if held then .ok else .busAbsent, by
      simp [closing, closeOwReset, State.reportPresence, State.complete]⟩
  case owWriteBit | owWriteByte =>
    exact ⟨.ok, by simp [closing, closeOwWriteBit, closeOwWriteByte, State.complete]⟩
  case owReadBit | owReadByte =>
    exact ⟨.ok, by simp [closing, closeOwReadBit, closeOwReadByte, State.setData, State.complete]⟩
  case dsStartConversion =>
    exact ⟨s.ret, by simp [closing, closeDsStartConversion, State.reportPresence, State.complete]⟩
  all_goals
    refine ⟨if held then .ok else s.ret, ?_⟩
    cases held <;>
      simp [closing, closeDsGetConversion, closeDsRead, closeDsReadBounded, State.closeRead, State.complete,
        State.reportPresence, State.setTemp]

/-- The values the completion of every operation writes (R72 to R93). -/
theorem closing_results (op : Op) (held : Bool) (s : State) :
    Status.result (closing op held s).status =
      (if op = .owReset then (if held then .ok else .busAbsent)
      else if Op.isSession op then (if op ≠ .dsStartConversion ∧ held then .ok else s.ret) else .ok) ∧
    Status.presence (closing op held s).status =
      (if op = .owReset ∨ Op.isSession op then s.pres else Status.presence s.status) ∧
    (closing op held s).data =
      (if op = .owReadBit then zext32Bit s.sbit else if op = .owReadByte then zext32Byte s.shift else s.data) ∧
    (closing op held s).temp = (if op ∈ [Op.dsGetConversion, .dsRead, .dsReadBounded] ∧ held then
      sext32Half (rawTemperature s.msb s.lsb) else s.temp) := by
  cases op <;> cases held <;> simp [closing, closeOwReset, closeOwWriteBit, closeOwWriteByte, closeOwReadBit,
    closeOwReadByte, closeDsStartConversion, closeDsGetConversion, closeDsRead, closeDsReadBounded, State.closeRead,
    Op.isSession]

/-- From the return of its procedure an operation completes, and before its last step only the command rule's assignment
and condition happen (R20, R72 to R93). -/
theorem run_complete {s : State} {op : Op} {o : Operand} (hr : Ready s) (hs : s.seq = .run op o (resume op [])) :
    ∃ t, Reaches s (closing op (Op.testHolds op s) t) ∧ Moved s t [] 0 0 0 ∧ SameBytes s t ∧ t.lineOut = s.lineOut ∧
      t.wbit = s.wbit ∧ t.sbit = s.sbit ∧ t.pres = s.pres := by
  obtain ⟨t, rt, mt, bt, lt, wt, st, pt, qt⟩ := run_close hr hs
  exact ⟨t, rt.trans (.one (step_closing (hr.moved mt).turns ⟨o, [], qt⟩)), mt, bt, lt, wt, st, pt⟩

/-- The procedure of an accepted operation has returned in `t`: the operation finishes, with the result and the result
registers its command rule says (R72 to R93). -/
theorem run_finish {s t : State} {op : Op} {o : Operand} {w : Word} {evs : List TraceEvent} {m n d : Nat} (hq : Quiet s)
    (hm : Moved (s.accept op w) t evs m n d) (hl : t.lineOut = .rel) (hs : t.seq = .run op o (resume op [])) :
    ∃ u, Reaches t u ∧
      Finished s u op w
        (if op = .owReset then (if t.pres then .ok else .busAbsent) else if Op.isSession op then t.ret else .ok) evs m n d ∧
      SameBytes t u ∧ u.pres = t.pres ∧
      Status.presence u.status = (if op = .owReset ∨ Op.isSession op then t.pres else Status.presence s.status) ∧
      u.data = (if op = .owReadBit then zext32Bit t.sbit else if op = .owReadByte then zext32Byte t.shift else s.data) ∧
      u.temp = (if op ∈ [Op.dsGetConversion, .dsRead, .dsReadBounded] ∧ t.ret = .ok then
        sext32Half (rawTemperature t.msb t.lsb) else s.temp) := by
  obtain ⟨v, rv, mv, bv, lv, -, xv, pv⟩ := run_complete ((hq.ready_accept op w).moved hm) hs
  have mv := hm.trans mv
  simp only [List.append_nil, Nat.add_zero] at mv
  obtain ⟨r, hc, hst, hov, -, -⟩ := closing_moves op (Op.testHolds op t) v
  obtain ⟨h1, h2, h3, h4⟩ := closing_results op (Op.testHolds op t) v
  have hr : Status.result (closing op (Op.testHolds op t) v).status = r := by rw [hst]; simp
  have hp : Status.presence v.status = Status.presence s.status := by rw [mv.status]; simp
  have hd : v.data = s.data := mv.data
  have ht : v.temp = s.temp := mv.temp
  have hb : SameBytes t (closing op (Op.testHolds op t) v) := by
    rw [hc]; exact ⟨bv.1, bv.2, bv.3, bv.4, bv.5, bv.6⟩
  refine ⟨_, rv, ?_, hb, by rw [hc]; exact pv, by rw [h2, pv, hp], by rw [h3, xv, bv.shift, hd], ?_⟩
  · convert finished hq mv (lv.trans hl) ⟨_, hst, hov⟩ ?_ using 1
    · rw [← hr, h1, bv.ret]
      cases op <;> simp [Op.testHolds, Op.isSession] <;> cases t.ret <;> rfl
    · exact hc.trans (by rw [← hst])
  · rw [h4, bv.msb, bv.lsb, ht]
    cases op <;> simp [Op.testHolds]

end Sys2Proof.Machine
end

