-- ==== Sys2Proof/Laws/Decode.lean ====
section
/-! SUPPORT. The command word as its fields, what each row of R56 accepts in terms of them, and what the decoder answers
to each. -/

namespace Sys2Proof

/-- A command word from all four of its fields, the reserved one included (R54). -/
def wordOf (limit : Half) (v : Byte) (rsv op : BitVec 4) : Word := limit ++ v ++ rsv ++ op

theorem append_eq_iff {m n : Nat} (a c : BitVec m) (b d : BitVec n) : a ++ b = c ++ d ↔ a = c ∧ b = d := by
  constructor
  · intro h
    refine ⟨?_, ?_⟩
    · apply BitVec.eq_of_getLsbD_eq
      intro i hi
      have := congrArg (fun x => x.getLsbD (n + i)) h
      simpa [BitVec.getLsbD_append] using this
    · apply BitVec.eq_of_getLsbD_eq
      intro i hi
      have := congrArg (fun x => x.getLsbD i) h
      simpa [BitVec.getLsbD_append, hi] using this
  · rintro ⟨rfl, rfl⟩; rfl

theorem append_and_append {m n : Nat} (a c : BitVec m) (b d : BitVec n) :
    (a ++ b) &&& (c ++ d) = (a &&& c) ++ (b &&& d) := by
  apply BitVec.eq_of_getLsbD_eq
  intro i hi
  simp only [BitVec.getLsbD_and, BitVec.getLsbD_append]
  split <;> rfl

theorem wordOf_inj (l l' : Half) (v v' : Byte) (r r' o o' : BitVec 4) :
    wordOf l v r o = wordOf l' v' r' o' ↔ l = l' ∧ v = v' ∧ r = r' ∧ o = o' := by
  refine (append_eq_iff (l ++ v ++ r) (l' ++ v' ++ r') o o').trans ?_
  rw [append_eq_iff, append_eq_iff, and_assoc, and_assoc]

theorem wordOf_and (l l' : Half) (v v' : Byte) (r r' o o' : BitVec 4) :
    wordOf l v r o &&& wordOf l' v' r' o' = wordOf (l &&& l') (v &&& v') (r &&& r') (o &&& o') := by
  refine (append_and_append (l ++ v ++ r) (l' ++ v' ++ r') o o').trans ?_
  rw [append_and_append, append_and_append]
  rfl

/-- Bit `i` of a word from its fields. -/
theorem getLsbD_wordOf (l : Half) (v : Byte) (r o : BitVec 4) (i : Nat) :
    (wordOf l v r o).getLsbD i =
      if i < 4 then o.getLsbD i
      else if i < 8 then r.getLsbD (i - 4)
      else if i < 16 then v.getLsbD (i - 8)
      else l.getLsbD (i - 16) := by
  refine (BitVec.getLsbD_append (x := l ++ v ++ r) (y := o) (i := i)).trans ?_
  rw [BitVec.getLsbD_append, BitVec.getLsbD_append]
  by_cases h0 : i < 4
  · simp [h0]
  · by_cases h1 : i < 8
    · simp [h0, h1, show i - 4 < 4 by omega]
    · by_cases h2 : i < 16
      · simp [h0, h1, h2, show ¬ i - 4 < 4 by omega, show i - 4 - 4 = i - 8 by omega,
          show i - 8 < 8 by omega]
      · simp [h0, h1, h2, show ¬ i - 4 < 4 by omega, show ¬ i - 4 - 4 < 8 by omega, show i - 4 - 4 - 8 = i - 16 by omega]

@[simp] theorem fieldOp_wordOf (l : Half) (v : Byte) (r o : BitVec 4) : fieldOp (wordOf l v r o) = o := by
  apply BitVec.eq_of_getLsbD_eq
  intro i hi
  simp only [fieldOp, BitVec.getLsbD_extractLsb', getLsbD_wordOf]
  simp [hi]

@[simp] theorem fieldV_wordOf (l : Half) (v : Byte) (r o : BitVec 4) : fieldV (wordOf l v r o) = v := by
  apply BitVec.eq_of_getLsbD_eq
  intro i hi
  simp only [fieldV, BitVec.getLsbD_extractLsb', getLsbD_wordOf]
  simp [hi, show ¬ 8 + i < 4 by omega, show 8 + i < 16 by omega]

@[simp] theorem fieldLimit_wordOf (l : Half) (v : Byte) (r o : BitVec 4) : fieldLimit (wordOf l v r o) = l := by
  apply BitVec.eq_of_getLsbD_eq
  intro i hi
  simp only [fieldLimit, BitVec.getLsbD_extractLsb', getLsbD_wordOf]
  simp [hi, show ¬ 16 + i < 4 by omega, show ¬ 16 + i < 8 by omega]

@[simp] theorem fieldRsv_wordOf (l : Half) (v : Byte) (r o : BitVec 4) : (wordOf l v r o).extractLsb' 4 4 = r := by
  apply BitVec.eq_of_getLsbD_eq
  intro i hi
  simp only [BitVec.getLsbD_extractLsb', getLsbD_wordOf]
  simp [hi, show 4 + i < 8 by omega]

@[simp] theorem fieldB_wordOf (l : Half) (v : Byte) (r o : BitVec 4) :
    fieldB (wordOf l v r o) = v.getLsbD 0 := by
  simp only [fieldB, getLsbD_wordOf]; rfl

theorem fieldLimit_def (w : Word) : w.extractLsb' 16 16 = fieldLimit w := rfl

/-- Every word is made of its fields. -/
theorem wordOf_fields (w : Word) : wordOf (fieldLimit w) (fieldV w) (w.extractLsb' 4 4) (fieldOp w) = w := by
  apply BitVec.eq_of_getLsbD_eq
  intro i hi
  rw [getLsbD_wordOf]
  simp only [fieldLimit, fieldV, fieldOp, BitVec.getLsbD_extractLsb']
  by_cases h0 : i < 4
  · simp [h0]
  · by_cases h1 : i < 8
    · simp [h0, h1, show i - 4 < 4 by omega, show 4 + (i - 4) = i by omega]
    · by_cases h2 : i < 16
      · simp [h0, h1, h2, show i - 8 < 8 by omega, show 8 + (i - 8) = i by omega]
      · simp [h0, h1, h2, show i - 16 < 16 by omega, show 16 + (i - 16) = i by omega]

theorem layoutCommand_eq (l : Half) (v : Byte) (o : BitVec 4) : layoutCommand l v o = wordOf l v 0 o := rfl

/-! ## What each row accepts, in terms of the fields -/

section rows
variable (l : Half) (v : Byte) (r o : BitVec 4)

theorem and_full (k : BitVec 4) :
    (wordOf l v r o &&& 0xFFFFFFFF#32 = wordOf 0 0 0 k) ↔ (l = 0 ∧ v = 0 ∧ r = 0 ∧ o = k) := by
  rw [show (0xFFFFFFFF#32) = wordOf (BitVec.allOnes 16) (BitVec.allOnes 8) (BitVec.allOnes 4) (BitVec.allOnes 4) by
    decide, wordOf_and, wordOf_inj]
  simp only [BitVec.and_allOnes]

theorem and_writeBit :
    (wordOf l v r o &&& 0xFFFFFEFF#32 = 0x00000002#32) ↔ (l = 0 ∧ v &&& 0xFE#8 = 0 ∧ r = 0 ∧ o = 2) := by
  rw [show (0xFFFFFEFF#32) = wordOf (BitVec.allOnes 16) 0xFE#8 (BitVec.allOnes 4) (BitVec.allOnes 4) by decide,
    show (0x00000002#32) = wordOf 0 0 0 2 by decide, wordOf_and, wordOf_inj]
  simp only [BitVec.and_allOnes]

theorem and_writeByte :
    (wordOf l v r o &&& 0xFFFF00FF#32 = 0x00000003#32) ↔ (l = 0 ∧ r = 0 ∧ o = 3) := by
  rw [show (0xFFFF00FF#32) = wordOf (BitVec.allOnes 16) 0 (BitVec.allOnes 4) (BitVec.allOnes 4) by decide,
    show (0x00000003#32) = wordOf 0 0 0 3 by decide, wordOf_and, wordOf_inj]
  simp only [BitVec.and_allOnes]
  simp

theorem and_readBounded :
    (wordOf l v r o &&& 0x0000FFFF#32 = 0x00000009#32) ↔ (v = 0 ∧ r = 0 ∧ o = 9) := by
  rw [show (0x0000FFFF#32) = wordOf 0 (BitVec.allOnes 8) (BitVec.allOnes 4) (BitVec.allOnes 4) by decide,
    show (0x00000009#32) = wordOf 0 0 0 9 by decide, wordOf_and, wordOf_inj]
  simp only [BitVec.and_allOnes]
  simp

end rows

/-- R57 by the fields: what the decoder answers to a word with these fields. -/
theorem decodeCommand_wordOf (l : Half) (v : Byte) (r o : BitVec 4) :
    decodeCommand (wordOf l v r o) =
      if l = 0 ∧ v = 0 ∧ r = 0 ∧ o = 1 then .ok .owreset
      else if l = 0 ∧ v &&& 0xFE#8 = 0 ∧ r = 0 ∧ o = 2 then .ok (.owwbit (v.getLsbD 0))
      else if l = 0 ∧ r = 0 ∧ o = 3 then .ok (.owwbyte v)
      else if l = 0 ∧ v = 0 ∧ r = 0 ∧ o = 4 then .ok .owrbit
      else if l = 0 ∧ v = 0 ∧ r = 0 ∧ o = 5 then .ok .owrbyte
      else if l = 0 ∧ v = 0 ∧ r = 0 ∧ o = 6 then .ok .dsconv
      else if l = 0 ∧ v = 0 ∧ r = 0 ∧ o = 7 then .ok .dsget
      else if l = 0 ∧ v = 0 ∧ r = 0 ∧ o = 8 then .ok .dsread
      else if (v = 0 ∧ r = 0 ∧ o = 9) ∧ l ≠ 0 then .ok (.dsreadb l)
      else .error (illegalReason (wordOf l v r o)) := by
  have a1 : (wordOf l v r o &&& 0xFFFFFFFF#32 == 0x00000001#32) = true ↔ _ := beq_iff_eq.trans (and_full l v r o 1)
  have a2 : (wordOf l v r o &&& 0xFFFFFEFF#32 == 0x00000002#32) = true ↔ _ := beq_iff_eq.trans (and_writeBit l v r o)
  have a3 : (wordOf l v r o &&& 0xFFFF00FF#32 == 0x00000003#32) = true ↔ _ := beq_iff_eq.trans (and_writeByte l v r o)
  have a4 : (wordOf l v r o &&& 0xFFFFFFFF#32 == 0x00000004#32) = true ↔ _ := beq_iff_eq.trans (and_full l v r o 4)
  have a5 : (wordOf l v r o &&& 0xFFFFFFFF#32 == 0x00000005#32) = true ↔ _ := beq_iff_eq.trans (and_full l v r o 5)
  have a6 : (wordOf l v r o &&& 0xFFFFFFFF#32 == 0x00000006#32) = true ↔ _ := beq_iff_eq.trans (and_full l v r o 6)
  have a7 : (wordOf l v r o &&& 0xFFFFFFFF#32 == 0x00000007#32) = true ↔ _ := beq_iff_eq.trans (and_full l v r o 7)
  have a8 : (wordOf l v r o &&& 0xFFFFFFFF#32 == 0x00000008#32) = true ↔ _ := beq_iff_eq.trans (and_full l v r o 8)
  have a9 : (wordOf l v r o &&& 0x0000FFFF#32 == 0x00000009#32) = true ↔ _ :=
    beq_iff_eq.trans (and_readBounded l v r o)
  have a0 : (l != 0#16) = true ↔ l ≠ 0 := bne_iff_ne
  simp only [← a1, ← a2, ← a3, ← a4, ← a5, ← a6, ← a7, ← a8, ← a9, ← a0]
  simp only [decodeCommand, commandRows, List.find?, CommandRow.accepts, rowExtra, limitOk, Bool.and_true,
    fieldLimit_wordOf]
  clear a0 a1 a2 a3 a4 a5 a6 a7 a8 a9
  generalize (wordOf l v r o &&& 0xFFFFFFFF#32 == 0x00000001#32) = b1
  generalize (wordOf l v r o &&& 0xFFFFFEFF#32 == 0x00000002#32) = b2
  generalize (wordOf l v r o &&& 0xFFFF00FF#32 == 0x00000003#32) = b3
  generalize (wordOf l v r o &&& 0xFFFFFFFF#32 == 0x00000004#32) = b4
  generalize (wordOf l v r o &&& 0xFFFFFFFF#32 == 0x00000005#32) = b5
  generalize (wordOf l v r o &&& 0xFFFFFFFF#32 == 0x00000006#32) = b6
  generalize (wordOf l v r o &&& 0xFFFFFFFF#32 == 0x00000007#32) = b7
  generalize (wordOf l v r o &&& 0xFFFFFFFF#32 == 0x00000008#32) = b8
  generalize (wordOf l v r o &&& 0x0000FFFF#32 == 0x00000009#32) = b9
  generalize (l != 0#16) = b0
  cases b1
  · cases b2
    · cases b3
      · cases b4
        · cases b5
          · cases b6
            · cases b7
              · cases b8
                · cases b9
                  · rfl
                  · cases b0
                    · rfl
                    · simp [Op.instr]
                · rfl
              · rfl
            · rfl
          · rfl
        · rfl
      · simp [Op.instr]
    · simp [Op.instr]
  · rfl

/-- A word that decodes is accepted by the row of the instruction it decodes to (R57). -/
theorem decodeCommand_ok {w : Word} {i : Instr} (h : decodeCommand w = .ok i) :
    ∃ r ∈ commandRows, r.accepts w = true ∧ i = r.op.instr w := by
  unfold decodeCommand at h
  split at h
  · cases h
    rename_i hf
    exact ⟨_, List.mem_of_find?_eq_some hf, by simpa using List.find?_some hf, rfl⟩
  · cases h

/-- A word latched for `DS_READ_BOUNDED` has a limit (R58). -/
theorem limitOk_of_decode {w : Word} {l : Half} (h : decodeCommand w = .ok (.dsreadb l)) :
    l = fieldLimit w ∧ limitOk l = true := by
  obtain ⟨⟨op, pat, mask⟩, -, hr, hi⟩ := decodeCommand_ok h
  cases op <;> simp only [Op.instr, reduceCtorEq, Instr.dsreadb.injEq] at hi
  simp only [CommandRow.accepts, rowExtra, Bool.and_eq_true] at hr
  exact ⟨hi, hi ▸ hr.2⟩

end Sys2Proof
end

