-- ==== Sys2Proof/Laws/Moves.lean ====
section
/-! SUPPORT. Everything one move can do: a sample, a point of the sequencer, a host access, a step. -/

namespace Sys2Proof.Machine

/-! ## A sample -/

/-- A sample that is taken was taken with the line released. -/
theorem sample_next {s t : State} {q : Seq} (e : s.sample q = .next t) :
    s.lineOut = .rel ∧ t = { s.takeSample with seq := q } := by
  unfold State.sample at e
  split at e
  · cases e; exact ⟨‹_›, rfl⟩
  · cases e

/-! ## A point of the sequencer -/

/-- What a step at a point can change at all: it leaves the host registers, the parameters and the inputs' settings, the
operation goes on, at most one event joins the trace, with none the line stays and no time passes, and the line changes
only with its event. -/
structure PointMove (s t : State) (op : Op) (o : Operand) : Prop where
  runs : ∃ ps, t.seq = .run op o ps
  params : t.params = s.params
  turns : t.turns = s.turns
  resets : t.resets = s.resets
  reads : t.reads = s.reads
  cmd : t.cmd = s.cmd
  status : t.status = s.status
  data : t.data = s.data
  temp : t.temp = s.temp
  timer : s.timer = 0 → t.timer = 0
  trace : (t.trace = s.trace ∧ t.elapsed = s.elapsed ∧ t.samples = s.samples ∧ t.lineOut = s.lineOut) ∨
    ∃ e, t.trace = s.trace ++ [e]
  line : t.lineOut = s.lineOut ∨ (t.lineOut = .low ∧ t.trace = s.trace ++ [.low]) ∨
    (t.lineOut = .rel ∧ t.trace = s.trace ++ [.rel]) ∨
    ∃ b, t.lineOut = setLineOut s.params.write1Drive b ∧ t.trace = s.trace ++ [.set b]

theorem pointMove_assign (s : State) (op : Op) (o : Operand) (ps : List Point) (sh : Byte) (bi : Nat) (ls ms : Byte)
    (po : Nat) (pr wb sb : Bit) (re : ResultCode) :
    PointMove s { s with
      seq := .run op o ps, shift := sh, biti := bi, lsb := ls, msb := ms, polln := po, pres := pr, wbit := wb,
      sbit := sb, ret := re } op o :=
  ⟨⟨_, rfl⟩, rfl, rfl, rfl, rfl, rfl, rfl, rfl, rfl, id, .inl ⟨rfl, rfl, rfl, rfl⟩, .inl rfl⟩

/-- Every step at a point but the completion moves so. -/
theorem stepPoint_moves {s t : State} {op : Op} {o : Operand} {p : Point} {ps : List Point}
    (hp : ∀ held, p ≠ lastPoint held) (hs : s.seq = .run op o (p :: ps)) (e : stepPoint op o p ps s = .next t) : PointMove s t op o := by
  cases p
  case rstDrive | wbDrive | rbDrive =>
    cases e
    exact ⟨⟨_, rfl⟩, rfl, rfl, rfl, rfl, rfl, rfl, rfl, rfl, id, .inr ⟨_, rfl⟩, .inr (.inl ⟨rfl, rfl⟩)⟩
  case rstRel | wbRel | rbRel =>
    cases e
    exact ⟨⟨_, rfl⟩, rfl, rfl, rfl, rfl, rfl, rfl, rfl, rfl, id, .inr ⟨_, rfl⟩, .inr (.inr (.inl ⟨rfl, rfl⟩))⟩
  case wbSet =>
    cases e
    exact ⟨⟨_, rfl⟩, rfl, rfl, rfl, rfl, rfl, rfl, rfl, rfl, id, .inr ⟨_, rfl⟩,
      .inr (.inr (.inr ⟨slotBit o s.wbit ps, rfl, rfl⟩))⟩
  case rstLow | rstPds | rstHold | wbLow | wbHold | wbRec | rbLow | rbPre | rbPost =>
    cases e
    exact ⟨⟨_, rfl⟩, rfl, rfl, rfl, rfl, rfl, rfl, rfl, rfl, fun _ => rfl, .inr ⟨_, rfl⟩, .inl rfl⟩
  case rstSample | rbSample =>
    obtain ⟨-, rfl⟩ := sample_next e
    exact ⟨⟨_, rfl⟩, rfl, rfl, rfl, rfl, rfl, rfl, rfl, rfl, id, .inr ⟨_, rfl⟩, .inl rfl⟩
  case scSkip | scConv | gcSkip | gcRead =>
    simp only [stepPoint, callWriteByte_run _ hs] at e
    cases e
    exact pointMove_assign ..
  case wyNext | ryNext | scTest | gcTest | rdTest | rnTest | rnAfter =>
    cases e
    split <;> exact pointMove_assign ..
  case cmdOk => exact absurd rfl (hp true)
  case cmdDone => exact absurd rfl (hp false)
  all_goals
    cases e
    exact pointMove_assign ..

/-! ## What a point does not read -/

/-- The host's side of a state: `STATUS`, the reads and the turns. -/
def State.withHost (st : Word) (rd : List Word) (ts : List Turn) (s : State) : State :=
  { s with status := st, reads := rd, turns := ts }

/-- An outcome with its next state changed. -/
def mapNext (f : State → State) : Outcome → Outcome
  | .next t => .next (f t)
  | .fault a => .fault a
  | .refused a => .refused a

/-- A step at a point but the completion neither reads nor writes the host's side: it commutes with any change of it
(R49). -/
theorem stepPoint_withHost (st : Word) (rd : List Word) (ts : List Turn) {s : State} {op : Op} {o : Operand}
    {p : Point} {ps : List Point} (hp : ∀ held, p ≠ lastPoint held) (hs : s.seq = .run op o (p :: ps)) :
    stepPoint op o p ps (s.withHost st rd ts) = mapNext (State.withHost st rd ts) (stepPoint op o p ps s) := by
  cases p
  case rstSample | rbSample =>
    simp only [stepPoint, State.sample, show (s.withHost st rd ts).lineOut = s.lineOut from rfl]
    split <;> rfl
  case scSkip | scConv | gcSkip | gcRead =>
    simp only [stepPoint, State.callWriteByte, hs, mapNext, show (s.withHost st rd ts).seq = s.seq from rfl]
    rfl
  case wyNext | ryNext | scTest | gcTest | rdTest | rnTest | rnAfter =>
    simp only [stepPoint, mapNext, apply_ite (State.withHost st rd ts)]
    rfl
  case cmdOk => exact absurd rfl (hp true)
  case cmdDone => exact absurd rfl (hp false)
  all_goals rfl

/-! ## A host access -/

/-- A command word that decodes selects an operation, and its meaning writes that word to `CMD`. -/
theorem exec_decoded {w : Word} {i : Instr} (h : decodeCommand w = .ok i) (s : State) :
    ∃ op : Op, decodeCommand w = .ok (op.instr w) ∧ exec i s = .next (s.writeCommand op w) := by
  obtain ⟨r, hr, ha, rfl⟩ := decodeCommand_ok h
  have hw := wordOf_fields w
  have next {op : Op} {a b : Word} (h : a = b) : (Host.Outcome.next (s.writeCommand op a) : Outcome) =
      .next (s.writeCommand op b) := by rw [h]
  have full (k : BitVec 4) (hk : w &&& 0xFFFFFFFF#32 = wordOf 0 0 0 k) : layoutCommand 0 0 k = w := by
    rw [← hw] at hk
    obtain ⟨h1, h2, h3, h4⟩ := (and_full _ _ _ _ k).1 hk
    rw [layoutCommand_eq, ← hw, h1, h2, h3, h4]
  simp only [commandRows, List.mem_cons, List.not_mem_nil, or_false] at hr
  simp only [CommandRow.accepts, Bool.and_eq_true, beq_iff_eq] at ha
  rcases hr with rfl | rfl | rfl | rfl | rfl | rfl | rfl | rfl | rfl
  case inl => exact ⟨_, h, next (full 1 ha.1)⟩
  case inr.inl =>
    have ha := ha.1
    rw [← hw] at ha
    obtain ⟨h1, h2, h3, h4⟩ := (and_writeBit _ _ _ _).1 ha
    refine ⟨_, h, next ?_⟩
    rw [wordOwwbit, layoutCommand_eq]
    conv_rhs => rw [← hw, h1, h3, h4]
    congr 1
    have hb : fieldB w = (fieldV w).getLsbD 0 := by simp [fieldB, fieldV]
    rw [hb]
    revert h2
    generalize fieldV w = v
    revert v
    decide
  case inr.inr.inl =>
    have ha := ha.1
    rw [← hw] at ha
    obtain ⟨h1, h2, h3⟩ := (and_writeByte _ _ _ _).1 ha
    refine ⟨_, h, next ?_⟩
    rw [wordOwwbyte, layoutCommand_eq]
    conv_rhs => rw [← hw, h1, h2, h3]
    rfl
  case inr.inr.inr.inl => exact ⟨_, h, next (full 4 ha.1)⟩
  case inr.inr.inr.inr.inl => exact ⟨_, h, next (full 5 ha.1)⟩
  case inr.inr.inr.inr.inr.inl => exact ⟨_, h, next (full 6 ha.1)⟩
  case inr.inr.inr.inr.inr.inr.inl => exact ⟨_, h, next (full 7 ha.1)⟩
  case inr.inr.inr.inr.inr.inr.inr.inl =>
    exact ⟨_, h, next (full 8 ha.1)⟩
  case inr.inr.inr.inr.inr.inr.inr.inr =>
    have ha' := ha.1
    rw [← hw] at ha'
    obtain ⟨h1, h2, h3⟩ := (and_readBounded _ _ _ _).1 ha'
    refine ⟨_, h, (if_pos ha.2).trans (next ?_)⟩
    rw [wordDsreadb, layoutCommand_eq]
    conv_rhs => rw [← hw, h1, h2, h3]
    rfl

/-- What a host access does, as an outcome. -/
def hostStep (a : HostAccess) (s : State) : Outcome :=
  match hostTurn a s with
  | .instr i t => exec i t
  | .other o => o

theorem step_host {s : State} {a : HostAccess} {ts : List Turn} (h : s.turns = .host a :: ts) :
    step s = hostStep a { s with turns := ts } := by
  unfold step hostStep; rw [fetch_host h] <;> rfl

/-- The cases of a host access: refused, a read, a write to `CMD` of a legal or an illegal word, a write to `STATUS`, a
write without effect (R36 to R39). -/
theorem hostStep_cases (a : HostAccess) (s : State) :
    hostStep a s = .refused .notAnAccess ∨ (∃ r, hostStep a s = .next (s.hostRead r)) ∨
    (∃ addr width v, a = .write addr width v ∧
      ((hostReg s.params.base addr width = some .cmd ∧
          ((∃ op : Op, decodeCommand v = .ok (op.instr v) ∧ hostStep a s = .next (s.writeCommand op v)) ∨
            ∃ e, decodeCommand v = .error e ∧ hostStep a s = .next (s.writeIllegal v))) ∨
        (hostReg s.params.base addr width = some .status ∧ hostStep a s = .next (s.writeStatus v)) ∨
        hostStep a s = .next s)) := by
  cases a with
  | read addr width =>
    cases h : hostReg s.params.base addr width with
    | none => exact .inl (by simp [hostStep, hostTurn, h])
    | some r => exact .inr (.inl ⟨r, by simp [hostStep, hostTurn, h]⟩)
  | write addr width v =>
    cases h : hostReg s.params.base addr width with
    | none => exact .inl (by simp [hostStep, hostTurn, h])
    | some r =>
      refine .inr (.inr ⟨addr, width, v, rfl, ?_⟩)
      cases r with
      | cmd =>
        refine .inl ⟨h, ?_⟩
        cases hd : decodeCommand v with
        | ok i =>
          obtain ⟨op, h1, h2⟩ := exec_decoded hd s
          exact .inl ⟨op, hd.symm.trans h1, by simp [hostStep, hostTurn, h, hd, h2]⟩
        | error e => exact .inr ⟨e, rfl, by simp [hostStep, hostTurn, h, hd]⟩
      | status => exact .inr (.inl ⟨h, by simp [hostStep, hostTurn, h]⟩)
      | data => exact .inr (.inr (by simp [hostStep, hostTurn, h]))
      | temp => exact .inr (.inr (by simp [hostStep, hostTurn, h]))

/-- The accesses that reach no register (R37). -/
theorem hostReg_none {base addr width : Nat} : hostReg base addr width = none ↔
    ¬ (width = 4 ∧ addr ∈ [base, base + 4, base + 8, base + 12]) := by
  by_cases h : width = 4
  · by_cases h0 : addr = base
    · simp [hostReg, HostReg.offset, h, h0]
    by_cases h1 : addr = base + 4
    · simp [hostReg, HostReg.offset, h, h1]
    by_cases h2 : addr = base + 8
    · simp [hostReg, HostReg.offset, h, h2]
    by_cases h3 : addr = base + 12
    · simp [hostReg, HostReg.offset, h, h3]
    simp [hostReg, HostReg.offset, h, h0, h1, h2, h3]
  · simp [hostReg, h]

/-! ## A step, by whose turn it is -/

/-- A step that leads on is the block's move, a host poll, a block reset or a host access. -/
theorem step_cases {s t : State} (e : step s = .next t) :
    (∃ ts, (s.turns = .block :: ts ∨ s.turns = [] ∧ ts = []) ∧ blockStep { s with turns := ts } = .next t) ∨
    (∃ ts, s.turns = .wait :: ts ∧ t = waitTurn { s with turns := ts }) ∨
    (∃ ts, s.turns = .blockReset :: ts ∧ t = { s with turns := ts }.blockReset) ∨
    (∃ a ts, s.turns = .host a :: ts ∧ hostStep a { s with turns := ts } = .next t) := by
  match ht : s.turns with
  | [] => rw [step_noTurns ht] at e; exact .inl ⟨[], .inr ⟨rfl, rfl⟩, by rw [← e, ← ht]⟩
  | .block :: ts => rw [step_block ht] at e; exact .inl ⟨ts, .inl rfl, e⟩
  | .wait :: ts => rw [step_wait ht] at e; cases e; exact .inr (.inl ⟨ts, rfl, rfl⟩)
  | .blockReset :: ts => rw [step_blockReset ht] at e; cases e; exact .inr (.inr (.inl ⟨ts, rfl, rfl⟩))
  | .host a :: ts => rw [step_host ht] at e; exact .inr (.inr (.inr ⟨a, ts, rfl, e⟩))

/-- Either a point is the last of an operation, or it is not. -/
theorem lastPoint_cases (p : Point) : (∃ held, p = lastPoint held) ∨ ∀ held, p ≠ lastPoint held := by
  by_cases h : ∃ held, p = lastPoint held
  · exact .inl h
  · exact .inr fun held hp => h ⟨held, hp⟩

/-- The block's move that leads on: nothing when idle, the completion, or a move of the sequencer. -/
theorem blockStep_cases {s t : State} (e : blockStep s = .next t) :
    (s.seq = .idle ∧ t = s) ∨ (∃ op held, Completing s op held ∧ t = closing op held s) ∨
    (∃ op o ps, s.seq = .run op o ps ∧ PointMove s t op o) := by
  match hs : s.seq with
  | .idle => rw [blockStep_idle hs] at e; cases e; exact .inl ⟨rfl, rfl⟩
  | .run op o [] =>
    rw [blockStep_empty hs] at e; cases e
    exact .inr (.inr ⟨op, o, [], rfl, pointMove_assign ..⟩)
  | .run op o (p :: ps) =>
    rcases lastPoint_cases p with ⟨held, rfl⟩ | hp
    · have hc : Completing s op held := ⟨o, ps, hs⟩
      rw [blockStep_closing hc] at e; cases e
      exact .inr (.inl ⟨op, held, hc, rfl⟩)
    · rw [blockStep_point hs] at e
      exact .inr (.inr ⟨op, o, p :: ps, rfl, stepPoint_moves hp hs e⟩)

/-- The access that reaches `STATUS` (R36). -/
theorem hostReg_status {base addr width : Nat} (h : hostReg base addr width = some .status) :
    addr = base + 4 ∧ width = 4 := by
  unfold hostReg at h
  repeat' split at h
  all_goals simp_all [HostReg.offset]

/-- The access that reaches `CMD` (R36). -/
theorem hostReg_cmd {base addr width : Nat} (h : hostReg base addr width = some .cmd) : addr = base ∧ width = 4 := by
  unfold hostReg at h
  repeat' split at h
  all_goals simp_all [HostReg.offset]

/-- Everything a step can do, by who moves: the idle block, a completion, another point; the host's `wait`; a block reset; a
host read, a legal or an illegal command, a write to `STATUS`, a write without effect. -/
theorem step_moves {s t : State} (e : step s = .next t) :
    (∃ ts, (s.turns = .block :: ts ∨ s.turns = [] ∧ ts = []) ∧
      ((s.seq = .idle ∧ t = { s with turns := ts }) ∨
        (∃ op held, Completing s op held ∧ t = closing op held { s with turns := ts }) ∨
        (∃ op o ps, s.seq = .run op o ps ∧ PointMove { s with turns := ts } t op o))) ∨
    (∃ ts, s.turns = .wait :: ts ∧ t = waitTurn { s with turns := ts }) ∨
    (∃ ts, s.turns = .blockReset :: ts ∧ t = { s with turns := ts }.blockReset) ∨
    (∃ ts a r, s.turns = .host a :: ts ∧ t = { s with turns := ts }.hostRead r) ∨
    (∃ ts v op, s.turns = .host (.write s.params.base 4 v) :: ts ∧ decodeCommand v = .ok (Op.instr op v) ∧
      t = { s with turns := ts }.writeCommand op v) ∨
    (∃ ts v er, s.turns = .host (.write s.params.base 4 v) :: ts ∧ decodeCommand v = .error er ∧
      t = { s with turns := ts }.writeIllegal v) ∨
    (∃ ts v, s.turns = .host (.write (s.params.base + 4) 4 v) :: ts ∧ t = { s with turns := ts }.writeStatus v) ∨
    (∃ ts a, s.turns = .host a :: ts ∧ t = { s with turns := ts }) := by
  rcases step_cases e with ⟨ts, h, e⟩ | h | h | ⟨a, ts, h, e⟩
  · exact .inl ⟨ts, h, blockStep_cases e⟩
  · exact .inr (.inl h)
  · exact .inr (.inr (.inl h))
  · rcases hostStep_cases a { s with turns := ts } with hh | ⟨r, hh⟩ |
        ⟨addr, width, v, rfl, ⟨hc, ⟨op, hd, hh⟩ | ⟨er, hd, hh⟩⟩ | ⟨hc, hh⟩ | hh⟩ <;>
      rw [hh] at e <;> cases e
    · exact .inr (.inr (.inr (.inl ⟨ts, a, r, h, rfl⟩)))
    · obtain ⟨rfl, rfl⟩ := hostReg_cmd hc
      exact .inr (.inr (.inr (.inr (.inl ⟨ts, v, op, h, hd, rfl⟩))))
    · obtain ⟨rfl, rfl⟩ := hostReg_cmd hc
      exact .inr (.inr (.inr (.inr (.inr (.inl ⟨ts, v, er, h, hd, rfl⟩)))))
    · obtain ⟨rfl, rfl⟩ := hostReg_status hc
      exact .inr (.inr (.inr (.inr (.inr (.inr (.inl ⟨ts, v, h, rfl⟩))))))
    · exact .inr (.inr (.inr (.inr (.inr (.inr (.inr ⟨ts, _, h, rfl⟩))))))

end Sys2Proof.Machine
end

