-- ==== Sys2Proof/Laws/Invariant.lean ====
section
/-! SUPPORT. The invariant of Safety.lean: legal stacks of points, and that each kind of move keeps it. -/

namespace Sys2Proof.Machine

/-! ## Legal stacks (R20) -/

/-- A stack of two or more points is legal when the second takes up the return of the first. -/
theorem legal_cons {op : Op} {p q : Point} {ps : List Point} :
    legalStack op (p :: q :: ps) = true ↔ q.awaits = some p.proc ∧ legalStack op (q :: ps) = true := by
  simp [legalStack]

/-- Replacing the top point by one of the same procedure keeps the stack legal. -/
theorem legal_move {op : Op} {p q : Point} {ps : List Point} (h : legalStack op (p :: ps) = true)
    (hq : q.proc = p.proc) : legalStack op (q :: ps) = true := by
  cases ps with
  | nil => simpa [legalStack, hq] using h
  | cons r rs => simpa [legalStack, hq] using h

/-- What is left when a procedure returns is legal. -/
theorem legal_pop {op : Op} {p q : Point} {ps : List Point} (h : legalStack op (p :: q :: ps) = true) :
    legalStack op (q :: ps) = true := (legal_cons.1 h).2

/-- A call of the procedure a return point waits for keeps the stack legal. -/
theorem legal_push {op : Op} {p q r : Point} {ps : List Point} (h : legalStack op (p :: ps) = true)
    (hr : r.proc = p.proc) (hq : r.awaits = some q.proc) : legalStack op (q :: r :: ps) = true :=
  legal_cons.2 ⟨hq, legal_move h hr⟩

/-- Every point below the top takes up a return. -/
theorem awaits_below {op : Op} {p : Point} {ps : List Point} (h : legalStack op (p :: ps) = true) :
    ∀ q ∈ ps, q.awaits ≠ none := by
  induction ps generalizing p with
  | nil => nofun
  | cons q qs ih =>
    obtain ⟨h1, h2⟩ := legal_cons.1 h
    rintro r (_ | ⟨_, hr⟩)
    · rw [h1]; nofun
    · exact ih h2 r hr

/-- Below a procedure that no procedure calls, and below the command rule, there is nothing. -/
theorem legal_bottom {op : Op} {p : Point} {ps : List Point} (h : legalStack op (p :: ps) = true)
    (hp : p.proc = .dsRead ∨ p.proc = .dsReadBounded ∨ p.proc = .command) : ps = [] ∧ Op.runs op p.proc = true := by
  match ps, h with
  | [], h => exact ⟨rfl, h⟩
  | q :: qs, h =>
    have h1 := (legal_cons.1 h).1
    rcases hp with hp | hp | hp <;> rw [hp] at h1 <;> cases q <;> cases h1

/-- Below a byte procedure no other bit is pending. -/
theorem noBit_below {op : Op} {p : Point} {ps : List Point} (h : legalStack op (p :: ps) = true)
    (hp : p.proc = .owWriteByte ∨ p.proc = .owReadByte) : bitPending ps = false := by
  match ps, h with
  | [], _ => rfl
  | [q], h =>
    have h1 := (legal_cons.1 h).1
    rcases hp with hp | hp <;> rw [hp] at h1 <;> cases q <;> cases h1 <;> rfl
  | [q, r], h =>
    have h1 := (legal_cons.1 h).1
    have h2 := (legal_cons.1 (legal_pop h)).1
    rcases hp with hp | hp <;> rw [hp] at h1 <;> cases q <;> cases h1 <;> cases r <;> cases h2 <;> rfl
  | q :: r :: t :: ps, h =>
    have h1 := (legal_cons.1 h).1
    have h2 := (legal_cons.1 (legal_pop h)).1
    have h3 := (legal_cons.1 (legal_pop (legal_pop h))).1
    rcases hp with hp | hp <;> rw [hp] at h1 <;> cases q <;> cases h1 <;> cases r <;> cases h2 <;> cases t <;> cases h3

/-- Below a bus reset no point waits that follows a presence already seen. -/
theorem noPresence_below {op : Op} {p : Point} {ps : List Point} (h : legalStack op (p :: ps) = true)
    (hp : p.proc = .owReset) : ps.any Point.afterPresence = false := by
  match ps, h with
  | [], _ => rfl
  | [q], h =>
    have h1 := (legal_cons.1 h).1
    rw [hp] at h1; cases q <;> cases h1 <;> rfl
  | [q, r], h =>
    have h1 := (legal_cons.1 h).1
    have h2 := (legal_cons.1 (legal_pop h)).1
    rw [hp] at h1; cases q <;> cases h1 <;> cases r <;> cases h2 <;> rfl
  | q :: r :: t :: ps, h =>
    have h1 := (legal_cons.1 h).1
    have h2 := (legal_cons.1 (legal_pop h)).1
    have h3 := (legal_cons.1 (legal_pop (legal_pop h))).1
    rw [hp] at h1; cases q <;> cases h1 <;> cases r <;> cases h2 <;> cases t <;> cases h3

/-! ## Where a procedure returns to -/

/-- A procedure returns to a legal stack. -/
theorem legal_resume {op : Op} {p : Point} {ps : List Point} (h : legalStack op (p :: ps) = true) :
    legalStack op (resume op ps) = true := by
  induction ps generalizing p with
  | nil => cases op <;> rfl
  | cons q qs ih =>
    have h1 := legal_pop h
    cases q <;> first | exact h1 | exact ih h1 | exact legal_cons.2 ⟨rfl, legal_move h1 rfl⟩

/-- Where a procedure returns to, the line is released. -/
theorem line_resume {op : Op} {p : Point} {ps : List Point} (h : legalStack op (p :: ps) = true)
    (d : Config.Write1Drive) (o : Operand) (b : Bit) : lineAt d o b (resume op ps) = .rel := by
  induction ps generalizing p with
  | nil => cases op <;> rfl
  | cons q qs ih =>
    have h1 := (legal_cons.1 h).1
    cases q <;> first | rfl | exact ih (legal_pop h) | cases h1

@[simp] theorem polls_resume (op : Op) (l n : Nat) (ps : List Point) :
    pollsWithin l n (resume op ps) = pollsWithin l n ps := by
  induction ps with
  | nil => cases op <;> rfl
  | cons q qs ih => cases q <;> first | rfl | exact ih

@[simp] theorem bits_resume (op : Op) (ps : List Point) : bitPending (resume op ps) = bitPending ps := by
  induction ps with
  | nil => cases op <;> rfl
  | cons q qs ih => cases q <;> first | rfl | exact ih

theorem presence_resume {op : Op} {ps : List Point} (h : (resume op ps).any Point.afterPresence = true) :
    ps.any Point.afterPresence = true := by
  induction ps with
  | nil => revert h; cases op <;> decide
  | cons q qs ih => cases q <;> first | exact h | rfl | exact ih h

/-- Only `ow_write_byte` returns to a line that makes a result of its own. -/
theorem returnedResult_below {op : Op} {p : Point} {ps : List Point} (h : legalStack op (p :: ps) = true)
    (hp : p.proc ≠ .owWriteByte) (r : ResultCode) : returnedResult ps r = r := by
  cases ps with
  | nil => rfl
  | cons q qs =>
    have h1 := (legal_cons.1 h).1
    cases q <;> first | rfl | exact absurd (Option.some.inj h1).symm hp

/-- Where the procedure of a command rule returns, its result agrees with the presence sample. -/
theorem returned_bottom {op : Op} {r : ResultCode} {b : Bit} (h : Op.isSession op = true → resultAgrees op r b = true) :
    returnAgrees op r b (resume op []) = true := by
  cases op <;> simp_all [Op.isSession, resume, Op.onReturn, returnAgrees, closingAgrees]

/-- Where `ds_start_conversion` returns, the result it returns is read against the presence sample. -/
theorem returned_start {op : Op} {p : Point} {ps : List Point} {r : ResultCode} {b : Bit}
    (h : legalStack op (p :: ps) = true) (hp : p.proc = .dsStart) (hr : resultAgrees .dsStartConversion r b = true) :
    returnAgrees op r b (resume op ps) = true := by
  cases ps with
  | nil => exact returned_bottom fun _ => by cases r <;> simp_all [resultAgrees]
  | cons q qs =>
    have h1 := (legal_cons.1 h).1
    rw [hp] at h1
    cases q <;> cases h1 <;> exact hr

/-- So it is where `ds_get_conversion` returns. -/
theorem returned_get {op : Op} {p : Point} {ps : List Point} {r : ResultCode} {b : Bit}
    (h : legalStack op (p :: ps) = true) (hp : p.proc = .dsGet) (hr : resultAgrees op r b = true) :
    returnAgrees op r b (resume op ps) = true := by
  cases ps with
  | nil => exact returned_bottom fun _ => hr
  | cons q qs =>
    have h1 := (legal_cons.1 h).1
    rw [hp] at h1
    cases q <;> cases h1 <;> obtain ⟨rfl, -⟩ := legal_bottom (legal_pop h) (by simp [Point.proc]) <;>
      exact returned_bottom fun _ => hr

/-- Where a transport procedure returns, no session result is read, or it is `OK` after a presence seen. -/
theorem returned_transport {op : Op} {p : Point} {ps : List Point} {r : ResultCode} {b : Bit}
    (h : legalStack op (p :: ps) = true)
    (hp : p.proc ∈ [Proc.owReset, .owWriteBit, .owWriteByte, .owReadBit, .owReadByte])
    (hb : ps.any Point.afterPresence = true → b = true) :
    returnAgrees op (returnedResult ps r) b (resume op ps) = true := by
  cases ps with
  | nil =>
    refine returned_bottom fun hs => absurd hs ?_
    simp only [legalStack] at h
    revert h hp
    generalize p.proc = pr
    cases op <;> cases pr <;> decide
  | cons q qs =>
    have h1 := (legal_cons.1 h).1
    cases q
    case scOk => exact returned_start (p := .scOk) (ps := qs) (legal_pop h) rfl (hb rfl)
    all_goals first | rfl | (cases h1; done) | (simp only [Point.awaits, Option.some.injEq] at h1; simp [← h1] at hp)

/-- The condition of the command rule leads to the completion that fits the returned values. -/
theorem closing_after_test {op : Op} {s : State} (h : returnAgrees op s.ret s.pres [.cmdTest] = true) :
    closingAgrees op s.ret s.pres (Op.testHolds op s) = true := by
  revert h
  unfold Op.testHolds
  generalize s.ret = r
  generalize s.pres = b
  cases op <;> cases r <;> cases b <;> decide

/-! ## The parts of the invariant along a stack -/

@[simp] theorem polls_cons {l n : Nat} {p : Point} {ps : List Point} (h : p ≠ .rnPoll)
    (h' : p ≠ .rnInc) (h'' : p ≠ .rnUntil) : pollsWithin l n (p :: ps) = pollsWithin l n ps := by
  simp [pollsWithin, Ne.symm h, Ne.symm h', Ne.symm h'']

theorem bits_cons {p : Point} {ps : List Point} (h : p ≠ .wyInc) (h' : p ≠ .ryStore) (h'' : p ≠ .ryInc) :
    bitPending (p :: ps) = bitPending ps := by
  simp [bitPending, h, h', h'']

/-! ## A step at a point keeps the invariant -/

/-- After a step at a point the operation runs on with its invariant, and the counters stay in range. -/
structure PointNext (s : State) (op : Op) (o : Operand) (t : State) : Prop where
  runs : ∃ ps, t.seq = .run op o ps ∧ RunInv t op o ps
  biti : s.biti ≤ 8 → t.biti ≤ 8
  polln : s.polln ≤ 65535 → t.polln ≤ 65535

/-- A return keeps the invariant of the operation. -/
theorem runInv_returnTo {s : State} {op : Op} {o : Operand} {p : Point} {ps : List Point}
    (lat : decodeCommand s.cmd = .ok (op.instr s.cmd) ∧ o = operandOf op s.cmd) (stk : legalStack op (p :: ps) = true)
    (lin : s.lineOut = .rel) (pol : pollsWithin o.asLimit s.polln ps = true)
    (bit : bitPending ps = true → s.biti < 8) (pre : ps.any Point.afterPresence = true → s.pres = true)
    (ret : returnAgrees op (returnedResult ps s.ret) s.pres (resume op ps) = true) :
    RunInv (s.returnTo op o ps) op o (resume op ps) :=
  ⟨lat, legal_resume stk, lin.trans (line_resume stk ..).symm, (polls_resume ..).trans pol,
    fun h => bit ((bits_resume ..).symm.trans h), fun h => pre (presence_resume h), ret⟩

/-- A step at a point but the completion keeps the invariant of the operation. -/
theorem point_next {s t : State} {op : Op} {o : Operand} {p : Point} {ps : List Point}
    (hp : ∀ held, p ≠ lastPoint held) (hs : s.seq = .run op o (p :: ps)) (h : RunInv s op o (p :: ps))
    (e : stepPoint op o p ps s = .next t) : PointNext s op o t := by
  obtain ⟨lat, stk, lin, pol, bit, pre, ret⟩ := h
  cases p
  case rstDrive | wbDrive | rbDrive | rstRel | wbRel | rbRel =>
    cases e
    exact ⟨⟨_, rfl, lat, legal_move stk rfl, rfl,
      by simpa using pol, by simpa [bits_cons] using bit,
      by simpa [Point.afterPresence] using pre, rfl⟩, id, id⟩
  case rstLow | rstPds | rstHold | wbLow | wbHold | rbLow | rbPre =>
    cases e
    exact ⟨⟨_, rfl, lat, legal_move stk rfl, lin, by simpa using pol, by simpa [bits_cons] using bit,
      by simpa [Point.afterPresence] using pre, rfl⟩, id, id⟩
  case wbRec | rbPost =>
    have pol : pollsWithin o.asLimit s.polln ps = true := by simpa using pol
    have bit : bitPending ps = true → s.biti < 8 := by simpa [bits_cons] using bit
    have pre : ps.any Point.afterPresence = true → s.pres = true := by simpa [Point.afterPresence] using pre
    have ret := returned_transport (r := s.ret) stk (by simp [Point.proc]) pre
    rw [returnedResult_below stk nofun] at ret
    cases e
    exact ⟨⟨_, rfl, lat, legal_resume stk, lin.trans (line_resume stk ..).symm, by simpa using pol,
      by simpa using bit, fun h => pre (presence_resume h), ret⟩, id, id⟩
  case rstSample | rbSample =>
    obtain ⟨hl, rfl⟩ := sample_next e
    exact ⟨⟨_, rfl, lat, legal_move stk rfl, hl,
      by simpa using pol, by simpa [bits_cons] using bit,
      by simpa [Point.afterPresence] using pre, rfl⟩, id, id⟩
  case wbSet =>
    cases e
    exact ⟨⟨_, rfl, lat, legal_move stk rfl, rfl,
      by simpa using pol, by simpa [bits_cons] using bit,
      by simpa [Point.afterPresence] using pre, rfl⟩, id, id⟩
  case gcLsb =>
    cases e
    exact ⟨⟨_, rfl, lat, legal_push stk rfl rfl, lin,
      by simpa using pol, by simpa [bits_cons] using bit,
      by simpa [Point.afterPresence] using pre, rfl⟩, id, id⟩
  case gcMsb =>
    have hp : s.pres = true := pre rfl
    cases e
    refine ⟨⟨_, rfl, runInv_returnTo lat stk lin (by simpa using pol) (by simpa [bits_cons] using bit)
      (fun _ => hp) ?_⟩, id, id⟩
    rw [returnedResult_below stk nofun]
    exact returned_get stk rfl hp
  case wyArg | ryClear =>
    cases e
    exact ⟨⟨_, rfl, lat, legal_move stk rfl, lin,
      by simpa using pol, by simpa [bits_cons] using bit,
      by simpa [Point.afterPresence] using pre, rfl⟩, id, id⟩
  case wyInit | ryInit =>
    cases e
    exact ⟨⟨_, rfl, lat, legal_move stk rfl, lin,
      by simpa using pol, fun _ => by simp,
      by simpa [Point.afterPresence] using pre, rfl⟩, fun _ => by simp, id⟩
  case scSkip | scConv | gcSkip | gcRead =>
    simp only [stepPoint, callWriteByte_run _ hs] at e
    cases e
    exact ⟨⟨_, rfl, lat, legal_push stk rfl rfl, lin,
      by simpa [afterWireStack, Point.afterWire] using pol,
      by simpa [bits_cons, afterWireStack, Point.afterWire] using bit,
      by simpa [Point.afterPresence, afterWireStack, Point.afterWire] using pre, rfl⟩, id, id⟩
  case rstTest =>
    cases e
    cases hx : s.sbit <;>
    exact ⟨⟨_, rfl, lat, legal_move stk rfl, lin,
      by simpa using pol, by simpa [bits_cons] using bit,
      by simpa [Point.afterPresence] using pre, rfl⟩, id, id⟩
  case rstPresent | rstAbsent =>
    cases e
    have na := noPresence_below stk rfl
    have pre (x : Bit) : ps.any Point.afterPresence = true → x = true := fun h => absurd (na.symm.trans h) nofun
    exact ⟨⟨_, rfl, runInv_returnTo lat stk lin (by simpa using pol) (by simpa [bits_cons] using bit) (pre _)
      (returned_transport stk (by simp [Point.proc]) (pre _))⟩, id, id⟩
  case wyNext | ryNext =>
    have pre : ps.any Point.afterPresence = true → s.pres = true := by simpa [Point.afterPresence] using pre
    cases e
    by_cases h8 : s.biti < 8
    · rw [if_pos h8]
      exact ⟨⟨_, rfl, lat, legal_push stk rfl rfl, lin, by simpa using pol, fun _ => h8,
        by simpa [Point.afterPresence] using pre, rfl⟩, id, id⟩
    · rw [if_neg h8]
      exact ⟨⟨_, rfl, runInv_returnTo lat stk lin (by simpa using pol) (by simpa [bits_cons] using bit) pre
        (returned_transport stk (by simp [Point.proc]) pre)⟩, id, id⟩
  case ryStore =>
    have h8 : s.biti < 8 := bit (by simp [bitPending])
    cases e
    exact ⟨⟨_, rfl, lat, legal_move stk rfl, lin,
      by simpa using pol, fun _ => h8,
      by simpa [Point.afterPresence] using pre, rfl⟩, id, id⟩
  case wyInc | ryInc =>
    have h8 : s.biti < 8 := bit (by simp [bitPending])
    have nb := noBit_below stk (by simp [Point.proc])
    cases e
    exact ⟨⟨_, rfl, lat, legal_move stk rfl, lin,
      by simpa using pol, fun h => absurd (nb.symm.trans h) nofun,
      by simpa [Point.afterPresence] using pre, rfl⟩, fun _ => h8, id⟩
  case scTest =>
    cases e
    by_cases hp : s.pres = true
    · rw [if_pos hp]
      exact ⟨⟨_, rfl, lat, legal_move stk rfl, lin, by simpa using pol, by simpa [bits_cons] using bit,
        fun _ => hp, rfl⟩, id, id⟩
    · rw [if_neg hp]
      refine ⟨⟨_, rfl, runInv_returnTo lat stk lin (by simpa using pol) (by simpa [bits_cons] using bit)
        (by simpa [Point.afterPresence] using pre) ?_⟩, id, id⟩
      rw [returnedResult_below stk nofun]
      exact returned_start stk rfl (by simpa [resultAgrees] using hp)
  case gcTest =>
    cases e
    by_cases hp : s.pres = true
    · rw [if_pos hp]
      exact ⟨⟨_, rfl, lat, legal_move stk rfl, lin, by simpa using pol, by simpa [bits_cons] using bit,
        fun _ => hp, rfl⟩, id, id⟩
    · rw [if_neg hp]
      refine ⟨⟨_, rfl, runInv_returnTo lat stk lin (by simpa using pol) (by simpa [bits_cons] using bit)
        (by simpa [Point.afterPresence] using pre) ?_⟩, id, id⟩
      rw [returnedResult_below stk nofun]
      exact returned_get stk rfl (by simpa [resultAgrees] using hp)
  case scOk | gcLsbCall | rdReturn | rnReturn => cases ret
  case rdTest =>
    obtain ⟨rfl, -⟩ := legal_bottom stk (by simp [Point.proc])
    have hret : resultAgrees .dsStartConversion s.ret s.pres = true := ret
    cases e
    by_cases hx : s.ret = .busAbsent
    · rw [if_pos hx]
      exact ⟨⟨_, rfl, runInv_returnTo lat stk lin rfl nofun nofun
        (returned_bottom fun _ => by simp_all [resultAgrees, returnedResult])⟩, id, id⟩
    · rw [if_neg hx]
      refine ⟨⟨_, rfl, lat, legal_push stk rfl rfl, lin, rfl, nofun, fun _ => ?_, rfl⟩, id, id⟩
      show s.pres = true
      cases h1 : s.ret <;> simp_all [resultAgrees]
  case rdPoll =>
    obtain ⟨rfl, -⟩ := legal_bottom stk (by simp [Point.proc])
    have hp : s.pres = true := pre rfl
    cases e
    exact ⟨⟨_, rfl, lat, legal_move stk rfl, lin, rfl, nofun, fun _ => hp, rfl⟩, id, id⟩
  case rdUntil =>
    obtain ⟨rfl, hr⟩ := legal_bottom stk (by simp [Point.proc])
    have hp : s.pres = true := pre rfl
    cases e
    cases s.sbit
    · exact ⟨⟨_, rfl, lat, legal_push stk rfl rfl, lin, rfl, nofun, fun _ => hp, rfl⟩, id, id⟩
    · exact ⟨⟨_, rfl, lat, legal_cons.2 ⟨rfl, legal_push stk rfl rfl⟩, lin, rfl, nofun, nofun, rfl⟩, id, id⟩
  case rnTest =>
    obtain ⟨rfl, -⟩ := legal_bottom stk (by simp [Point.proc])
    have hret : resultAgrees .dsStartConversion s.ret s.pres = true := ret
    cases e
    by_cases hx : s.ret = .busAbsent
    · rw [if_pos hx]
      exact ⟨⟨_, rfl, runInv_returnTo lat stk lin rfl nofun nofun
        (returned_bottom fun _ => by simp_all [resultAgrees, returnedResult])⟩, id, id⟩
    · rw [if_neg hx]
      refine ⟨⟨_, rfl, lat, legal_move stk rfl, lin, rfl, nofun, fun _ => ?_, rfl⟩, id, id⟩
      show s.pres = true
      cases h1 : s.ret <;> simp_all [resultAgrees]
  case rnZero =>
    obtain ⟨rfl, hr⟩ := legal_bottom stk (by simp [Point.proc])
    have hp : s.pres = true := pre rfl
    have hlim : 0 < o.asLimit := by
      have ho : op = .dsReadBounded := by revert hr; cases op <;> decide
      subst ho
      rw [lat.2]
      show 0 < (fieldLimit s.cmd).toNat
      have h3 : fieldLimit s.cmd ≠ 0 := by simpa [limitOk] using (limitOk_of_decode lat.1).2
      exact Nat.pos_of_ne_zero fun h => h3 (BitVec.eq_of_toNat_eq h)
    cases e
    exact ⟨⟨_, rfl, lat, legal_push stk rfl rfl, lin, by simp [pollsWithin, hlim], nofun, fun _ => hp, rfl⟩,
      id, fun _ => Nat.zero_le _⟩
  case rnPoll =>
    obtain ⟨rfl, -⟩ := legal_bottom stk (by simp [Point.proc])
    have hp : s.pres = true := pre rfl
    cases e
    exact ⟨⟨_, rfl, lat, legal_move stk rfl, lin, pol, nofun, fun _ => hp, rfl⟩, id, id⟩
  case rnInc =>
    obtain ⟨rfl, -⟩ := legal_bottom stk (by simp [Point.proc])
    have hp : s.pres = true := pre rfl
    have hlt : s.polln < o.asLimit := by simpa [pollsWithin] using pol
    have h6 : o.asLimit ≤ 65535 := by
      cases o with
      | limit n => exact Nat.le_of_lt_succ n.isLt
      | _ => exact Nat.zero_le _
    cases e
    exact ⟨⟨_, rfl, lat, legal_move stk rfl, lin, by simpa [pollsWithin] using hlt, nofun, fun _ => hp, rfl⟩,
      id, fun _ => Nat.le_trans hlt h6⟩
  case rnUntil =>
    obtain ⟨rfl, -⟩ := legal_bottom stk (by simp [Point.proc])
    have hp : s.pres = true := pre rfl
    have hlt : s.polln ≤ o.asLimit := by simpa [pollsWithin] using pol
    cases e
    split
    · exact ⟨⟨_, rfl, lat, legal_move stk rfl, lin, rfl, nofun, fun _ => hp, rfl⟩, id, id⟩
    · rename_i hc
      rw [Bool.not_eq_true, Bool.or_eq_false_iff, beq_eq_false_iff_ne] at hc
      exact ⟨⟨_, rfl, lat, legal_push stk rfl rfl, lin,
        decide_eq_true (show s.polln < o.asLimit from Nat.lt_of_le_of_ne hlt hc.2), nofun, fun _ => hp, rfl⟩, id, id⟩
  case rnAfter =>
    obtain ⟨rfl, hr⟩ := legal_bottom stk (by simp [Point.proc])
    have hp : s.pres = true := pre rfl
    cases e
    by_cases hx : s.sbit = true
    · rw [if_pos hx]
      exact ⟨⟨_, rfl, lat, legal_cons.2 ⟨rfl, legal_push stk rfl rfl⟩, lin, rfl, nofun, nofun, rfl⟩, id, id⟩
    · rw [if_neg hx]
      have ho : op = .dsReadBounded := by revert hr; cases op <;> decide
      exact ⟨⟨_, rfl, runInv_returnTo lat stk lin rfl nofun nofun
        (returned_bottom fun _ => by simp [returnedResult, resultAgrees, hp, ho])⟩, id, id⟩
  case cmdTake =>
    obtain ⟨rfl, -⟩ := legal_bottom stk (by simp [Point.proc])
    cases e
    refine ⟨⟨_, rfl, lat, by cases op <;> rfl, ?_, by cases op <;> rfl, by cases op <;> nofun, by cases op <;> nofun, ?_⟩,
      id, id⟩
    · refine (show s.lineOut = .rel from lin).trans ?_
      cases op <;> rfl
    · revert ret; cases op <;> simp [returnAgrees, Op.hasTest, closingAgrees, Op.isSession, State.goto]
  case cmdTest =>
    obtain ⟨rfl, -⟩ := legal_bottom stk (by simp [Point.proc])
    cases e
    have hc := closing_after_test ret
    revert hc
    cases Op.testHolds op s <;>
      exact fun hc => ⟨⟨_, rfl, lat, by cases op <;> rfl, lin, rfl, nofun, nofun, hc⟩, id, id⟩
  case cmdOk => exact absurd rfl (hp true)
  case cmdDone => exact absurd rfl (hp false)

/-! ## The other moves keep the invariant -/

theorem RunInv.congr {s t : State} {op : Op} {o : Operand} {ps : List Point} (h : RunInv s op o ps)
    (hc : t.cmd = s.cmd) (hl : t.lineOut = s.lineOut) (hp : t.params = s.params) (hw : t.wbit = s.wbit)
    (hn : t.polln = s.polln) (hb : t.biti = s.biti) (hr : t.pres = s.pres)
    (he : t.ret = s.ret) : RunInv t op o ps := by
  constructor
  · rw [hc]; exact h.latched
  · exact h.stack
  · rw [hl, hp, hw]; exact h.line
  · rw [hn]; exact h.polls
  · rw [hb]; exact h.bits
  · rw [hr]; exact h.presence
  · rw [he, hr]; exact h.returned

/-- The inputs are no part of the invariant. -/
theorem Inv.withTurns {s : State} (h : Inv s) (ts : List Turn) : Inv { s with turns := ts } :=
  ⟨h.1, h.2, h.3, h.4, h.5, h.6, h.7, h.8, h.9, fun _ _ _ hs => (h.10 _ _ _ hs).congr rfl rfl rfl rfl rfl rfl rfl rfl⟩

/-- A host read keeps the invariant (R38). -/
theorem Inv.hostRead {s : State} (h : Inv s) (r : HostReg) : Inv (s.hostRead r) :=
  ⟨h.1, h.2, h.3, h.4, h.5, h.6, h.7, h.8, h.9, fun _ _ _ hs => (h.10 _ _ _ hs).congr rfl rfl rfl rfl rfl rfl rfl rfl⟩

/-- So does a write of `STATUS` that leaves `BUSY` and `DONE`. -/
theorem Inv.withStatus {s : State} (h : Inv s) {st : Word} (hb : Status.busy st = Status.busy s.status)
    (hd : Status.done st = Status.done s.status) (hr : Status.reservedZero st = true) : Inv { s with status := st } :=
  ⟨by simpa [hb] using h.1, by simpa [hb, hd] using h.2, hr, h.4, h.5, h.6, h.7, h.8, h.9,
    fun _ _ _ hs => (h.10 _ _ _ hs).congr rfl rfl rfl rfl rfl rfl rfl rfl⟩

theorem Inv.idle {s : State} (h : Inv s) (hb : Status.busy s.status = false) : s.seq = .idle := by
  by_contra hc
  rw [h.busyRuns.2 hc] at hb
  cases hb

theorem Inv.busy {s : State} (h : Inv s) {op : Op} {o : Operand} {ps : List Point} (hs : s.seq = .run op o ps) :
    Status.busy s.status = true := h.busyRuns.2 (by rw [hs]; nofun)

theorem sext_extract (h : Half) : sext32Half ((sext32Half h).extractLsb' 0 16) = sext32Half h := by
  have : (sext32Half h).extractLsb' 0 16 = h := by
    ext i hi
    simp only [BitVec.getElem_extractLsb', sext32Half, Nat.zero_add]
    rw [BitVec.getLsbD_signExtend]
    simp [hi, show i < 32 by omega]
  rw [this]

/-- The completion of an operation keeps the invariant. -/
theorem Inv.closing {s : State} {op : Op} {held : Bool} (h : Inv s) (hs : Completing s op held) :
    Inv (closing op held s) := by
  obtain ⟨o, ps, hs⟩ := hs
  have hr := h.running _ _ _ hs
  obtain ⟨r, he, -, -, hd, ht⟩ := closing_moves op held s
  have hl : s.lineOut = .rel := by have h1 := hr.line; cases held <;> exact h1
  have h1 := h.dataReserved
  have h2 := h.tempExtended
  generalize (Machine.closing op held s).data = d at *
  generalize (Machine.closing op held s).temp = w at *
  generalize (Machine.closing op held s).status = st at *
  rw [he]
  refine ⟨by simp, by simp, by simp, ?_, ?_, h.6, h.7, h.8, fun _ => hl, fun _ _ _ h => by cases h⟩
  · show d &&& 0x000000FF#32 = d
    rcases hd with rfl | ⟨-, rfl⟩ | ⟨-, rfl⟩
    · exact h1
    · cases s.sbit <;> rfl
    · generalize s.shift = v; revert v; decide
  · show sext32Half (w.extractLsb' 0 16) = w
    rcases ht with rfl | ⟨-, -, -, rfl⟩
    · exact h2
    · exact sext_extract _

/-- A command written to `CMD` keeps the invariant, accepted or refused. -/
theorem Inv.writeCommand {s : State} (h : Inv s) {op : Op} {w : Word} (hw : decodeCommand w = .ok (op.instr w)) :
    Inv (s.writeCommand op w) := by
  cases hb : Status.busy s.status with
  | true => rw [writeCommand_busy hb]; exact h.withStatus (by simp) (by simp) (by simp)
  | false =>
    rw [writeCommand_idle hb]
    have hl := h.idleReleased (h.idle hb)
    refine ⟨by simp, by simp, by simp, h.4, h.5, h.6, h.7, h.8, by simp, ?_⟩
    intro op' o ps he
    cases he
    refine ⟨⟨hw, rfl⟩, by cases op <;> rfl, ?_, by cases op <;> rfl, by cases op <;> nofun,
      by cases op <;> nofun, by cases op <;> rfl⟩
    show s.lineOut = _
    rw [hl]
    cases op <;> rfl

/-- So does an illegal word. -/
theorem Inv.writeIllegal {s : State} (h : Inv s) (w : Word) : Inv (s.writeIllegal w) := by
  cases hb : Status.busy s.status with
  | true => simp only [State.writeIllegal, hb]; exact h.withStatus (by simp) (by simp) (by simp)
  | false =>
    simp only [State.writeIllegal, hb]
    refine ⟨by simp [h.idle hb], by simp, by simp, h.4, h.5, h.6, h.7, h.8, h.9, fun op o ps hs => ?_⟩
    exact absurd ((h.idle hb).symm.trans hs) nofun

/-- A block reset leads to a state with the invariant from every state (R117). -/
theorem inv_blockReset (s : State) : Inv s.blockReset := by
  have h1 := (Config.freeBiti s.resets).isLt
  have h2 := (Config.freePolln s.resets).isLt
  refine ⟨by simp; decide, by simp; decide, ?_, by simp, by simp; decide, by simp; omega, by simp; omega, rfl, by simp, by simp⟩
  simp only [blockReset_status]; decide

end Sys2Proof.Machine
end

