-- ==== Sys2Proof/Laws/Lockstep.lean ====
section
/-! SUPPORT. Which sequencer registers an operation can still read (10_state.md R20, R32), and that two runs that agree
on those, and on the environment, put the same events on the bus. -/

namespace Sys2Proof.Machine

/-! ## The registers still to be read at a stack of points -/

/-- The bit `ow_write_byte` passed, until the write slot has set it. -/
def wLive : List Point → Bool
  | .wbDrive :: ps | .wbLow :: ps | .wbSet :: ps => ps.head? == some .wyInc
  | _ => false

/-- The sampled bit. -/
def sLive : List Point → Bool
  | .rstTest :: _ | .rbPost :: _ | .ryStore :: _ | .rdPoll :: _ | .rdUntil :: _ => true
  | .rnPoll :: _ | .rnInc :: _ | .rnUntil :: _ | .rnAfter :: _ => true
  | _ => false

/-- A point of a byte procedure's loop. -/
def Point.inLoop : Point → Bool
  | .wyNext | .wyInc | .ryNext | .ryStore | .ryInc => true
  | _ => false

/-- `BITI`. -/
def bLive (ps : List Point) : Bool := ps.any Point.inLoop

/-- `SHIFT`: in the loop and at its start. -/
def hLive (ps : List Point) : Bool := ps.any fun p => p.inLoop || p == .wyInit || p == .ryInit

/-- `POLLN`. -/
def nLive (ps : List Point) : Bool := ps.any fun p => p == .rnPoll || p == .rnInc || p == .rnUntil

/-- `PRES`; the command rule of `OW_RESET` tests it. -/
def pLive (op : Op) : List Point → Bool
  | .scTest :: _ | .gcTest :: _ => true
  | .cmdTake :: _ | .cmdTest :: _ => op == .owReset
  | _ => false

/-- The returned result; the command rules of the session operations test and report it. -/
def rLive (op : Op) : List Point → Bool
  | .rdTest :: _ | .rnTest :: _ => true
  | .cmdTake :: _ | .cmdTest :: _ | .cmdOk :: _ | .cmdDone :: _ => Op.isSession op
  | _ => false

/-- The two states agree on the line, the timer, the parameters and the levels to come. -/
structure SameCore (a b : State) : Prop where
  line : b.lineOut = a.lineOut
  timer : b.timer = a.timer
  params : b.params = a.params
  levels : ∀ k, b.levelAt k = a.levelAt k

/-- The two states agree on every register that can still be read. -/
structure SameLive (a b : State) (op : Op) (ps : List Point) : Prop where
  wbit : wLive ps = true → b.wbit = a.wbit
  sbit : sLive ps = true → b.sbit = a.sbit
  shift : hLive ps = true → b.shift = a.shift
  biti : bLive ps = true → b.biti = a.biti
  polln : nLive ps = true → b.polln = a.polln
  pres : pLive op ps = true → b.pres = a.pres
  ret : rLive op ps = true → b.ret = a.ret

/-- After a step of each, the two states still agree, at the same points, and the same events joined their traces. -/
structure SameStep (a b a' : State) (op : Op) (o : Operand) (b' : State) : Prop where
  core : SameCore a' b'
  live : ∃ ps, a'.seq = .run op o ps ∧ b'.seq = .run op o ps ∧ SameLive a' b' op ps
  trace : ∃ es, a'.trace = a.trace ++ es ∧ b'.trace = b.trace ++ es

/-! ## What is live where a procedure returns -/

theorem wLive_resume {op : Op} {p : Point} {ps : List Point} (h : legalStack op (p :: ps) = true) :
    wLive (resume op ps) = false := by
  induction ps generalizing p with
  | nil => cases op <;> rfl
  | cons q qs ih =>
    have h1 := (legal_cons.1 h).1
    cases q <;> first | rfl | exact ih (legal_pop h) | cases h1

theorem sLive_resume {op : Op} {p : Point} {ps : List Point} (h : legalStack op (p :: ps) = true)
    (hp : p.proc ≠ .owReadBit) : sLive (resume op ps) = false := by
  induction ps generalizing p with
  | nil => cases op <;> rfl
  | cons q qs ih =>
    have h1 := (legal_cons.1 h).1
    cases q <;> first | rfl | exact ih (legal_pop h) nofun | cases h1 | exact absurd (Option.some.inj h1).symm hp

theorem pLive_resume {op : Op} {p : Point} {ps : List Point} (h : legalStack op (p :: ps) = true)
    (hp : p.proc ≠ .owReset) (hc : p.proc ≠ .command) : pLive op (resume op ps) = false := by
  induction ps generalizing p with
  | nil =>
    simp only [legalStack] at h
    revert h hp hc
    generalize p.proc = pr
    cases op <;> cases pr <;> simp [Op.runs, resume, Op.onReturn, pLive]
  | cons q qs ih =>
    have h1 := (legal_cons.1 h).1
    cases q <;> first | rfl | exact ih (legal_pop h) nofun nofun | cases h1 | exact absurd (Option.some.inj h1).symm hp

/-- Where a transport procedure returns, the result is `OK` or is not read. -/
theorem returnedResult_live {op : Op} {p : Point} {ps : List Point} (h : legalStack op (p :: ps) = true)
    (hp : p.proc ∈ [Proc.owReset, .owWriteBit, .owWriteByte, .owReadBit, .owReadByte])
    (hl : rLive op (resume op ps) = true) (r r' : ResultCode) : returnedResult ps r = returnedResult ps r' := by
  cases ps with
  | nil =>
    simp only [legalStack] at h
    revert h hp hl
    generalize p.proc = pr
    cases op <;> cases pr <;> simp [Op.runs, resume, Op.onReturn, rLive, Op.isSession]
  | cons q qs =>
    have h1 := (legal_cons.1 h).1
    cases q <;> first
      | rfl
      | (cases hl; done)
      | (cases h1; done)
      | (simp only [Point.awaits, Option.some.injEq] at h1; simp [← h1] at hp)

@[simp] theorem bLive_resume (op : Op) (ps : List Point) : bLive (resume op ps) = bLive ps := by
  induction ps with
  | nil => cases op <;> rfl
  | cons q qs ih => cases q <;> first | rfl | exact ih

@[simp] theorem hLive_resume (op : Op) (ps : List Point) : hLive (resume op ps) = hLive ps := by
  induction ps with
  | nil => cases op <;> rfl
  | cons q qs ih => cases q <;> first | rfl | exact ih

@[simp] theorem nLive_resume (op : Op) (ps : List Point) : nLive (resume op ps) = nLive ps := by
  induction ps with
  | nil => cases op <;> rfl
  | cons q qs ih => cases q <;> first | rfl | exact ih

/-- Two states that agree where a procedure returns from agree where it returns to. -/
theorem sameLive_resume {a b : State} {op : Op} {p : Point} {ps : List Point} (stk : legalStack op (p :: ps) = true)
    (hc : p.proc ≠ .command) (hs : p.proc = .owReadBit → b.sbit = a.sbit) (hp : p.proc = .owReset → b.pres = a.pres)
    (hh : hLive ps = true → b.shift = a.shift) (hb : bLive ps = true → b.biti = a.biti)
    (hn : nLive ps = true → b.polln = a.polln) (hr : rLive op (resume op ps) = true → b.ret = a.ret) :
    SameLive a b op (resume op ps) where
  wbit h := absurd ((wLive_resume stk).symm.trans h) nofun
  sbit h := hs (by_contra fun hx => absurd ((sLive_resume stk hx).symm.trans h) nofun)
  shift h := hh ((hLive_resume ..).symm.trans h)
  biti h := hb ((bLive_resume ..).symm.trans h)
  polln h := hn ((nLive_resume ..).symm.trans h)
  pres h := hp (by_contra fun hx => absurd ((pLive_resume stk hx hc).symm.trans h) nofun)
  ret := hr

/-- Below a byte procedure no loop of a byte procedure waits, nor starts. -/
theorem hLive_below {op : Op} {p : Point} {ps : List Point} (h : legalStack op (p :: ps) = true)
    (hp : p.proc = .owWriteByte ∨ p.proc = .owReadByte) : hLive ps = false := by
  match ps, h with
  | [], _ => rfl
  | [q], h =>
    have h1 := (legal_cons.1 h).1
    rcases hp with hp | hp <;> rw [hp] at h1 <;> cases q <;> cases h1 <;> rfl
  | [q, r], h =>
    have h1 := (legal_cons.1 h).1
    have h2 := (legal_cons.1 (legal_pop h)).1
    rcases hp with hp | hp <;> rw [hp] at h1 <;> cases q <;> cases h1 <;> cases r <;> cases h2 <;> rfl
  | q :: r :: t :: ps, h =>
    have h1 := (legal_cons.1 h).1
    have h2 := (legal_cons.1 (legal_pop h)).1
    have h3 := (legal_cons.1 (legal_pop (legal_pop h))).1
    rcases hp with hp | hp <;> rw [hp] at h1 <;> cases q <;> cases h1 <;> cases r <;> cases h2 <;> cases t <;> cases h3

theorem bLive_below {op : Op} {p : Point} {ps : List Point} (h : legalStack op (p :: ps) = true)
    (hp : p.proc = .owWriteByte ∨ p.proc = .owReadByte) : bLive ps = false := by
  have h1 := hLive_below h hp
  simp only [hLive, bLive, List.any_eq_false, Bool.or_eq_true, not_or] at h1 ⊢
  exact fun q hq => (h1 q hq).1.1

/-! ## Lockstep -/

/-- Assigning sequencer registers and moving on keeps the agreement on line, timer, parameters and environment. -/
theorem SameCore.assign {a b : State} (c : SameCore a b) {q q' : Seq} {sh sh' ls ls' ms ms' : Byte} {bi bi' po po' : Nat}
    {pr pr' wb wb' sb sb' : Bit} {re re' : ResultCode} :
    SameCore
      { a with
        seq := q, shift := sh, biti := bi, lsb := ls, msb := ms, polln := po, pres := pr, wbit := wb, sbit := sb,
        ret := re }
      { b with
        seq := q', shift := sh', biti := bi', lsb := ls', msb := ms', polln := po', pres := pr', wbit := wb',
        sbit := sb', ret := re' } :=
  ⟨c.1, c.2, c.3, c.4⟩

/-- A delay of each, whatever its actual length. -/
theorem sameStep_delay {a b : State} {op : Op} {o : Operand} {qs : List Point} (n : Nat) (c : SameCore a b)
    (l : SameLive a b op qs) : SameStep a b (a.delay n (.run op o qs)) op o (b.delay n (.run op o qs)) :=
  ⟨⟨c.1, rfl, c.3, c.4⟩, ⟨qs, rfl, rfl, ⟨l.1, l.2, l.3, l.4, l.5, l.6, l.7⟩⟩, ⟨_, rfl, rfl⟩⟩

/-- At the points of the bus reset and the bit procedures. -/
theorem lockstep_bit {a b a' : State} {op : Op} {o : Operand} {p : Point} {ps : List Point}
    (hp : p.proc ∈ [Proc.owReset, .owWriteBit, .owReadBit])
    (stk : legalStack op (p :: ps) = true) (c : SameCore a b)
    (l : SameLive a b op (p :: ps)) (e : stepPoint op o p ps a = .next a') :
    ∃ b', stepPoint op o p ps b = .next b' ∧ SameStep a b a' op o b' := by
  obtain ⟨lw, ls, lsh, lbi, ln, lp, lr⟩ := id l
  cases p
  case rstDrive | rbDrive | rstRel | wbRel | rbRel =>
    cases e
    exact ⟨_, rfl, ⟨rfl, c.2, c.3, c.4⟩, ⟨_, rfl, rfl,
      ⟨nofun, nofun, lsh, lbi,
        ln, nofun, nofun⟩⟩,
      ⟨_, rfl, rfl⟩⟩
  case wbDrive =>
    cases e
    exact ⟨_, rfl, ⟨rfl, c.2, c.3, c.4⟩, ⟨_, rfl, rfl,
      ⟨lw, nofun, lsh, lbi,
        ln, nofun, nofun⟩⟩,
      ⟨_, rfl, rfl⟩⟩
  case rstLow | rstPds | rstHold | wbHold | rbLow | rbPre =>
    cases e
    refine ⟨_, rfl, ?_⟩
    rw [c.params]
    exact sameStep_delay _ c ⟨nofun, nofun, lsh, lbi,
        ln, nofun, nofun⟩
  case wbLow =>
    cases e
    refine ⟨_, rfl, ?_⟩
    rw [c.params]
    exact sameStep_delay _ c ⟨lw, nofun, lsh, lbi,
        ln, nofun, nofun⟩
  case wbRec | rbPost =>
    cases e
    refine ⟨_, rfl, ?_⟩
    rw [c.params]
    refine sameStep_delay _ c (sameLive_resume stk nofun (fun h => ?_) nofun lsh lbi ln fun h => ?_)
    · first | exact ls rfl | cases h
    · have h1 := returnedResult_live stk (by simp [Point.proc]) h b.ret a.ret
      rwa [returnedResult_below stk nofun, returnedResult_below stk nofun] at h1
  case rstSample | rbSample =>
    obtain ⟨hl, rfl⟩ := sample_next e
    have hv := c.levels 0
    have hx (s : State) (k : Nat) (q : Seq) : ({ s.takeSample with seq := q } : State).levelAt k = s.levelAt (1 + k) :=
      levelAt_congr (by simp) (by simp)
    exact ⟨_, sample_released _ (c.line.trans hl),
      ⟨c.1, c.2, c.3, fun k => by rw [hx, hx]; exact c.levels _⟩, ⟨_, rfl, rfl,
      ⟨nofun, fun _ => hv, lsh, lbi,
        ln, nofun, nofun⟩⟩,
      ⟨_, rfl, by simp [hv]⟩⟩
  case wbSet =>
    have hw : slotBit o b.wbit ps = slotBit o a.wbit ps := by
      rcases ps with _ | ⟨q, qs⟩
      · rfl
      · cases q <;> first | rfl | exact lw rfl
    cases e
    exact ⟨_, rfl, ⟨by simp [State.setLine, State.goto, hw, c.params], c.2, c.3, c.4⟩, ⟨_, rfl, rfl,
      ⟨nofun, nofun, lsh, lbi,
        ln, nofun, nofun⟩⟩,
      ⟨_, rfl, by simp [State.goto, hw]⟩⟩
  case rstTest =>
    have hs := ls rfl
    cases e
    simp only [stepPoint, hs]
    cases a.sbit <;>
      exact ⟨_, rfl, c.assign, ⟨_, rfl, rfl,
        ⟨nofun, nofun, lsh, lbi,
          ln, nofun, nofun⟩⟩,
        ⟨[], (List.append_nil _).symm, (List.append_nil _).symm⟩⟩
  case rstPresent | rstAbsent =>
    cases e
    exact ⟨_, rfl, c.assign, ⟨_, rfl, rfl, sameLive_resume stk nofun nofun (fun _ => rfl) lsh lbi ln
        fun h => returnedResult_live stk (by simp [Point.proc]) h _ _⟩,
      ⟨[], (List.append_nil _).symm, (List.append_nil _).symm⟩⟩
  all_goals exact absurd hp (by decide)

/-- At the points of the byte procedures. -/
theorem lockstep_byte {a b a' : State} {op : Op} {o : Operand} {p : Point} {ps : List Point}
    (hp : p.proc ∈ [Proc.owWriteByte, .owReadByte])
    (stk : legalStack op (p :: ps) = true) (c : SameCore a b)
    (l : SameLive a b op (p :: ps)) (e : stepPoint op o p ps a = .next a') :
    ∃ b', stepPoint op o p ps b = .next b' ∧ SameStep a b a' op o b' := by
  obtain ⟨lw, ls, lsh, lbi, ln, lp, lr⟩ := id l
  cases p
  case wyArg | ryClear =>
    have h0 := bLive_below stk (by simp [Point.proc])
    cases e
    exact ⟨_, rfl, c.assign, ⟨_, rfl, rfl,
      ⟨nofun, nofun, fun _ => rfl, fun h => absurd (h0.symm.trans h) nofun,
        ln, nofun, nofun⟩⟩,
      ⟨[], (List.append_nil _).symm, (List.append_nil _).symm⟩⟩
  case wyInit | ryInit =>
    cases e
    exact ⟨_, rfl, c.assign, ⟨_, rfl, rfl,
      ⟨nofun, nofun, fun _ => lsh rfl, fun _ => rfl,
        ln, nofun, nofun⟩⟩,
      ⟨[], (List.append_nil _).symm, (List.append_nil _).symm⟩⟩
  case wyNext | ryNext =>
    have hs := lsh rfl
    have hi := lbi rfl
    have h0 := bLive_below stk (by simp [Point.proc])
    have h4 := hLive_below stk (by simp [Point.proc])
    by_cases h8 : a.biti < 8
    · have hb : b.biti < 8 := by rwa [hi]
      simp only [stepPoint, if_pos h8] at e
      simp only [stepPoint, if_pos hb]
      cases e
      refine ⟨_, rfl, c.assign, ⟨_, rfl, rfl, ⟨?_, nofun, fun _ => hs, fun _ => hi, ln, nofun, nofun⟩⟩,
        ⟨[], (List.append_nil _).symm, (List.append_nil _).symm⟩⟩
      first | exact fun _ => congrArg₂ bitOf hs hi | nofun
    · have hb : ¬ b.biti < 8 := by rwa [hi]
      simp only [stepPoint, if_neg h8] at e
      simp only [stepPoint, if_neg hb]
      cases e
      exact ⟨_, rfl, c.assign, ⟨_, rfl, rfl, sameLive_resume stk nofun nofun nofun (by simp [h4]) (by simp [h0]) ln
          fun h => returnedResult_live stk (by simp [Point.proc]) h _ _⟩,
        ⟨[], (List.append_nil _).symm, (List.append_nil _).symm⟩⟩
  case ryStore =>
    have hs := lsh rfl
    have hi := lbi rfl
    have hv := ls rfl
    cases e
    exact ⟨_, rfl, c.assign, ⟨_, rfl, rfl,
      ⟨nofun, nofun, fun _ => by simp [hs, hi, hv], fun _ => hi,
        ln, nofun, nofun⟩⟩,
      ⟨[], (List.append_nil _).symm, (List.append_nil _).symm⟩⟩
  case wyInc | ryInc =>
    have hs := lsh rfl
    have hi := lbi rfl
    cases e
    exact ⟨_, rfl, c.assign, ⟨_, rfl, rfl,
      ⟨nofun, nofun, fun _ => hs, fun _ => congrArg (· + 1) hi,
        ln, nofun, nofun⟩⟩,
      ⟨[], (List.append_nil _).symm, (List.append_nil _).symm⟩⟩
  all_goals exact absurd hp (by decide)

/-- At the points of the two conversions. -/
theorem lockstep_conversion {a b a' : State} {op : Op} {o : Operand} {p : Point} {ps : List Point}
    (hp : p.proc ∈ [Proc.dsStart, .dsGet])
    (stk : legalStack op (p :: ps) = true) (ret : returnAgrees op a.ret a.pres (p :: ps) = true) (c : SameCore a b) (ha : a.seq = .run op o (p :: ps))
    (hb : b.seq = .run op o (p :: ps)) (l : SameLive a b op (p :: ps)) (e : stepPoint op o p ps a = .next a') :
    ∃ b', stepPoint op o p ps b = .next b' ∧ SameStep a b a' op o b' := by
  obtain ⟨lw, ls, lsh, lbi, ln, lp, lr⟩ := id l
  cases p
  case scOk | gcLsbCall => cases ret
  case gcLsb =>
    cases e
    exact ⟨_, rfl, c.assign, ⟨_, rfl, rfl,
      ⟨nofun, nofun, lsh, lbi,
        ln, nofun, nofun⟩⟩,
      ⟨[], (List.append_nil _).symm, (List.append_nil _).symm⟩⟩
  case gcMsb =>
    cases e
    exact ⟨_, rfl, c.assign, ⟨_, rfl, rfl, sameLive_resume stk nofun nofun nofun lsh lbi ln fun _ => rfl⟩,
      ⟨[], (List.append_nil _).symm, (List.append_nil _).symm⟩⟩
  case scSkip | scConv | gcSkip | gcRead =>
    simp only [stepPoint, callWriteByte_run _ ha] at e
    simp only [stepPoint, callWriteByte_run _ hb]
    cases e
    exact ⟨_, rfl, c.assign, ⟨_, rfl, rfl,
      ⟨nofun, nofun, fun _ => rfl, lbi,
        ln, nofun, nofun⟩⟩,
      ⟨[], (List.append_nil _).symm, (List.append_nil _).symm⟩⟩
  case scTest | gcTest =>
    have hp := lp rfl
    cases e
    simp only [stepPoint, hp]
    by_cases hx : a.pres = true
    · simp only [hx, if_true]
      exact ⟨_, rfl, c.assign, ⟨_, rfl, rfl,
        ⟨nofun, nofun, lsh, lbi,
          ln, nofun, nofun⟩⟩,
        ⟨[], (List.append_nil _).symm, (List.append_nil _).symm⟩⟩
    · simp only [hx]
      exact ⟨_, rfl, c.assign, ⟨_, rfl, rfl, sameLive_resume stk nofun nofun nofun lsh lbi ln fun _ => rfl⟩,
        ⟨[], (List.append_nil _).symm, (List.append_nil _).symm⟩⟩
  all_goals exact absurd hp (by decide)

/-- At the points of the two reads. -/
theorem lockstep_read {a b a' : State} {op : Op} {o : Operand} {p : Point} {ps : List Point}
    (hp : p.proc ∈ [Proc.dsRead, .dsReadBounded])
    (stk : legalStack op (p :: ps) = true) (ret : returnAgrees op a.ret a.pres (p :: ps) = true) (c : SameCore a b)
    (l : SameLive a b op (p :: ps)) (e : stepPoint op o p ps a = .next a') :
    ∃ b', stepPoint op o p ps b = .next b' ∧ SameStep a b a' op o b' := by
  obtain ⟨lw, ls, lsh, lbi, ln, lp, lr⟩ := id l
  cases p
  case rdTest =>
    have hr := lr rfl
    obtain ⟨rfl, -⟩ := legal_bottom stk (by simp [Point.proc])
    cases e
    simp only [stepPoint, hr]
    by_cases hx : a.ret = .busAbsent
    · simp only [hx, if_true]
      exact ⟨_, rfl, c.assign, ⟨_, rfl, rfl, sameLive_resume stk nofun nofun nofun nofun nofun nofun fun _ => hr⟩,
        ⟨[], (List.append_nil _).symm, (List.append_nil _).symm⟩⟩
    · simp only [hx, if_false]
      exact ⟨_, rfl, c.assign, ⟨_, rfl, rfl,
        ⟨nofun, nofun, nofun, nofun,
          nofun, nofun, nofun⟩⟩,
        ⟨[], (List.append_nil _).symm, (List.append_nil _).symm⟩⟩
  case rdPoll =>
    cases e
    exact ⟨_, rfl, c.assign, ⟨_, rfl, rfl,
      ⟨nofun, fun _ => ls rfl, lsh, lbi, ln, nofun, nofun⟩⟩,
      ⟨[], (List.append_nil _).symm, (List.append_nil _).symm⟩⟩
  case rdUntil =>
    have hs := ls rfl
    obtain ⟨rfl, -⟩ := legal_bottom stk (by simp [Point.proc])
    cases e
    simp only [stepPoint, hs]
    cases a.sbit <;>
      exact ⟨_, rfl, c.assign, ⟨_, rfl, rfl,
        ⟨nofun, nofun, nofun, nofun,
          nofun, nofun, nofun⟩⟩,
        ⟨[], (List.append_nil _).symm, (List.append_nil _).symm⟩⟩
  case rnTest =>
    have hr := lr rfl
    obtain ⟨rfl, -⟩ := legal_bottom stk (by simp [Point.proc])
    cases e
    simp only [stepPoint, hr]
    by_cases hx : a.ret = .busAbsent
    · simp only [hx, if_true]
      exact ⟨_, rfl, c.assign, ⟨_, rfl, rfl, sameLive_resume stk nofun nofun nofun nofun nofun nofun fun _ => hr⟩,
        ⟨[], (List.append_nil _).symm, (List.append_nil _).symm⟩⟩
    · simp only [hx, if_false]
      exact ⟨_, rfl, c.assign, ⟨_, rfl, rfl,
        ⟨nofun, nofun, nofun, nofun,
          nofun, nofun, nofun⟩⟩,
        ⟨[], (List.append_nil _).symm, (List.append_nil _).symm⟩⟩
  case rnZero =>
    obtain ⟨rfl, -⟩ := legal_bottom stk (by simp [Point.proc])
    cases e
    exact ⟨_, rfl, c.assign, ⟨_, rfl, rfl,
      ⟨nofun, nofun, nofun, nofun,
        fun _ => rfl, nofun, nofun⟩⟩,
      ⟨[], (List.append_nil _).symm, (List.append_nil _).symm⟩⟩
  case rnPoll =>
    cases e
    exact ⟨_, rfl, c.assign, ⟨_, rfl, rfl,
      ⟨nofun, fun _ => ls rfl, lsh, lbi, fun _ => ln rfl, nofun, nofun⟩⟩,
      ⟨[], (List.append_nil _).symm, (List.append_nil _).symm⟩⟩
  case rnInc =>
    cases e
    exact ⟨_, rfl, c.assign, ⟨_, rfl, rfl,
      ⟨nofun, fun _ => ls rfl, lsh, lbi,
        fun _ => congrArg (· + 1) (ln rfl), nofun, nofun⟩⟩,
      ⟨[], (List.append_nil _).symm, (List.append_nil _).symm⟩⟩
  case rnUntil =>
    have hs := ls rfl
    have hn := ln rfl
    obtain ⟨rfl, -⟩ := legal_bottom stk (by simp [Point.proc])
    simp only [stepPoint, hs, hn] at e ⊢
    generalize (a.polln == o.asLimit) = z at e ⊢
    cases hx : a.sbit || z <;> (simp only [hx, if_true, if_false, Bool.false_eq_true] at e ⊢; cases e)
    · exact ⟨_, rfl, c.assign, ⟨_, rfl, rfl,
        ⟨nofun, nofun, nofun, nofun,
          fun _ => hn, nofun, nofun⟩⟩,
        ⟨[], (List.append_nil _).symm, (List.append_nil _).symm⟩⟩
    · exact ⟨_, rfl, c.assign, ⟨_, rfl, rfl,
        ⟨nofun, fun _ => hs, nofun, nofun,
          nofun, nofun, nofun⟩⟩,
        ⟨[], (List.append_nil _).symm, (List.append_nil _).symm⟩⟩
  case rnAfter =>
    have hs := ls rfl
    obtain ⟨rfl, -⟩ := legal_bottom stk (by simp [Point.proc])
    cases e
    simp only [stepPoint, hs]
    by_cases hx : a.sbit = true
    · simp only [hx, if_true]
      exact ⟨_, rfl, c.assign, ⟨_, rfl, rfl,
        ⟨nofun, nofun, nofun, nofun,
          nofun, nofun, nofun⟩⟩,
        ⟨[], (List.append_nil _).symm, (List.append_nil _).symm⟩⟩
    · simp only [hx]
      exact ⟨_, rfl, c.assign, ⟨_, rfl, rfl, sameLive_resume stk nofun nofun nofun nofun nofun nofun fun _ => rfl⟩,
        ⟨[], (List.append_nil _).symm, (List.append_nil _).symm⟩⟩
  case rdReturn | rnReturn => cases ret
  all_goals exact absurd hp (by decide)

/-- At the points of the command rule before the completion. -/
theorem lockstep_command {a b a' : State} {op : Op} {o : Operand} {p : Point} {ps : List Point}
    (hp : p.proc = .command) (hl : ∀ held, p ≠ lastPoint held) (stk : legalStack op (p :: ps) = true)
    (c : SameCore a b) (l : SameLive a b op (p :: ps)) (e : stepPoint op o p ps a = .next a') :
    ∃ b', stepPoint op o p ps b = .next b' ∧ SameStep a b a' op o b' := by
  obtain ⟨-, -, -, -, -, lp, lr⟩ := id l
  obtain ⟨rfl, -⟩ := legal_bottom stk (by simp [hp])
  cases p
  case cmdTake =>
    cases e
    exact ⟨_, rfl, c.assign, ⟨_, rfl, rfl, by
      cases op <;> exact ⟨nofun, nofun, nofun, nofun, nofun, lp, lr⟩⟩,
      ⟨[], (List.append_nil _).symm, (List.append_nil _).symm⟩⟩
  case cmdTest =>
    have ht : Op.testHolds op b = Op.testHolds op a := by
      cases op <;> simp only [Op.testHolds] <;> first | rw [lp rfl] | rw [lr rfl]
    cases e
    simp only [stepPoint, ht]
    exact ⟨_, rfl, c.assign, ⟨_, rfl, rfl, by
      cases Op.testHolds op a <;> exact ⟨nofun, nofun, nofun, nofun, nofun, nofun, lr⟩⟩, ⟨[], (List.append_nil _).symm, (List.append_nil _).symm⟩⟩
  case cmdOk => exact absurd rfl (hl true)
  case cmdDone => exact absurd rfl (hl false)
  all_goals cases hp

/-- Two states that agree on the environment and on what can still be read step alike (R32). -/
theorem stepPoint_lockstep {a b a' : State} {op : Op} {o : Operand} {p : Point} {ps : List Point}
    (hl : ∀ held, p ≠ lastPoint held) (stk : legalStack op (p :: ps) = true)
    (ret : returnAgrees op a.ret a.pres (p :: ps) = true) (c : SameCore a b) (ha : a.seq = .run op o (p :: ps))
    (hb : b.seq = .run op o (p :: ps)) (l : SameLive a b op (p :: ps)) (e : stepPoint op o p ps a = .next a') :
    ∃ b', stepPoint op o p ps b = .next b' ∧ SameStep a b a' op o b' := by
  have hp : p.proc ∈ [Proc.owReset, .owWriteBit, .owReadBit] ∨ p.proc ∈ [Proc.owWriteByte, .owReadByte] ∨
      p.proc ∈ [Proc.dsStart, .dsGet] ∨ p.proc ∈ [Proc.dsRead, .dsReadBounded] ∨ p.proc = .command := by
    cases p.proc <;> decide
  rcases hp with hp | hp | hp | hp | hp
  · exact lockstep_bit hp stk c l e
  · exact lockstep_byte hp stk c l e
  · exact lockstep_conversion hp stk ret c ha hb l e
  · exact lockstep_read hp stk ret c l e
  · exact lockstep_command hp hl stk c l e

end Sys2Proof.Machine
end

