-- ==== Sys2Proof/Laws/PerInstr.lean ====
section
/-! SUPPORT. Statements made per instruction, one lemma for each constructor. -/

/-- The word of a well-formed command is accepted by its row of R56; a wire command's byte is one of R59's three. -/
def Sys2Proof.Laws.OwnRow.Statement (i : Sys2Proof.Instr) : Prop :=
  i.wellFormed = true →
    match Sys2Proof.encode i with
    | .command w => ∃ r ∈ Sys2Proof.commandRows, r.accepts w = true
    | .wire b => b ∈ [0xCC#8, 0x44#8, 0xBE#8]

namespace Sys2Proof.Laws.OwnRow

theorem owreset : Statement .owreset := fun _ => ⟨⟨.owReset, 0x00000001#32, 0xFFFFFFFF#32⟩, by decide, rfl⟩

theorem owwbit (b : Bit) : Statement (.owwbit b) := fun _ =>
  ⟨⟨.owWriteBit, 0x00000002#32, 0xFFFFFEFF#32⟩, by decide, by cases b <;> rfl⟩

theorem owwbyte (v : Byte) : Statement (.owwbyte v) := fun _ =>
  ⟨⟨.owWriteByte, 0x00000003#32, 0xFFFF00FF#32⟩, by decide, by
    rw [CommandRow.accepts, Bool.and_eq_true, beq_iff_eq]
    exact ⟨(and_writeByte 0 v 0 3).2 ⟨rfl, rfl, rfl⟩, rfl⟩⟩

theorem owrbit : Statement .owrbit := fun _ => ⟨⟨.owReadBit, 0x00000004#32, 0xFFFFFFFF#32⟩, by decide, rfl⟩

theorem owrbyte : Statement .owrbyte := fun _ => ⟨⟨.owReadByte, 0x00000005#32, 0xFFFFFFFF#32⟩, by decide, rfl⟩

theorem dsconv : Statement .dsconv := fun _ => ⟨⟨.dsStartConversion, 0x00000006#32, 0xFFFFFFFF#32⟩, by decide, rfl⟩

theorem dsget : Statement .dsget := fun _ => ⟨⟨.dsGetConversion, 0x00000007#32, 0xFFFFFFFF#32⟩, by decide, rfl⟩

theorem dsread : Statement .dsread := fun _ => ⟨⟨.dsRead, 0x00000008#32, 0xFFFFFFFF#32⟩, by decide, rfl⟩

theorem dsreadb (limit : Half) : Statement (.dsreadb limit) := fun h =>
  ⟨⟨.dsReadBounded, 0x00000009#32, 0x0000FFFF#32⟩, by decide, by
    have h1 := (and_readBounded limit 0 0 9).2 ⟨rfl, rfl, rfl⟩
    have h2 : limitOk (fieldLimit (wordOf limit 0 0 9)) = true := by rw [fieldLimit_wordOf]; exact h
    rw [CommandRow.accepts, Bool.and_eq_true, beq_iff_eq]
    exact ⟨h1, h2⟩⟩

theorem skipRom : Statement .skipRom := fun _ => List.mem_cons_self

theorem startConv : Statement .startConv := fun _ => .tail _ List.mem_cons_self

theorem readScratchpad : Statement .readScratchpad := fun _ => .tail _ (.tail _ List.mem_cons_self)

end Sys2Proof.Laws.OwnRow
end

