-- ==== Sys2Proof/Tests/Slice0.lean ====
section
/-! SUPPORT. Tests of the model and, for every statement with hypotheses, a named witness that meets them. Expected
values are those of spec/95_test_vectors.md and of the rules' words; each test names its vector or rule. -/

namespace Sys2Proof.Tests

open Sys2Proof.Machine

/-! ## Small states -/

/-- Block reset state with turns listed. -/
def withTurns (ts : List Turn) : State := { State.reset with turns := ts }

/-- Block reset state with levels listed. -/
def withLevels (ls : List Bit) : State := { State.reset with levels := ls }

/-- A running operation at some points, the line released. -/
def running (op : Op) (o : Operand) (w : Word) (ps : List Point) : State :=
  { State.reset with cmd := w, status := 0x00000001#32, seq := .run op o ps }

/-- The next state of an outcome. -/
def after (o : Outcome) : Option State :=
  match o with
  | .next s => some s
  | .fault _ => none
  | .refused _ => none

/-- The refusal of an outcome. -/
def refusal (o : Outcome) : Option Refusal :=
  match o with
  | .refused r => some r
  | .next _ => none
  | .fault _ => none

/-- The fault of an outcome. -/
def stopFault (o : Outcome) : Option Fault :=
  match o with
  | .fault f => some f
  | .next _ => none
  | .refused _ => none

/-! ## WellFormed: the one check refuses an ill-formed term (R55, R58) -/

theorem test_wellFormed_refuses_limit_zero : Instr.wellFormed (.dsreadb 0x0000#16) = false := by decide

theorem test_wellFormed_limits_at_the_ends :
    Instr.wellFormed (.dsreadb 0x0001#16) = true ∧ Instr.wellFormed (.dsreadb 0xFFFF#16) = true := by decide

/-! ## Decoding, one word or byte of each constructor, written out from R56 and R59 -/

theorem test_decode_owreset : decodeCommand 0b00000000000000000000000000000001#32 = .ok .owreset := by rfl

theorem test_decode_owwbit :
    decodeCommand 0b00000000000000000000000000000010#32 = .ok (.owwbit false) ∧
      decodeCommand 0b00000000000000000000000100000010#32 = .ok (.owwbit true) := ⟨rfl, rfl⟩

theorem test_decode_owwbyte : decodeCommand 0b00000000000000001100110000000011#32 = .ok (.owwbyte 0xCC#8) := by rfl

theorem test_decode_owrbit : decodeCommand 0b00000000000000000000000000000100#32 = .ok .owrbit := by rfl

theorem test_decode_owrbyte : decodeCommand 0b00000000000000000000000000000101#32 = .ok .owrbyte := by rfl

theorem test_decode_dsconv : decodeCommand 0b00000000000000000000000000000110#32 = .ok .dsconv := by rfl

theorem test_decode_dsget : decodeCommand 0b00000000000000000000000000000111#32 = .ok .dsget := by rfl

theorem test_decode_dsread : decodeCommand 0b00000000000000000000000000001000#32 = .ok .dsread := by rfl

theorem test_decode_dsreadb :
    decodeCommand 0b00000000000000010000000000001001#32 = .ok (.dsreadb 0x0001#16) ∧
      decodeCommand 0b11111111111111110000000000001001#32 = .ok (.dsreadb 0xFFFF#16) := ⟨rfl, rfl⟩

theorem test_decode_skipRom : decodeWire 0b11001100#8 = .ok .skipRom := by rfl

theorem test_decode_startConv : decodeWire 0b01000100#8 = .ok .startConv := by rfl

theorem test_decode_readScratchpad : decodeWire 0b10111110#8 = .ok .readScratchpad := by rfl

/-- E-1, E-3, E-4, E-7, E-11, E-13, E-14, E-17, E-18, E-19. -/
theorem test_decode_illegal : ∀ w ∈ [0x00000000#32, 0x00000011#32, 0x00010001#32, 0x00000202#32, 0x0001CC03#32,
    0x00000108#32, 0x00000009#32, 0x00010109#32, 0x0000000A#32, 0x0000000F#32, 0xFFFFFFFF#32],
    (decodeCommand w).toOption = none := by
  intro w hw
  simp only [List.mem_cons, List.not_mem_nil, or_false] at hw
  rcases hw with rfl | rfl | rfl | rfl | rfl | rfl | rfl | rfl | rfl | rfl | rfl <;> rfl

/-- The reasons by name (R58). -/
theorem test_decode_illegal_reasons :
    decodeCommand 0x00000000#32 = .error .reservedOpcode ∧ decodeCommand 0x00010001#32 = .error .reservedField ∧
      decodeCommand 0x00000009#32 = .error .zeroLimit ∧ decodeWire 0xF0#8 = .error .notWireCommand :=
  ⟨rfl, rfl, rfl, rfl⟩

/-- Words P1 and P4 of the vectors, from the encoder. -/
theorem test_encode_words :
    encode .dsread = .command 0x00000008#32 ∧ encode (.dsreadb 0x0003#16) = .command 0x00030009#32 ∧
      encode (.owwbyte 0xA5#8) = .command 0x0000A503#32 := ⟨rfl, rfl, rfl⟩

theorem test_table_word :
    decodeTableWord 32 0x0000CC03 = some (.owwbyte 0xCC#8) ∧ decodeTableWord 8 0xBE = some .readScratchpad ∧
      decodeTableWord 32 0x00000000 = none ∧ decodeTableWord 16 0x0001 = none := ⟨rfl, rfl, rfl, rfl⟩

/-! ## The first instruction after reset -/

theorem test_fetch_command :
    (after (step (State.reset.withFetchWord 32 0x00030009))).map (fun s => (s.cmd, s.status, s.turns)) =
      some (0x00030009#32, 0x00000001#32, []) := by rfl

theorem test_fetch_wire :
    (after (step (State.reset.withFetchWord 8 0x44))).map (fun s => (s.shift, s.seq)) =
      some (0x44#8, .run .dsStartConversion .none [.wyInit, .scOk]) := by rfl

/-! ## Acceptance and refusal (R23, R25, R102, R103) -/

/-- Acceptance starts each procedure with `BUSY` = 1 and `DONE` = 0. -/
theorem test_accept_owreset : (after (exec .owreset State.reset)).map (fun s => (s.cmd, s.status, s.seq)) =
    some (0x00000001#32, 0x00000001#32, .run .owReset .none [.rstDrive]) := by rfl

theorem test_accept_owwbit : (after (exec (.owwbit true) State.reset)).map (fun s => (s.cmd, s.seq)) =
    some (0x00000102#32, .run .owWriteBit (.bit true) [.wbDrive]) := by rfl

theorem test_accept_owwbyte : (after (exec (.owwbyte 0xCC#8) State.reset)).map (fun s => (s.cmd, s.seq)) =
    some (0x0000CC03#32, .run .owWriteByte (.byte 0xCC#8) [.wyArg]) := by rfl

theorem test_accept_clears_done :
    (after (exec .owrbit { State.reset with status := 0x0000003E#32 })).map (·.status) = some 0x0000003D#32 := by rfl

theorem test_accept_owrbyte : (after (exec .owrbyte State.reset)).map (·.cmd) = some 0x00000005#32 := by rfl

theorem test_accept_dsconv : (after (exec .dsconv State.reset)).map (·.cmd) = some 0x00000006#32 := by rfl

theorem test_accept_dsget : (after (exec .dsget State.reset)).map (·.cmd) = some 0x00000007#32 := by rfl

theorem test_accept_dsread : (after (exec .dsread State.reset)).map (·.cmd) = some 0x00000008#32 := by rfl

theorem test_accept_dsreadb : (after (exec (.dsreadb 0x0003#16) State.reset)).map (fun s => (s.cmd, s.seq)) =
    some (0x00030009#32, .run .dsReadBounded (.limit 0x0003#16) [.rstDrive, .scTest, .rnTest]) := by rfl

/-- D-19. -/
theorem test_limit_zero : (after (exec (.dsreadb 0x0000#16) State.reset)).map (fun s => (s.status, s.seq, s.trace)) =
    some (0x0000000E#32, .idle, [.done none .illegal]) := by rfl

/-- E-1 and the end of the E vectors. -/
theorem test_illegal_word :
    (after (step (withTurns [.host (.write 0 4 0x00000000#32)]))).map (fun s => (s.cmd, s.status, s.trace)) =
      some (0x00000000#32, 0x0000000E#32, [.done none .illegal]) := by rfl

/-- H-2. -/
theorem test_overrun :
    (after (step { running .dsRead .none 0x00000008#32 [.rstDrive, .scTest, .rdTest] with
      turns := [.host (.write 0 4 0x00000001#32)] })).map (fun s => (s.cmd, s.status, s.trace)) =
      some (0x00000008#32, 0x00000021#32, []) := by rfl

/-! ## The primitives (L-1 to L-9, L-11) -/

theorem test_driveLow : State.reset.driveLow.lineOut = .low ∧ State.reset.driveLow.trace = [.low] := ⟨rfl, rfl⟩

theorem test_setLine_release : ({ State.reset with lineOut := .low }.setLine true).lineOut = .rel := by rfl

theorem test_setLine_driveHigh :
    ({ State.reset with lineOut := .low, params := { Config.Params.default with write1Drive := .driveHigh } }.setLine
      true).lineOut = .high := by rfl

theorem test_sample : (after ((withLevels [true]).sample .idle)).map (fun s => (s.sbit, s.levels, s.trace)) =
    some (true, [], [.sample true]) := by rfl

theorem test_sample_not_released :
    stopFault ({ withLevels [true] with lineOut := .low }.sample .idle) = some .sampleNotReleased := by rfl

/-- L-11: `Delay(2)` with a slack of 5 and the largest excess: one step, one event, 7 µs, the timer back at 0. -/
theorem test_delay_longest :
    let s := { State.reset with excess := [9], params := { Config.Params.default with delaySlackUs := 5 } }.delay 2 .idle
    (s.timer, s.elapsed, s.trace, s.excess) = (0, 7, [.wait 2], []) := by rfl

/-- R70: a delay point is left in one step. -/
theorem test_delay_one_step :
    (after (step { running .owReset .none 1#32 [.rstLow] with lineOut := .low, excess := [0] })).map
      (fun s => (s.seq, s.lineOut, s.elapsed, s.trace)) =
      some (.run .owReset .none [.rstRel], .low, 500, [.wait 500]) := by rfl

/-! ## Points and completions -/

/-- The first bit sent is bit 0 (T-12: 0xA5 begins with 1), the second bit 1. -/
theorem test_write_order :
    (after (stepPoint .owWriteByte (.byte 0xA5#8) .wyNext [] { State.reset with shift := 0xA5#8, biti := 0 })).map
      (·.wbit) = some true ∧
    (after (stepPoint .owWriteByte (.byte 0xA5#8) .wyNext [] { State.reset with shift := 0xA5#8, biti := 1 })).map
      (·.wbit) = some false := ⟨rfl, rfl⟩

/-- T-20: the last sample is bit 7. The store and the loop's step are two assignments, so two steps (R20). -/
theorem test_read_order :
    (after (stepPoint .owReadByte .none .ryStore [] { State.reset with biti := 7, sbit := true })).map
      (fun s => (s.shift, s.biti, s.seq)) = some (0x80#8, 7, .run .owReadByte .none [.ryInc]) ∧
    (after (stepPoint .owReadByte .none .ryInc [] { State.reset with biti := 7 })).map
      (fun s => (s.biti, s.seq)) = some (8, .run .owReadByte .none [.ryNext]) := ⟨rfl, rfl⟩

/-- R92: the test of `BUS_ABSENT` and `POLLN <- 0` are two steps (R20). -/
theorem test_poll_count_cleared :
    (after (stepPoint .dsReadBounded (.limit 1#16) .rnTest [] { State.reset with polln := 5 })).map
      (fun s => (s.polln, s.seq)) = some (5, .run .dsReadBounded (.limit 1#16) [.rnZero]) ∧
    (after (stepPoint .dsReadBounded (.limit 1#16) .rnZero [] { State.reset with polln := 5 })).map
      (fun s => (s.polln, s.seq)) = some (0, .run .dsReadBounded (.limit 1#16) [.rbDrive, .rnPoll]) := ⟨rfl, rfl⟩

/-- R88: when the last wire command byte is sent, the next step is the first of `LSB <- ow_read_byte()`. -/
theorem test_return_goes_on_in_the_call :
    (after (stepPoint .dsGetConversion .none .wyNext [.gcLsbCall] { State.reset with biti := 8 })).map (·.seq) =
      some (.run .dsGetConversion .none [.ryClear, .gcLsb]) := by rfl

/-- R90: `return ds_get_conversion()` leaves a point to return to. -/
theorem test_call_leaves_a_return_point :
    (after (stepPoint .dsRead .none .rdUntil [] { State.reset with sbit := true })).map (·.seq) =
      some (.run .dsRead .none [.rstDrive, .gcTest, .rdReturn]) := by rfl

/-- R91: `r <- ds_read()` and `if r == OK` are a step each, before the completion (R20). -/
theorem test_command_rule_steps :
    (after (stepPoint .dsGetConversion .none .gcMsb [.rdReturn] State.reset)).map (fun s => (s.ret, s.seq)) =
      some (.ok, .run .dsGetConversion .none [.cmdTake]) ∧
    (after (stepPoint .dsRead .none .cmdTake [] State.reset)).map (·.seq) = some (.run .dsRead .none [.cmdTest]) ∧
    (after (stepPoint .dsRead .none .cmdTest [] State.reset)).map (·.seq) = some (.run .dsRead .none [.cmdOk]) ∧
    (after (stepPoint .dsRead .none .cmdTest [] { State.reset with ret := .busAbsent })).map (·.seq) =
      some (.run .dsRead .none [.cmdDone]) := ⟨rfl, rfl, rfl, rfl⟩

/-- T-1 and T-2. -/
theorem test_close_owreset :
    (closing .owReset true { running .owReset .none 1#32 [.cmdOk] with pres := true }).status = 0x00000012#32 ∧
      (closing .owReset false (running .owReset .none 1#32 [.cmdDone])).status = 0x00000006#32 := ⟨rfl, rfl⟩

/-- T-15. -/
theorem test_close_owrbyte :
    (closing .owReadByte false { running .owReadByte .none 5#32 [.cmdDone] with shift := 0x50#8 }).data =
      0x00000050#32 := by rfl

/-- D-3 (S3) and D-4 (S4). -/
theorem test_close_dsget :
    (closing .dsGetConversion true { running .dsGetConversion .none 7#32 [.cmdOk] with
      pres := true, lsb := 0x50#8, msb := 0x05#8 }).temp = 0x00000550#32 ∧
    (closing .dsGetConversion true { running .dsGetConversion .none 7#32 [.cmdOk] with
      pres := true, lsb := 0xF0#8, msb := 0xFF#8 }).temp = 0xFFFFFFF0#32 := ⟨rfl, rfl⟩

/-- D-8: `TEMP` is kept. -/
theorem test_close_dsget_absent :
    let s := closing .dsGetConversion false { running .dsGetConversion .none 7#32 [.cmdDone] with
      ret := .busAbsent, temp := 0x00000550#32, lsb := 0xF0#8 }
    (s.temp, s.status) = (0x00000550#32, 0x00000006#32) := by rfl

/-- D-14: the limit is reached, `TIMEOUT`. -/
theorem test_poll_limit :
    (after (stepPoint .dsReadBounded (.limit 1#16) .rnUntil [] { State.reset with polln := 1 })).map (·.seq) =
      some (.run .dsReadBounded (.limit 1#16) [.rnAfter]) ∧
    (after (stepPoint .dsReadBounded (.limit 1#16) .rnAfter [] State.reset)).map (fun s => (s.ret, s.seq)) =
      some (.timeout, .run .dsReadBounded (.limit 1#16) [.cmdTake]) ∧
    (closing .dsReadBounded false { running .dsReadBounded (.limit 1#16) 0x00010009#32 [.cmdDone] with
      pres := true, ret := .timeout }).status = 0x0000001A#32 := ⟨rfl, rfl, rfl⟩

/-- R71: the hold is run only when presence was seen. -/
theorem test_hold_only_with_presence :
    (after (stepPoint .owReset .none .rstTest [] { State.reset with sbit := false })).map (·.seq) =
      some (.run .owReset .none [.rstHold]) ∧
    (after (stepPoint .owReset .none .rstTest [] { State.reset with sbit := true })).map (·.seq) =
      some (.run .owReset .none [.rstAbsent]) := ⟨rfl, rfl⟩

/-! ## The host window -/

/-- H-1. -/
theorem test_read_temp : (after (step (withTurns [.host (.read 0x0C 4)]))).map (·.reads) = some [0x00000000#32] := by
  rfl

/-- H-3 and H-4. -/
theorem test_write_status :
    (after (step { withTurns [.host (.write 4 4 0x00000000#32)] with status := 0x0000003A#32 })).map (·.status) =
      some 0x0000003A#32 ∧
    (after (step { withTurns [.host (.write 4 4 0x00000020#32)] with status := 0x0000003A#32 })).map (·.status) =
      some 0x0000001A#32 := ⟨rfl, rfl⟩

/-- H-5. -/
theorem test_write_data :
    (after (step { withTurns [.host (.write 8 4 0x12345678#32)] with data := 0x00000050#32 })).map (·.data) =
      some 0x00000050#32 := by rfl

/-- H-8. -/
theorem test_refused_accesses : ∀ a ∈ [HostAccess.read 4 2, .read 2 4, .read 0x10 4],
    refusal (step (withTurns [.host a])) = some .notAnAccess := by decide

/-- H-10. -/
theorem test_block_reset :
    (after (step { running .dsRead .none 8#32 [.rstLow, .scTest, .rdTest] with
      lineOut := .low, timer := 3, turns := [.blockReset] })).map
        (fun s => (s.lineOut, s.seq, s.timer, s.cmd, s.status, s.trace)) = some (.rel, .idle, 0, 0#32, 0#32, []) := by
  rfl

/-- P4: `wait` polls again while `BUSY` is 1. -/
theorem test_wait :
    (after (step { running .owReset .none 1#32 [.rstDrive] with turns := [.wait] })).map (fun s => (s.turns, s.reads)) =
      some ([.block, .wait], [0x00000001#32]) := by rfl

/-- S3 and S4 on the host's side. -/
theorem test_celsius : celsius .ds18b20 0x00000550#32 = 85 ∧ celsius .ds18b20 0xFFFFFFF0#32 = -1 := by
  have h1 : (0x00000550#32).toInt = 1360 := by decide
  have h2 : (0xFFFFFFF0#32).toInt = -16 := by decide
  norm_num [celsius, Config.TempScale.unitsPerDegree, h1, h2]

/-! ## Witnesses: for each statement with hypotheses, states and operands that meet them -/

/-- A bus reset at its first point, as an accepted `OW_RESET` leaves it. -/
def resetting : State := running .owReset .none 0x00000001#32 [.rstDrive]

/-- An `OW_RESET` at its completion, presence seen. -/
def resetDone : State := { running .owReset .none 0x00000001#32 [.cmdOk] with pres := true }

theorem inv_resetting : Inv resetting where
  busyRuns := ⟨fun _ => nofun, fun _ => rfl⟩
  busyNotDone _ := rfl
  statusReserved := rfl
  dataReserved := rfl
  tempExtended := rfl
  bitiRange := Nat.zero_le _
  pollnRange := Nat.zero_le _
  noDelay := rfl
  idleReleased := nofun
  running op o ps h := by
    cases h
    exact ⟨⟨rfl, rfl⟩, rfl, rfl, rfl, nofun, nofun, rfl⟩

theorem inv_resetDone : Inv resetDone where
  busyRuns := ⟨fun _ => nofun, fun _ => rfl⟩
  busyNotDone _ := rfl
  statusReserved := rfl
  dataReserved := rfl
  tempExtended := rfl
  bitiRange := Nat.zero_le _
  pollnRange := Nat.zero_le _
  noDelay := rfl
  idleReleased := nofun
  running op o ps h := by
    cases h
    exact ⟨⟨rfl, rfl⟩, rfl, rfl, rfl, nofun, nofun, rfl⟩

theorem quiet_withLevels (ls : List Bit) : Quiet (withLevels ls) :=
  ⟨(by decide : Status.busy 0x00000000#32 = false), rfl, rfl, rfl⟩

theorem witness_BlockResetAbortsAndReleases : (withTurns [.blockReset]).turns = .blockReset :: [] := rfl

theorem witness_DecodeOfEncodeIsTheInstruction :
    Instr.wellFormed (.owwbyte 0xFF#8) = true ∧ Instr.wellFormed (.dsreadb 0xFFFF#16) = true ∧
      Instr.wellFormed .readScratchpad = true := by decide

theorem witness_EncodeOfDecodeIsTheWord :
    decode (.command 0xFFFF0009#32) = .ok (.dsreadb 0xFFFF#16) ∧ decode (.wire 0xCC#8) = .ok .skipRom := ⟨rfl, rfl⟩

theorem witness_DecodeFollowsMatchAndMask :
    (∃ r ∈ commandRows, 0x00010009#32 &&& r.mask = r.pattern ∧
      (r.op = .dsReadBounded → (0x00010009#32).extractLsb' 16 16 ≠ 0#16)) ∧
    (∀ r ∈ commandRows, ¬ (0x00000009#32 &&& r.mask = r.pattern ∧
      (r.op = .dsReadBounded → (0x00000009#32).extractLsb' 16 16 ≠ 0#16))) := by decide

theorem witness_AssemblerAgreesWithTheEncoder :
    (HostStmt.dsread, Instr.dsread) ∈ [(HostStmt.owreset, Instr.owreset), (.owrbit, .owrbit), (.owrbyte, .owrbyte),
      (.dsconv, .dsconv), (.dsget, .dsget), (.dsread, .dsread)] ∧ encode .dsread = .command 0x00000008#32 := by decide

theorem witness_StepRunsTheWrittenCommand :
    (withTurns [.host (.write 0 4 0x00000001#32)]).turns =
      .host (.write State.reset.params.base 4 0x00000001#32) :: [] ∧
    decodeCommand 0x00000001#32 = .ok .owreset ∧ decodeCommand 0x00000000#32 = .error .reservedOpcode :=
  ⟨rfl, rfl, rfl⟩

theorem witness_StepRunsTheSequencer_wire :
    let s := { running .dsStartConversion .none 6#32 [.scSkip] with turns := [.block] }
    s.turns = .block :: [] ∧ s.seq = .run .dsStartConversion .none (.scSkip :: []) ∧
      Point.wireByte .scSkip = some 0xCC#8 ∧ decodeWire 0xCC#8 = .ok .skipRom := ⟨rfl, rfl, rfl, rfl⟩

theorem witness_StepRunsTheSequencer_point :
    resetting.turns = [] ∧ resetting.seq = .run .owReset .none (.rstDrive :: []) ∧
      Point.wireByte .rstDrive = none := ⟨rfl, rfl, rfl⟩

theorem witness_StepRunsTheSequencer_closing :
    resetDone.turns = [] ∧ Completing resetDone .owReset true := ⟨rfl, _, _, rfl⟩

theorem witness_StepRunsTheSequencer_idle : State.reset.turns = [] ∧ State.reset.seq = .idle := ⟨rfl, rfl⟩

/-- For the seven statements about a quiet state and nothing else, with presence and without. -/
theorem witness_Quiet : Quiet State.reset ∧ (withLevels [false]).levelAt 0 = false ∧
    (withLevels [true]).levelAt 0 = true ∧ Quiet (withLevels [false]) ∧ Quiet (withLevels [true]) :=
  ⟨⟨rfl, rfl, rfl, rfl⟩, rfl, rfl, quiet_withLevels _, quiet_withLevels _⟩

/-- D-11. -/
theorem witness_DsReadWithoutDeviceEndsAtOnce : Quiet (withLevels [true]) ∧ (withLevels [true]).levelAt 0 = true :=
  ⟨quiet_withLevels _, rfl⟩

/-- D-9 with no busy poll, D-10 with three; D-12 where the second bus reset sees no presence. -/
theorem witness_DsReadCompletesAfterAnyBusyPolls :
    (∃ s : State, Quiet s ∧ s.levelAt 0 = false ∧ (∀ j < 0, s.levelAt (1 + j) = false) ∧ s.levelAt (1 + 0) = true ∧
      s.levelAt (2 + 0) = true) ∧
    (∃ s : State, Quiet s ∧ s.levelAt 0 = false ∧ (∀ j < 3, s.levelAt (1 + j) = false) ∧ s.levelAt (1 + 3) = true ∧
      s.levelAt (2 + 3) = false) := by
  refine ⟨⟨withLevels [false, true, true], quiet_withLevels _, rfl, nofun, rfl, rfl⟩,
    ⟨withLevels [false, false, false, false, true, false], quiet_withLevels _, rfl, fun j hj => ?_, rfl, rfl⟩⟩
  interval_cases j <;> rfl

/-- D-13, the first two polls. -/
theorem witness_DsReadPollsWithoutBound :
    ∃ s : State, Quiet s ∧ s.levelAt 0 = false ∧ ∀ j < 2, s.levelAt (1 + j) = false := by
  refine ⟨withLevels [false, false, false], quiet_withLevels _, rfl, fun j hj => ?_⟩
  interval_cases j <;> rfl

/-- D-18. -/
theorem witness_DsReadBoundedWithoutDeviceEndsAtOnce :
    Quiet (withLevels [true]) ∧ (0x0003#16 : Half) ≠ 0 ∧ (withLevels [true]).levelAt 0 = true :=
  ⟨quiet_withLevels _, by decide, rfl⟩

/-- D-16: a 1 on the last allowed slot; D-15: at once, with the smallest limit; and at once with the largest. -/
theorem witness_DsReadBoundedCompletesWithinTheLimit :
    (∃ s : State, Quiet s ∧ 2 < (0x0003#16).toNat ∧ s.levelAt 0 = false ∧ (∀ j < 2, s.levelAt (1 + j) = false) ∧
      s.levelAt (1 + 2) = true ∧ s.levelAt (2 + 2) = false) ∧
    (∃ s : State, Quiet s ∧ 0 < (0x0001#16).toNat ∧ 0 < (0xFFFF#16).toNat ∧ s.levelAt 0 = false ∧
      (∀ j < 0, s.levelAt (1 + j) = false) ∧ s.levelAt (1 + 0) = true ∧ s.levelAt (2 + 0) = true) := by
  refine ⟨⟨withLevels [false, false, false, true, false], quiet_withLevels _, by decide, rfl, fun j hj => ?_, rfl, rfl⟩,
    ⟨withLevels [false, true, true], quiet_withLevels _, by decide, by decide, rfl, nofun, rfl, rfl⟩⟩
  interval_cases j <;> rfl

/-- D-14 and D-17. -/
theorem witness_DsReadBoundedTimesOut :
    (∃ s : State, Quiet s ∧ (0x0001#16 : Half) ≠ 0 ∧ s.levelAt 0 = false ∧
      ∀ j < (0x0001#16).toNat, s.levelAt (1 + j) = false) ∧
    (∃ s : State, Quiet s ∧ (0x0003#16 : Half) ≠ 0 ∧ s.levelAt 0 = false ∧
      ∀ j < (0x0003#16).toNat, s.levelAt (1 + j) = false) := by
  refine ⟨⟨withLevels [false, false], quiet_withLevels _, by decide, rfl, fun j hj => ?_⟩,
    ⟨withLevels [false, false, false, false], quiet_withLevels _, by decide, rfl, fun j hj => ?_⟩⟩
  · have hj : j < 1 := hj
    interval_cases j; rfl
  · have hj : j < 3 := hj
    interval_cases j <;> rfl

theorem witness_WireCommandsSendTheirByte :
    let s := running .dsGetConversion .none 7#32 [.gcRead]
    (Instr.readScratchpad, 0xBE#8) ∈ [(Instr.skipRom, 0xCC#8), (.startConv, 0x44#8), (.readScratchpad, 0xBE#8)] ∧
      s.seq = .run .dsGetConversion .none [.gcRead] ∧ s.turns = [] ∧ s.timer = 0 := by
  decide

theorem witness_WireCommandsOfAnIdleBlockAreWriteByte :
    (Instr.skipRom, 0xCC#8) ∈ [(Instr.skipRom, 0xCC#8), (.startConv, 0x44#8), (.readScratchpad, 0xBE#8)] ∧
      State.reset.seq = .idle := by decide

theorem witness_ZeroLimitCompletesIllegal : Status.busy State.reset.status = false := rfl

theorem witness_IllegalWordCompletesAtAcceptance :
    let s := withTurns [.host (.write 0 4 0xFFFFFFFF#32)]
    s.turns = .host (.write s.params.base 4 0xFFFFFFFF#32) :: [] ∧
      decodeCommand 0xFFFFFFFF#32 = .error .reservedOpcode ∧ Status.busy s.status = false := ⟨rfl, rfl, rfl⟩

theorem witness_CommandWhileBusyIsOverrun :
    let s := { resetting with turns := [.host (.write 0 4 0x00000000#32)] }
    s.turns = .host (.write s.params.base 4 0x00000000#32) :: [] ∧ Status.busy s.status = true := ⟨rfl, rfl⟩

/-- Each of the four offsets, in a window away from 0. -/
theorem witness_HostReadReturnsTheRegister : ∀ off ∈ [0x00, 0x04, 0x08, 0x0C],
    let s := { withTurns [.host (.read (0x1000 + off) 4)] with params := { Config.Params.default with base := 0x1000 } }
    s.turns = .host (.read (s.params.base + off) 4) :: [] ∧
      (off, 0#32) ∈ [(0x00, s.cmd), (0x04, s.status &&& 0x0000003F#32), (0x08, s.data &&& 0x000000FF#32),
        (0x0C, (s.temp.extractLsb' 0 16).signExtend 32)] := by decide

/-- Each clause: `DATA` and `TEMP`; `STATUS` with bit 5 = 0 and with bit 5 = 1. -/
theorem witness_HostWritesHaveNoOtherEffect : ∀ p ∈ [(0x08, 0xFFFFFFFF#32), (0x0C, 0#32), (0x04, 0xFFFFFFDF#32),
    (0x04, 0x00000020#32)],
    (withTurns [.host (.write p.1 4 p.2)]).turns = .host (.write (State.reset.params.base + p.1) 4 p.2) :: [] := by
  decide

/-- Both clauses: a width other than 4, and offsets next to the four. -/
theorem witness_OtherAccessesAreRefused :
    (withTurns [.host (.read 4 2)]).turns = .host (.read 4 2) :: [] ∧ (2 : Nat) ≠ 4 ∧
    (withTurns [.host (.write 0x10 4 0#32)]).turns = .host (.write 0x10 4 0#32) :: [] ∧
    ∀ addr ∈ [1, 3, 5, 7, 9, 11, 13, 0x10], addr ≠ State.reset.params.base ∧ addr ≠ State.reset.params.base + 4 ∧
      addr ≠ State.reset.params.base + 8 ∧ addr ≠ State.reset.params.base + 12 := by decide

/-- Idle and busy. -/
theorem witness_WaitEndsOnlyWhenNotBusy :
    (withTurns [.wait]).turns = .wait :: [] ∧ Status.busy (withTurns [.wait]).status = false ∧
      Status.busy { resetting with turns := [.wait] }.status = true := ⟨rfl, rfl, rfl⟩

/-- Both clauses, at both points. -/
theorem witness_SampleNeedsTheLineReleased :
    (Point.rstSample, Point.rstTest) ∈ [(Point.rstSample, Point.rstTest), (.rbSample, .rbPost)] ∧
      (Point.rbSample, Point.rbPost) ∈ [(Point.rstSample, Point.rstTest), (.rbSample, .rbPost)] ∧
      State.reset.lineOut = .rel ∧ State.reset.driveLow.lineOut ≠ .rel := by decide

/-- The ends of the slack, `Delay(2)` of 2 and of 7 µs with a slack of 5, and three of the delay points. -/
theorem witness_DelayLastsWithinTheSlack :
    let s := { State.reset with params := { Config.Params.default with delaySlackUs := 5 } }
    2 ≤ 2 ∧ 2 ≤ 2 + s.params.delaySlackUs ∧ 2 ≤ 7 ∧ 7 ≤ 2 + s.params.delaySlackUs ∧
      ∀ x ∈ [(Point.rstLow, 500, [Point.rstRel]), (.wbRec, 2, [.cmdDone]), (.rbPost, 120, [.cmdDone])],
        x ∈ [(Point.rstLow, s.params.tRstLow, Point.rstRel :: []), (.rstPds, s.params.tRstPds, .rstSample :: []),
          (.rstHold, s.params.tRstHold, .rstPresent :: []), (.wbLow, s.params.tWLow, .wbSet :: []),
          (.wbHold, s.params.tWHold, .wbRel :: []), (.wbRec, s.params.tWRec, resume .owWriteBit []),
          (.rbLow, s.params.tRLow, .rbRel :: []),
          (.rbPre, s.params.tRPre, .rbSample :: []), (.rbPost, s.params.tRPost, resume .owWriteBit [])] := by decide

theorem witness_StepKeepsTheInvariant : Inv resetting ∧ ∃ t, step resetting = .next t := ⟨inv_resetting, _, rfl⟩

theorem witness_NoStepFaults : Inv resetDone := inv_resetDone

theorem witness_StepStopsOnlyForForeignAccesses : Inv resetting ∧
    (∀ addr width ts, resetting.turns = .host (.read addr width) :: ts → width = 4 ∧
      addr ∈ [resetting.params.base, resetting.params.base + 4, resetting.params.base + 8, resetting.params.base + 12]) ∧
    (∀ addr width v ts, resetting.turns = .host (.write addr width v) :: ts → width = 4 ∧
      addr ∈ [resetting.params.base, resetting.params.base + 4, resetting.params.base + 8,
        resetting.params.base + 12]) := ⟨inv_resetting, nofun, nofun⟩

theorem witness_StackHoldsAtMostFourPoints : Inv resetting ∧ resetting.seq = .run .owReset .none [.rstDrive] :=
  ⟨inv_resetting, rfl⟩

theorem witness_LineIsReleasedWheneverIdle :
    Inv resetDone ∧ ∃ t, step resetDone = .next t ∧ t.seq = .idle := ⟨inv_resetDone, _, rfl, rfl⟩

/-- With no turn listed, and under the host's `wait`, which has listed the block's turn. -/
theorem witness_CompletionReportsOneKind :
    (Inv resetDone ∧ Completing resetDone .owReset true ∧ resetDone.turns = [] ∧ ∃ t, step resetDone = .next t) ∧
    (let s := { resetDone with turns := [.block, .wait] }
    Inv s ∧ Completing s .owReset true ∧ s.turns = .block :: [.wait] ∧ ∃ t, step s = .next t) :=
  ⟨⟨inv_resetDone, ⟨_, _, rfl⟩, rfl, _, rfl⟩, inv_resetDone.withTurns _, ⟨_, _, rfl⟩, rfl, _, rfl⟩

/-- `TEMP` changes at a completion. -/
theorem witness_TempChangesOnlyAtSuccessfulReads :
    ∃ t, step { running .dsGetConversion .none 7#32 [.cmdOk] with pres := true, lsb := 0x50#8, msb := 0x05#8 } = .next t ∧
      t.temp = 0x00000550#32 := ⟨_, rfl, rfl⟩

/-- `DATA` changes at a completion. -/
theorem witness_DataChangesOnlyAtTransportReads :
    ∃ t, step { running .owReadBit .none 4#32 [.cmdDone] with sbit := true } = .next t ∧ t.data = 0x00000001#32 :=
  ⟨_, rfl, rfl⟩

/-- `BUSY` rises, and falls. -/
theorem witness_BusyChangesOnlyByAcceptanceAndCompletion :
    (∃ t, step (withTurns [.host (.write 0 4 0x00000001#32)]) = .next t ∧ Status.busy t.status = true) ∧
    (∃ t, step resetDone = .next t ∧ Status.busy t.status = false) := ⟨⟨_, rfl, rfl⟩, ⟨_, rfl, rfl⟩⟩

theorem witness_CmdChangesOnlyByAcceptedWrites :
    ∃ t, step (withTurns [.host (.write 0 4 0x00000001#32)]) = .next t ∧ t.cmd ≠ State.reset.cmd :=
  ⟨_, rfl, by decide⟩

theorem witness_ResultsHoldWhileBusy :
    Status.busy resetting.status = true ∧ ∃ t, step resetting = .next t ∧ Status.busy t.status = true :=
  ⟨rfl, _, rfl, rfl⟩

/-- `OVERRUN` rises, and falls. -/
theorem witness_OverrunChangesOnlyByTheHost :
    (∃ t, step { resetting with turns := [.host (.write 0 4 0x00000001#32)] } = .next t ∧
      Status.overrun t.status = true) ∧
    (∃ t, step { withTurns [.host (.write 4 4 0x00000020#32)] with status := 0x00000022#32 } = .next t ∧
      Status.overrun t.status = false) := ⟨⟨_, rfl, rfl⟩, ⟨_, rfl, rfl⟩⟩

theorem witness_StepAppendsAtMostOneEvent :
    ∃ t, step resetting = .next t ∧ t.trace = resetting.trace ++ [.low] := ⟨_, rfl, rfl⟩

theorem witness_LineChangesOnlyByPrimitives :
    ∃ t, step resetting = .next t ∧ t.lineOut = .low ∧ resetting.lineOut = .rel := ⟨_, rfl, rfl, rfl⟩

theorem witness_BusyOrDoneAfterAcceptance :
    (∃ t, step resetDone = .next t) ∧ resetDone.turns.head? ≠ some .blockReset ∧
      Status.busy resetDone.status = true := ⟨⟨_, rfl⟩, nofun, rfl⟩

/-- A write to `CMD` while a bus reset drives the line. -/
theorem witness_HostAccessesCommuteWithARunningOperation :
    Status.busy resetting.status = true ∧
      hostReg resetting.params.base 0 4 ≠ none ∧
      ∃ t, step { resetting with turns := [.block] } = .next t ∧ Status.busy t.status = true :=
  ⟨rfl, by decide, _, rfl, rfl⟩

/-- Two idle states whose sequencer and host registers and whose delay lengths differ. -/
theorem witness_LeftoverRegistersDoNotMatter :
    let s₁ := State.reset
    let s₂ := { State.reset with
      shift := 0xFF#8, biti := 8, lsb := 1#8, msb := 2#8, polln := 65535, pres := true, sbit := true, ret := .timeout,
      cmd := 0x00000008#32, status := 0x0000003A#32, data := 0x000000FF#32, temp := 0x00000550#32, excess := [3] }
    Quiet s₁ ∧ Quiet s₂ ∧ s₁.lineOut = .rel ∧ s₂.lineOut = .rel ∧ s₁.params = s₂.params ∧
      (∀ k, s₁.levelAt k = s₂.levelAt k) ∧
      encode .dsget = .command 0x00000007#32 ∧ Instr.wellFormed .dsget = true ∧ (∃ t, exec .dsget s₁ = .next t) ∧
      ∃ t, exec .dsget s₂ = .next t :=
  ⟨⟨rfl, rfl, rfl, rfl⟩, ⟨rfl, rfl, rfl, rfl⟩, rfl, rfl, rfl, fun _ => rfl, rfl, rfl, ⟨_, rfl⟩, _, rfl⟩

theorem witness_OperationsExceptDsReadEnd :
    Inv resetting ∧ resetting.turns = [] ∧ resetting.seq = .run .owReset .none [.rstDrive] ∧ Op.owReset ≠ .dsRead :=
  ⟨inv_resetting, rfl, rfl, nofun⟩

theorem witness_EchoedByteIsReadBack :
    let s := withLevels [true, false, true, false, false, true, false, true]
    Quiet s ∧ ∀ i < 8, s.levelAt i = (0xA5#8).getLsbD i := by
  refine ⟨quiet_withLevels _, fun i hi => ?_⟩
  interval_cases i <;> rfl

/-- Each clause, with further turns listed: a command is accepted; the assignment and the condition of a command rule;
and an operation completes under `wait`. -/
theorem witness_AcceptanceAndCompletionUnderAnyTurns :
    (let s := withTurns [.host (.write 0 4 0x00000007#32), .wait, .host (.read 0x0C 4)]
    s.turns = .host (.write s.params.base 4 0x00000007#32) :: [.wait, .host (.read 0x0C 4)] ∧
      decodeCommand 0x00000007#32 = .ok .dsget ∧ Status.busy s.status = false) ∧
    (let s := { running .owReadBit .none 4#32 [.cmdTake] with turns := [.block, .wait] }
    s.seq = .run .owReadBit .none (.cmdTake :: []) ∧ s.turns = .block :: [.wait]) ∧
    (let s := { running .dsGetConversion .none 7#32 [.cmdTest] with turns := [.block, .wait] }
    s.seq = .run .dsGetConversion .none (.cmdTest :: []) ∧ s.turns = .block :: [.wait] ∧
      Op.dsGetConversion ∈ [Op.owReset, .dsGetConversion, .dsRead, .dsReadBounded]) ∧
    (let s := { resetDone with turns := [.block, .wait] }
    Completing s .owReset true ∧ s.turns = .block :: [.wait]) :=
  ⟨⟨rfl, rfl, rfl⟩, ⟨rfl, rfl⟩, ⟨rfl, rfl, by decide⟩, ⟨_, _, rfl⟩, rfl⟩

/-- `RESULT`, `PRESENCE` and `DONE` change: at a completion under `wait`, at an illegal word, at an acceptance and at a
block reset. -/
theorem witness_ResultPresenceAndDoneChangeOnlyByTheirRules :
    (∃ t, step { resetDone with turns := [.block, .wait] } = .next t ∧ Status.done t.status = true ∧
      Status.presence t.status = true) ∧
    (∃ t, step (withTurns [.host (.write 0 4 0x00000000#32)]) = .next t ∧ Status.result t.status = .illegal) ∧
    (∃ t, step { withTurns [.host (.write 0 4 0x00000001#32)] with status := 0x0000001A#32 } = .next t ∧
      Status.done t.status = false ∧ Status.result t.status = .timeout) ∧
    (∃ t, step { withTurns [.blockReset] with status := 0x0000001A#32 } = .next t ∧
      Status.result t.status = .ok ∧ Status.presence t.status = false) :=
  ⟨⟨_, rfl, rfl, rfl⟩, ⟨_, rfl, rfl⟩, ⟨_, rfl, rfl, rfl⟩, ⟨_, rfl, rfl, rfl⟩⟩

end Sys2Proof.Tests
end

section
/-! SUPPORT. The family 00_scope: time, line, trace and temperature. What any step can do to the bus as observed is said
once (`step_busMove`), and the rules about the trace and the line are read off it. -/

namespace Sys2Proof.Machine

/-! ## Temperature (R9, R94) -/

/-- The raw temperature, sign-extended, is the pair of bytes read with the sign in `MSB`. -/
theorem toInt_sext32Half_rawTemperature (msb lsb : Byte) :
    (sext32Half (rawTemperature msb lsb)).toInt = 256 * msb.toInt + lsb.toNat :=
  calc (sext32Half (rawTemperature msb lsb)).toInt
    _ = (msb ++ lsb).toInt := BitVec.toInt_signExtend_of_le (by decide)
    _ = 256 * msb.toInt + lsb.toNat := BitVec.toInt_append

theorem unitsPerDegree_eq_ite (scale : Config.TempScale) :
    (scale.unitsPerDegree : Rat) = if scale = .ds18b20 then 16 else 2 := by
  cases scale <;> rfl

/-- Settles O37: the width-32 extension keeps the signed value, and the append weighs `MSB` by 256. -/
theorem temperatureIsTheSignedPair : Obligations.TemperatureIsTheSignedPair := by
  intro msb lsb scale
  have hraw := toInt_sext32Half_rawTemperature msb lsb
  exact ⟨hraw, by rw [celsius, hraw, unitsPerDegree_eq_ite]⟩

/-! ## What a step can do to the observed bus (R15, R17, R70) -/

/-- What a step other than a block reset can do to the parameters, the trace, the time and the line: at most one event;
with none no sample, no time and the same line; and the line changes only with the event of its primitive. -/
structure BusMove (s t : State) : Prop where
  params : t.params = s.params
  trace : (t.trace = s.trace ∧ t.elapsed = s.elapsed ∧ t.samples = s.samples ∧ t.lineOut = s.lineOut) ∨
    ∃ e, t.trace = s.trace ++ [e]
  line : t.lineOut = s.lineOut ∨ (t.lineOut = .low ∧ t.trace = s.trace ++ [.low]) ∨
    (t.lineOut = .rel ∧ t.trace = s.trace ++ [.rel]) ∨
    ∃ b, t.lineOut = setLineOut s.params.write1Drive b ∧ t.trace = s.trace ++ [.set b]

/-- Writing the host's registers, the sequencer's position and the turns does nothing on the bus. -/
theorem busMove_registers (s : State) (q : Seq) (c st : Word) (ts : List Turn) (rd : List Word) :
    BusMove s { s with seq := q, cmd := c, status := st, turns := ts, reads := rd } :=
  ⟨rfl, .inl ⟨rfl, rfl, rfl, rfl⟩, .inl rfl⟩

theorem PointMove.busMove {s t : State} {op : Op} {o : Operand} (h : PointMove s t op o) : BusMove s t :=
  ⟨h.params, h.trace, h.line⟩

/-- A completion adds its `DONE` and leaves the line. -/
theorem busMove_closing (op : Op) (held : Bool) (s : State) : BusMove s (closing op held s) := by
  obtain ⟨r, hclosing, -⟩ := closing_moves op held s
  rw [hclosing]
  exact ⟨rfl, .inr ⟨_, rfl⟩, .inl rfl⟩

theorem busMove_waitTurn (s : State) : BusMove s (waitTurn s) := by
  unfold waitTurn
  split <;> exact busMove_registers ..

theorem busMove_writeCommand (op : Op) (w : Word) (s : State) : BusMove s (s.writeCommand op w) := by
  unfold State.writeCommand
  split <;> exact busMove_registers ..

/-- An illegal word adds its `DONE` when it is accepted and nothing when it is lost. -/
theorem busMove_writeIllegal (w : Word) (s : State) : BusMove s (s.writeIllegal w) := by
  unfold State.writeIllegal
  split
  · exact busMove_registers ..
  · exact ⟨rfl, .inr ⟨_, rfl⟩, .inl rfl⟩

theorem busMove_writeStatus (v : Word) (s : State) : BusMove s (s.writeStatus v) := by
  unfold State.writeStatus
  split <;> exact busMove_registers ..

/-- Using up a turn before a move is no part of what the bus shows. -/
theorem BusMove.of_withTurns {s t : State} {ts : List Turn} (h : BusMove { s with turns := ts } t) : BusMove s t :=
  ⟨h.params, h.trace, h.line⟩

/-- Whoever moves, a step is a block reset or shows on the bus as `BusMove` says. -/
theorem step_busMove {s t : State} (e : step s = .next t) :
    (∃ ts, s.turns = .blockReset :: ts ∧ t = { s with turns := ts }.blockReset) ∨ BusMove s t := by
  rcases step_moves e with ⟨ts, -, ⟨-, rfl⟩ | ⟨op, held, -, rfl⟩ | ⟨op, o, ps, -, hpoint⟩⟩ | ⟨ts, -, rfl⟩ | hreset |
    ⟨ts, a, r, -, rfl⟩ | ⟨ts, v, op, -, -, rfl⟩ | ⟨ts, v, er, -, -, rfl⟩ | ⟨ts, v, -, rfl⟩ | ⟨ts, a, -, rfl⟩
  · exact .inr (busMove_registers ..)
  · exact .inr (busMove_closing ..).of_withTurns
  · exact .inr hpoint.busMove.of_withTurns
  · exact .inr (busMove_waitTurn _).of_withTurns
  · exact .inl hreset
  · exact .inr (busMove_registers ..)
  · exact .inr (busMove_writeCommand ..).of_withTurns
  · exact .inr (busMove_writeIllegal ..).of_withTurns
  · exact .inr (busMove_writeStatus ..).of_withTurns
  · exact .inr (busMove_registers ..)

/-- Settles O51: a block reset adds no event, and every other step is a `BusMove`. -/
theorem stepAppendsAtMostOneEvent : Obligations.StepAppendsAtMostOneEvent := by
  intro s t e
  rcases step_busMove e with ⟨ts, hturn, rfl⟩ | hmove
  · exact ⟨rfl, .inl ⟨rfl, rfl, rfl, .inr (by rw [hturn]; rfl)⟩⟩
  · refine ⟨hmove.params, hmove.trace.imp_left ?_⟩
    rintro ⟨htrace, helapsed, hsamples, hline⟩
    exact ⟨htrace, helapsed, hsamples, .inl hline⟩

/-- `SetLine(b)` by its bit and `WRITE1_DRIVE` (R66). -/
theorem setLineOut_cases (drive : Config.Write1Drive) (b : Bit) :
    (b = false ∧ setLineOut drive b = .low) ∨ (b = true ∧ setLineOut drive b = .rel) ∨
      (b = true ∧ drive = .driveHigh ∧ setLineOut drive b = .high) := by
  cases b
  · exact .inl ⟨rfl, rfl⟩
  · cases drive
    · exact .inr (.inl ⟨rfl, rfl⟩)
    · exact .inr (.inr ⟨rfl, rfl, rfl⟩)

/-- Settles O52: the line's part of `BusMove`, with `SetLine(b)` split by its bit and `WRITE1_DRIVE`. -/
theorem lineChangesOnlyByPrimitives : Obligations.LineChangesOnlyByPrimitives := by
  intro s t e
  rcases step_busMove e with ⟨ts, hturn, rfl⟩ | hmove
  · exact ⟨.inr (.inl ⟨by rw [hturn]; rfl, rfl⟩), nofun⟩
  rcases hmove.line with hkeep | ⟨hlow, htrace⟩ | ⟨hrel, htrace⟩ | ⟨b, hset, htrace⟩
  · exact ⟨.inl hkeep, fun hhigh => .inl (hkeep.symm.trans hhigh)⟩
  · exact ⟨.inr (.inr (.inl ⟨hlow, .inl htrace⟩)), by rw [hlow]; nofun⟩
  · exact ⟨.inr (.inr (.inr (.inl ⟨hrel, .inl htrace⟩))), by rw [hrel]; nofun⟩
  · rcases setLineOut_cases s.params.write1Drive b with ⟨rfl, hout⟩ | ⟨rfl, hout⟩ | ⟨rfl, hdrive, hout⟩ <;>
      rw [hset, hout]
    · exact ⟨.inr (.inr (.inl ⟨rfl, .inr htrace⟩)), nofun⟩
    · exact ⟨.inr (.inr (.inr (.inl ⟨rfl, .inr htrace⟩))), nofun⟩
    · exact ⟨.inr (.inr (.inr (.inr ⟨rfl, htrace⟩))), fun _ => .inr hdrive⟩

/-! ## Delays (R7, R68) -/

/-- An excess listed within the slack is the one drawn. -/
theorem excessAt_listed (s : State) {x : Nat} (hx : x ≤ s.params.delaySlackUs) :
    { s with excess := [x] }.excessAt 0 = x := Nat.min_eq_left hx

/-- Every length from the nominal one to the slack's end is that of some delay. -/
theorem delay_elapsed_listed (s : State) {n d : Nat} (next : Seq) (hn : n ≤ d)
    (hd : d ≤ n + s.params.delaySlackUs) :
    ({ s with excess := [d - n] }.delay n next).elapsed = s.elapsed + d := by
  have hx : d - n ≤ s.params.delaySlackUs := by omega
  rw [delay_eq, excessAt_listed s hx]
  exact congrArg (s.elapsed + ·) (Nat.add_sub_cancel' hn)

/-- Settles O36: the length is the nominal one plus the excess drawn, which the slack bounds and the list can name. -/
theorem delayLastsWithinTheSlack : Obligations.DelayLastsWithinTheSlack := by
  intro s
  refine ⟨fun n next => ⟨⟨n + s.excessAt 0, Nat.le_add_right .., Nat.add_le_add_left (excessAt_le s 0) n,
    loadTimer_timer s n, delay_eq s n next⟩, fun d hn hd => delay_elapsed_listed s next hn hd⟩, ?_⟩
  intro op o p n ps qs hmem
  simp only [List.mem_cons, List.not_mem_nil, or_false, Prod.mk.injEq] at hmem
  rcases hmem with ⟨rfl, rfl, rfl⟩ | ⟨rfl, rfl, rfl⟩ | ⟨rfl, rfl, rfl⟩ | ⟨rfl, rfl, rfl⟩ | ⟨rfl, rfl, rfl⟩ |
    ⟨rfl, rfl, rfl⟩ | ⟨rfl, rfl, rfl⟩ | ⟨rfl, rfl, rfl⟩ | ⟨rfl, rfl, rfl⟩ <;> rfl

/-! ## Nominal durations (R126) -/

/-- Settles O58: sums of the defaults of R6. -/
theorem nominalDurationsAtTheDefaults : Obligations.NominalDurationsAtTheDefaults := by
  unfold Obligations.NominalDurationsAtTheDefaults
  decide

end Sys2Proof.Machine
end

section
/-! SUPPORT. The family 10_state, first part: the invariant. Each kind of move keeps it (R17 to R33), the stack of points
is bounded by the call depth (R20), and a completion reports the kind its operation returned (R99 to R102). -/

namespace Sys2Proof.Machine

/-! ## Every step keeps the invariant -/

/-- The host's `wait` keeps the invariant: it reads `STATUS` and lists turns (R61). -/
theorem Inv.waitTurn {s : State} (h : Inv s) : Inv (waitTurn s) := by
  unfold Machine.waitTurn
  split
  · exact (h.hostRead .status).withTurns _
  · exact h.hostRead .status

/-- A write to `STATUS` keeps the invariant: it changes `OVERRUN` at most (R29, R39). -/
theorem Inv.writeStatus {s : State} (h : Inv s) (v : Word) : Inv (s.writeStatus v) := by
  unfold State.writeStatus
  split
  · exact h.withStatus (by simp) (by simp) (by simp)
  · exact h

/-- A move of the sequencer that keeps what the invariant says of the running operation keeps all of it: the host
registers stay and the operation runs on. -/
theorem Inv.point {s t : State} {op : Op} {o : Operand} {ps : List Point} (h : Inv s) (hs : s.seq = .run op o ps)
    (hmove : PointMove s t op o) (hnext : PointNext s op o t) : Inv t := by
  obtain ⟨qs, hseq, hrun⟩ := hnext.runs
  have hbusy := h.busy hs
  exact {
    busyRuns := by simp [hmove.status, hbusy, hseq]
    busyNotDone := by rw [hmove.status]; exact h.busyNotDone
    statusReserved := by rw [hmove.status]; exact h.statusReserved
    dataReserved := by rw [hmove.data]; exact h.dataReserved
    tempExtended := by rw [hmove.temp]; exact h.tempExtended
    bitiRange := hnext.biti h.bitiRange
    pollnRange := hnext.polln h.pollnRange
    noDelay := hmove.timer h.noDelay
    idleReleased := by rw [hseq]; nofun
    running := fun op' o' ps' hs' => by rw [hseq] at hs'; cases hs'; exact hrun }

/-- The block's own move keeps the invariant, whatever it is. -/
theorem Inv.blockStep {s t : State} (h : Inv s) (e : blockStep s = .next t) : Inv t := by
  match hs : s.seq with
  | .idle => rw [blockStep_idle hs] at e; cases e; exact h
  | .run op o [] => exact absurd (h.running _ _ _ hs).stack nofun
  | .run op o (p :: ps) =>
    rcases lastPoint_cases p with ⟨held, rfl⟩ | hp
    · have hcompleting : Completing s op held := ⟨o, ps, hs⟩
      rw [blockStep_closing hcompleting] at e; cases e
      exact h.closing hcompleting
    · rw [blockStep_point hs] at e
      exact h.point hs (stepPoint_moves hp hs e) (point_next hp hs (h.running _ _ _ hs) e)

/-- A host access that is answered keeps the invariant. -/
theorem Inv.hostStep {s t : State} {a : HostAccess} (h : Inv s) (e : hostStep a s = .next t) : Inv t := by
  rcases hostStep_cases a s with hh | ⟨r, hh⟩ |
      ⟨addr, width, v, -, ⟨-, ⟨op, hdecode, hh⟩ | ⟨er, -, hh⟩⟩ | ⟨-, hh⟩ | hh⟩ <;>
    rw [hh] at e <;> cases e
  · exact h.hostRead r
  · exact h.writeCommand hdecode
  · exact h.writeIllegal v
  · exact h.writeStatus v
  · exact h

/-- Settles O39, by whose turn it is: the block, the host's `wait`, a block reset or a host access. -/
theorem stepKeepsTheInvariant : Obligations.StepKeepsTheInvariant := by
  intro s t h e
  rcases step_cases e with ⟨ts, -, e⟩ | ⟨ts, -, rfl⟩ | ⟨ts, -, rfl⟩ | ⟨a, ts, -, e⟩
  · exact (h.withTurns ts).blockStep e
  · exact (h.withTurns ts).waitTurn
  · exact inv_blockReset _
  · exact (h.withTurns ts).hostStep e

/-! ## The depth of the stack (R20) -/

/-- How many points a stack with a point of this procedure on top can hold: its callers, and itself. -/
def Proc.depth : Proc → Nat
  | .dsRead | .dsReadBounded | .command => 1
  | .dsStart | .dsGet => 2
  | .owReset | .owWriteByte | .owReadByte => 3
  | .owWriteBit | .owReadBit => 4

theorem depth_le_four (pr : Proc) : pr.depth ≤ 4 := by cases pr <;> decide

/-- A procedure stands deeper than the point that takes up its return. -/
theorem depth_lt_of_awaits {q : Point} {pr : Proc} (h : q.awaits = some pr) : q.proc.depth < pr.depth := by
  cases q <;> cases h <;> decide

theorem length_le_depth {op : Op} {p : Point} {ps : List Point} (h : legalStack op (p :: ps) = true) :
    (p :: ps).length ≤ p.proc.depth := by
  induction ps generalizing p with
  | nil => cases p <;> decide
  | cons q qs ih =>
    obtain ⟨hawaits, hbelow⟩ := legal_cons.1 h
    have hlt := depth_lt_of_awaits hawaits
    have hle := ih hbelow
    simp only [List.length_cons] at hle ⊢
    omega

/-- Settles O42: each call goes to a procedure one deeper, and none is deeper than four. -/
theorem stackHoldsAtMostFourPoints : Obligations.StackHoldsAtMostFourPoints := by
  intro s op o ps hinv hs
  cases ps with
  | nil => exact Nat.zero_le 4
  | cons p ps => exact (length_le_depth (hinv.running _ _ _ hs).stack).trans (depth_le_four _)

/-! ## What the block does in its turn -/

/-- The block moves when its turn is listed and when no turn is (log entry 2). -/
theorem step_blockTurn {s : State} {ts : List Turn} (h : s.turns = .block :: ts ∨ s.turns = [] ∧ ts = []) :
    step s = blockStep { s with turns := ts } := by
  rcases h with h | ⟨h, rfl⟩
  · exact step_block h
  · rw [step_noTurns h, ← h]

/-- Where an operation completes, the completion reads nothing of the turns. -/
theorem Completing.withTurns {s : State} {op : Op} {held : Bool} (h : Completing s op held) (ts : List Turn) :
    Completing { s with turns := ts } op held := h

/-- In the block's turn an operation at its completion completes. -/
theorem step_completing {s : State} {ts : List Turn} {op : Op} {held : Bool}
    (hturn : s.turns = .block :: ts ∨ s.turns = [] ∧ ts = []) (h : Completing s op held) :
    step s = .next (closing op held { s with turns := ts }) :=
  (step_blockTurn hturn).trans (blockStep_closing (h.withTurns ts))

/-- A completion as seen from outside: idle, `BUSY` 0, `DONE` 1, `OVERRUN` kept, and the one `DONE` event with the result
reported. -/
structure Completed (s t : State) (op : Op) : Prop where
  state : t = { s with
    seq := .idle, status := t.status, data := t.data, temp := t.temp,
    trace := s.trace ++ [.done (some op) (Status.result t.status)] }
  busy : Status.busy t.status = false
  done : Status.done t.status = true
  overrun : Status.overrun t.status = Status.overrun s.status
  reserved : Status.reservedZero t.status = true

theorem completed_closing (op : Op) (held : Bool) (s : State) : Completed s (closing op held s) op := by
  obtain ⟨r, hstate, hstatus, hoverrun, -, -⟩ := closing_moves op held s
  generalize closing op held s = t at *
  have hresult : Status.result t.status = r := by rw [hstatus]; simp
  subst hresult
  constructor
  · exact hstate.trans (by rw [← hstatus])
  · rw [hstatus]; simp
  · rw [hstatus]; simp
  · exact hoverrun
  · rw [hstatus]; simp

/-! ## The kind a completion reports (R99 to R102) -/

/-- At a session operation's completion the returned result agrees with the presence sample. -/
theorem resultAgrees_of_closingAgrees {op : Op} {r : ResultCode} {p held : Bit} (hs : Op.isSession op = true)
    (h : closingAgrees op r p held = true) : resultAgrees op r p = true := by
  have hreset : op ≠ .owReset := by rintro rfl; cases hs
  simp only [closingAgrees, beq_iff_eq, hreset, hs, if_false, Bool.not_true, Bool.false_or, Bool.and_eq_true] at h
  exact h.1

/-- Where the invariant holds at the completion, the reported result is `OK`, or it agrees with the reported presence. -/
theorem closing_result_agrees {s : State} {op : Op} {held : Bool}
    (h : closingAgrees op s.ret s.pres held = true) :
    resultAgrees op (Status.result (closing op held s).status) (Status.presence (closing op held s).status) = true ∨
      Status.result (closing op held s).status = .ok := by
  obtain ⟨hresult, hpresence, -, -⟩ := closing_results op held s
  rw [hresult, hpresence]
  by_cases hreset : op = .owReset
  · subst hreset
    have hheld : s.pres = held := by simpa [closingAgrees] using h
    cases held <;> simp [resultAgrees, hheld]
  by_cases hsession : Op.isSession op = true
  · have hagrees := resultAgrees_of_closingAgrees hsession h
    simp only [hreset, hsession, if_true, if_false, or_true]
    split
    · exact .inr rfl
    · exact .inl hagrees
  · exact .inr (by simp [hreset, hsession])

/-- A result that agrees with the presence is one of the kinds of R99 to R101. -/
theorem kind_of_resultAgrees {op : Op} {r : ResultCode} {p : Bit} (h : resultAgrees op r p = true ∨ r = .ok) :
    r ≠ .illegal ∧ (r = .busAbsent → p = false) ∧ (r = .timeout → op = .dsReadBounded ∧ p = true) := by
  cases r <;> simp_all [resultAgrees]

/-- At the completion the invariant says how the returned values agree with the condition. -/
theorem Inv.closingAgrees {s : State} {op : Op} {held : Bool} (h : Inv s) (hc : Completing s op held) :
    closingAgrees op s.ret s.pres held = true := by
  obtain ⟨o, ps, hs⟩ := hc
  have hreturned := (h.running _ _ _ hs).returned
  cases held <;> exact hreturned

/-- Settles O44: the completion step, with the agreement the invariant holds at that point. -/
theorem completionReportsOneKind : Obligations.CompletionReportsOneKind := by
  intro s t op held ts hinv hc hturn e
  obtain ⟨ts', hturn⟩ : ∃ ts', s.turns = .block :: ts' ∨ s.turns = [] ∧ ts' = [] := by
    rcases hturn with hturn | hturn
    · exact ⟨ts, .inl hturn⟩
    · exact ⟨[], .inr ⟨hturn, rfl⟩⟩
  rw [step_completing hturn hc] at e
  cases e
  have hdone := completed_closing op held { s with turns := ts' }
  obtain ⟨hillegal, habsent, htimeout⟩ := kind_of_resultAgrees
    (closing_result_agrees (s := { s with turns := ts' }) (hinv.closingAgrees hc))
  refine ⟨?_, hdone.busy, hdone.done, hillegal, habsent, htimeout, ?_⟩ <;> rw [hdone.state]

end Sys2Proof.Machine
end

section
/-! SUPPORT. The family 10_state, second part: what one step can do to the host registers is said once
(`step_registerMove`), and the rules about `CMD`, `STATUS`, `DATA` and `TEMP` are read off it (R23 to R31). -/

namespace Sys2Proof.Machine

/-! ## A host write to `CMD` -/

/-- A legal word written to `CMD` selects the operation it decodes to and is written as that command. -/
theorem step_writeCmd_decoded {s : State} {ts : List Turn} {w : Word} {i : Instr}
    (hturn : s.turns = .host (.write s.params.base 4 w) :: ts) (hw : decodeCommand w = .ok i) :
    ∃ op : Op, i = op.instr w ∧ step s = .next ({ s with turns := ts }.writeCommand op w) := by
  obtain ⟨op, hop, hexec⟩ := exec_decoded hw { s with turns := ts }
  exact ⟨op, Except.ok.inj (hw.symm.trans hop), (step_writeCmd hturn hw).trans hexec⟩

theorem writeIllegal_busy {s : State} (h : Status.busy s.status = true) (w : Word) :
    s.writeIllegal w = s.refuseCommand := if_pos h

theorem writeIllegal_idle {s : State} (h : Status.busy s.status = false) (w : Word) :
    s.writeIllegal w = { s with
      cmd := w, status := Status.complete .illegal s.status, trace := s.trace ++ [.done none .illegal] } := by
  simp [State.writeIllegal, h]

/-- Any word written to `CMD` while the block is busy is refused (R103, R108). -/
theorem step_writeCmd_busy {s : State} {ts : List Turn} {w : Word}
    (hturn : s.turns = .host (.write s.params.base 4 w) :: ts) (hbusy : Status.busy s.status = true) :
    step s = .next { s with turns := ts }.refuseCommand := by
  cases hw : decodeCommand w with
  | ok i =>
    obtain ⟨op, -, hstep⟩ := step_writeCmd_decoded hturn hw
    rw [hstep, writeCommand_busy (s := { s with turns := ts }) hbusy]
  | error er => rw [step_writeCmd_illegal hturn hw, writeIllegal_busy (s := { s with turns := ts }) hbusy]

/-- Settles O9: the write reaches `CMD`, and its word decodes or does not. -/
theorem stepRunsTheWrittenCommand : Obligations.StepRunsTheWrittenCommand := by
  intro s ts w hturn
  exact ⟨fun _ hw => step_writeCmd hturn hw, fun _ hw => step_writeCmd_illegal hturn hw⟩

/-- Settles O29: the write is refused, and `OVERRUN` is one field of `STATUS`. -/
theorem commandWhileBusyIsOverrun : Obligations.CommandWhileBusyIsOverrun := by
  intro s ts w hturn hbusy
  exact ⟨_, step_writeCmd_busy hturn hbusy, rfl, overrun_setOverrun .., (busy_setOverrun ..).trans hbusy,
    done_setOverrun .., result_setOverrun .., presence_setOverrun ..⟩

/-! ## A host write to the other registers -/

/-- A 32-bit write to `STATUS` is the update of `OVERRUN`. -/
theorem step_writeStatus {s : State} {ts : List Turn} {v : Word}
    (hturn : s.turns = .host (.write (s.params.base + 4) 4 v) :: ts) :
    step s = .next ({ s with turns := ts }.writeStatus v) := by
  rw [step_host hturn]
  simp [hostStep, hostTurn, hostReg, HostReg.offset]

/-- A 32-bit write to `DATA` or `TEMP` has no effect (R39). -/
theorem step_writeData {s : State} {ts : List Turn} {off : Nat} {v : Word} (hoff : off = 0x08 ∨ off = 0x0C)
    (hturn : s.turns = .host (.write (s.params.base + off) 4 v) :: ts) : step s = .next { s with turns := ts } := by
  rw [step_host hturn]
  rcases hoff with rfl | rfl <;> simp [hostStep, hostTurn, hostReg, HostReg.offset]

theorem writeStatus_keep {v : Word} (hv : v.getLsbD 5 = false) (s : State) : s.writeStatus v = s :=
  if_neg (by rw [hv]; nofun)

theorem writeStatus_clear {v : Word} (hv : v.getLsbD 5 = true) (s : State) :
    s.writeStatus v = { s with status := Status.setOverrun false s.status } := if_pos hv

/-- Settles O31, by the register the offset names and bit 5. -/
theorem hostWritesHaveNoOtherEffect : Obligations.HostWritesHaveNoOtherEffect := by
  intro s ts off v hturn
  refine ⟨fun hoff => step_writeData hoff hturn, ?_, ?_⟩
  · rintro rfl hv
    rw [step_writeStatus hturn, writeStatus_keep hv]
  · rintro rfl hv
    rw [step_writeStatus hturn, writeStatus_clear hv]
    exact ⟨_, rfl, rfl, overrun_setOverrun .., busy_setOverrun .., done_setOverrun .., result_setOverrun ..,
      presence_setOverrun ..⟩

/-! ## The block's turn -/

/-- At a point that sends a wire command byte the block's turn is the meaning of that byte. -/
theorem blockStep_wire {s : State} {op : Op} {o : Operand} {p : Point} {ps : List Point} {b : Byte} {i : Instr}
    (hs : s.seq = .run op o (p :: ps)) (hb : p.wireByte = some b) (hi : decodeWire b = .ok i) :
    blockStep s = exec i s := by
  simp [blockStep, blockTurn, hs, hb, hi]

/-- Settles O10, by what the sequencer stands at. -/
theorem stepRunsTheSequencer : Obligations.StepRunsTheSequencer := by
  intro s ts hturn
  rw [step_blockTurn hturn]
  exact ⟨fun op o p ps b i hs hb hi => blockStep_wire hs hb hi, fun op o p ps hs _ => blockStep_point hs,
    fun op held hc => blockStep_closing (hc.withTurns ts), fun hs => blockStep_idle hs⟩

/-- Settles O35: `Sample()` at the two points, the line released or not (R67). -/
theorem sampleNeedsTheLineReleased : Obligations.SampleNeedsTheLineReleased := by
  intro s op o p q ps hpoint
  have hsample : stepPoint op o p ps s = s.sample (.run op o (q :: ps)) := by
    simp only [List.mem_cons, Prod.mk.injEq, List.not_mem_nil, or_false] at hpoint
    rcases hpoint with ⟨rfl, rfl⟩ | ⟨rfl, rfl⟩ <;> rfl
  rw [hsample]
  exact ⟨fun hline => sample_released _ hline, fun hline => if_neg hline⟩

/-! ## What a step can do to the host registers -/

/-- What one step can do to `CMD`, `STATUS`, `DATA` and `TEMP`: nothing, or one of the six moves that write them. -/
inductive RegisterMove (s : State) : State → Prop
  /-- The host registers stay: a point but the completion, an idle block, a read, a write without effect. -/
  | keep {t : State} (cmd : t.cmd = s.cmd) (status : t.status = s.status) (data : t.data = s.data)
      (temp : t.temp = s.temp) : RegisterMove s t
  /-- The running operation completes. -/
  | completion {op : Op} {held : Bool} (ts : List Turn) (atEnd : Completing s op held) :
      RegisterMove s (closing op held { s with turns := ts })
  /-- A block reset. -/
  | reset (ts : List Turn) (turn : s.turns = .blockReset :: ts) : RegisterMove s { s with turns := ts }.blockReset
  /-- A legal word is written to `CMD` while `BUSY` is 0. -/
  | accept {ts : List Turn} {w : Word} {op : Op} (turn : s.turns = .host (.write s.params.base 4 w) :: ts)
      (decodes : decodeCommand w = .ok (op.instr w)) (free : Status.busy s.status = false) :
      RegisterMove s ({ s with turns := ts }.accept op w)
  /-- An illegal word is written to `CMD` while `BUSY` is 0. -/
  | illegal {ts : List Turn} {w : Word} {er : DecodeError} (turn : s.turns = .host (.write s.params.base 4 w) :: ts)
      (decodes : decodeCommand w = .error er) (free : Status.busy s.status = false) :
      RegisterMove s { s with
        turns := ts, cmd := w, status := Status.complete .illegal s.status, trace := s.trace ++ [.done none .illegal] }
  /-- A word is written to `CMD` while `BUSY` is 1. -/
  | overrun {ts : List Turn} {w : Word} (turn : s.turns = .host (.write s.params.base 4 w) :: ts)
      (busy : Status.busy s.status = true) : RegisterMove s { s with turns := ts }.refuseCommand
  /-- `STATUS` is written with bit 5 = 1. -/
  | clear {ts : List Turn} {v : Word} (turn : s.turns = .host (.write (s.params.base + 4) 4 v) :: ts)
      (bit : v.getLsbD 5 = true) :
      RegisterMove s { s with turns := ts, status := Status.setOverrun false s.status }

/-- The host's `wait` writes none of the host registers. -/
theorem registerMove_wait (s : State) (ts : List Turn) : RegisterMove s (waitTurn { s with turns := ts }) := by
  unfold waitTurn
  split <;> exact .keep rfl rfl rfl rfl

/-- Every step that leads on is a register move. -/
theorem step_registerMove {s t : State} (e : step s = .next t) : RegisterMove s t := by
  rcases step_moves e with ⟨ts, -, ⟨-, rfl⟩ | ⟨op, held, hc, rfl⟩ | ⟨op, o, ps, -, hmove⟩⟩ | ⟨ts, -, rfl⟩ |
    ⟨ts, hturn, rfl⟩ | ⟨ts, a, r, -, rfl⟩ | ⟨ts, w, op, hturn, hw, rfl⟩ | ⟨ts, w, er, hturn, hw, rfl⟩ |
    ⟨ts, v, hturn, rfl⟩ | ⟨ts, a, -, rfl⟩
  · exact .keep rfl rfl rfl rfl
  · exact .completion ts hc
  · exact .keep hmove.cmd hmove.status hmove.data hmove.temp
  · exact registerMove_wait s ts
  · exact .reset ts hturn
  · exact .keep rfl rfl rfl rfl
  · cases hbusy : Status.busy s.status with
    | true => rw [writeCommand_busy (s := { s with turns := ts }) hbusy]; exact .overrun hturn hbusy
    | false => rw [writeCommand_idle (s := { s with turns := ts }) hbusy]; exact .accept hturn hw hbusy
  · cases hbusy : Status.busy s.status with
    | true => rw [writeIllegal_busy (s := { s with turns := ts }) hbusy]; exact .overrun hturn hbusy
    | false => rw [writeIllegal_idle (s := { s with turns := ts }) hbusy]; exact .illegal hturn hw hbusy
  · cases hv : v.getLsbD 5 with
    | true => rw [writeStatus_clear hv]; exact .clear hturn hv
    | false => rw [writeStatus_keep hv]; exact .keep rfl rfl rfl rfl
  · exact .keep rfl rfl rfl rfl

/-- The fields of a `STATUS` of 0, as a block reset leaves it (R117). -/
theorem status_zero : Status.busy 0 = false ∧ Status.done 0 = false ∧ Status.result 0 = .ok ∧
    Status.presence 0 = false ∧ Status.overrun 0 = false := by decide

/-- A block reset is at the head of the turns when it is the next one. -/
theorem head_blockReset {s : State} {ts : List Turn} (h : s.turns = .blockReset :: ts) :
    s.turns.head? = some .blockReset := by rw [h]; rfl

/-! ## The rules about the host registers -/

/-- Settles O45: of the register moves only a completion and a block reset write `TEMP`. -/
theorem tempChangesOnlyAtSuccessfulReads : Obligations.TempChangesOnlyAtSuccessfulReads := by
  intro s t e
  cases step_registerMove e with
  | keep _ _ _ htemp => exact .inl htemp
  | @completion op held ts hc =>
    obtain ⟨r, -, hstatus, -, -, hkeep | ⟨hop, rfl, rfl, htemp⟩⟩ := closing_moves op held { s with turns := ts }
    · exact .inl hkeep
    · have hdone := completed_closing op true { s with turns := ts }
      exact .inr (.inr ⟨op, hc, hop, by rw [hdone.state], by rw [hstatus]; simp, htemp⟩)
  | reset ts hturn => exact .inr (.inl ⟨head_blockReset hturn, rfl⟩)
  | accept | illegal | overrun | clear => exact .inl rfl

/-- Settles O46: of the register moves only a completion and a block reset write `DATA`. -/
theorem dataChangesOnlyAtTransportReads : Obligations.DataChangesOnlyAtTransportReads := by
  intro s t e
  cases step_registerMove e with
  | keep _ _ hdata _ => exact .inl hdata
  | @completion op held ts hc =>
    have hidle : (closing op held { s with turns := ts }).seq = .idle := by
      rw [(completed_closing op held { s with turns := ts }).state]
    obtain ⟨r, -, -, -, hkeep | ⟨rfl, hdata⟩ | ⟨rfl, hdata⟩, -⟩ := closing_moves op held { s with turns := ts }
    · exact .inl hkeep
    · exact .inr (.inr (.inl ⟨held, hc, hidle, hdata⟩))
    · exact .inr (.inr (.inr ⟨held, hc, hidle, hdata⟩))
  | reset ts hturn => exact .inr (.inl ⟨head_blockReset hturn, rfl⟩)
  | accept | illegal | overrun | clear => exact .inl rfl

/-- Settles O47: only an acceptance, a completion and a block reset write `BUSY`; an illegal word leaves it 0. -/
theorem busyChangesOnlyByAcceptanceAndCompletion : Obligations.BusyChangesOnlyByAcceptanceAndCompletion := by
  intro s t e
  cases step_registerMove e with
  | keep _ hstatus _ _ => exact .inl (by rw [hstatus])
  | @completion op held ts hc =>
    have hdone := completed_closing op held { s with turns := ts }
    exact .inr (.inr (.inl ⟨hdone.busy, hdone.done, by rw [hdone.state], op, held, hc, by rw [hdone.state]⟩))
  | reset ts hturn => exact .inr (.inr (.inr ⟨head_blockReset hturn, rfl⟩))
  | @accept ts w op hturn hw hfree =>
    exact .inr (.inl ⟨busy_accept .., done_accept .., w, ts, op.instr w, hw, hturn, rfl, nofun⟩)
  | illegal _ _ hfree => exact .inl ((busy_complete ..).trans hfree.symm)
  | overrun | clear => exact .inl (busy_setOverrun ..)

/-- Settles O48: only a word written while `BUSY` is 0, legal or not, and a block reset write `CMD`. -/
theorem cmdChangesOnlyByAcceptedWrites : Obligations.CmdChangesOnlyByAcceptedWrites := by
  intro s t e
  cases step_registerMove e with
  | keep hcmd _ _ _ => exact .inl hcmd
  | @completion op held ts hc => exact .inl (by rw [(completed_closing op held { s with turns := ts }).state])
  | reset ts hturn => exact .inr (.inl ⟨head_blockReset hturn, rfl⟩)
  | @accept ts w op hturn hw hfree => exact .inr (.inr ⟨hfree, w, ts, hturn, rfl⟩)
  | @illegal ts w er hturn hw hfree =>
    exact .inr (.inr ⟨hfree, w, ts, hturn, rfl⟩)
  | overrun | clear => exact .inl rfl

/-- Settles O49: a step from busy to busy keeps the host registers or writes `OVERRUN` alone. -/
theorem resultsHoldWhileBusy : Obligations.ResultsHoldWhileBusy := by
  intro s t e hbusy hbusy'
  cases step_registerMove e with
  | keep hcmd hstatus hdata htemp => rw [hstatus]; exact ⟨rfl, rfl, rfl, hdata, htemp, hcmd⟩
  | @completion op held ts hc =>
    exact absurd ((completed_closing op held { s with turns := ts }).busy.symm.trans hbusy') nofun
  | reset ts hturn => exact absurd (status_zero.1.symm.trans hbusy') nofun
  | accept _ _ hfree | illegal _ _ hfree => exact absurd (hfree.symm.trans hbusy) nofun
  | overrun | clear => exact ⟨result_setOverrun .., presence_setOverrun .., done_setOverrun .., rfl, rfl, rfl⟩

/-- Settles O50: only a refused command, a write to `STATUS` and a block reset write `OVERRUN`. -/
theorem overrunChangesOnlyByTheHost : Obligations.OverrunChangesOnlyByTheHost := by
  intro s t e
  cases step_registerMove e with
  | keep _ hstatus _ _ => exact .inl (by rw [hstatus])
  | @completion op held ts hc => exact .inl (completed_closing op held { s with turns := ts }).overrun
  | reset ts hturn =>
    obtain ⟨-, -, -, -, hoverrun⟩ := status_zero
    exact .inr (.inr (.inr ⟨hoverrun, head_blockReset hturn⟩))
  | accept => exact .inl (overrun_accept ..)
  | illegal => exact .inl (overrun_complete ..)
  | @overrun ts w hturn hbusy => exact .inr (.inl ⟨overrun_setOverrun .., hbusy, w, ts, hturn⟩)
  | @clear ts v hturn hv => exact .inr (.inr (.inl ⟨overrun_setOverrun .., v, ts, hturn, hv⟩))

/-- Settles O53: an acceptance sets `BUSY`, a completion `DONE`, and every other move but a block reset keeps both. -/
theorem busyOrDoneAfterAcceptance : Obligations.BusyOrDoneAfterAcceptance := by
  intro s t e hnoReset hshown
  cases step_registerMove e with
  | keep _ hstatus _ _ => rwa [hstatus]
  | @completion op held ts hc => exact .inr (completed_closing op held { s with turns := ts }).done
  | reset ts hturn => exact absurd (head_blockReset hturn) hnoReset
  | accept => exact .inl (busy_accept ..)
  | illegal => exact .inr (done_complete ..)
  | overrun | clear => exact hshown.imp (busy_setOverrun ..).trans (done_setOverrun ..).trans

/-- The operations that run a bus reset, by name. -/
theorem mem_resetOps {op : Op} : op ∈ [Op.owReset, .dsStartConversion, .dsGetConversion, .dsRead, .dsReadBounded] ↔
    (op = .owReset ∨ Op.isSession op = true) := by
  cases op <;> decide

/-- A completion reports `PRES` for the operations that run a bus reset and keeps `PRESENCE` for the others (R28). -/
theorem presence_closing (op : Op) (held : Bool) (s : State) :
    Status.presence (closing op held s).status =
      if op ∈ [Op.owReset, .dsStartConversion, .dsGetConversion, .dsRead, .dsReadBounded] then s.pres
      else Status.presence s.status := by
  obtain ⟨-, hpresence, -, -⟩ := closing_results op held s
  rw [hpresence]
  exact if_congr mem_resetOps.symm rfl rfl

/-- Settles O60: each register move by what it does to the three fields. -/
theorem resultPresenceAndDoneChangeOnlyByTheirRules : Obligations.ResultPresenceAndDoneChangeOnlyByTheirRules := by
  intro s t e
  cases step_registerMove e with
  | keep _ hstatus _ _ => rw [hstatus]; exact ⟨.inl rfl, .inl rfl, .inl rfl⟩
  | @completion op held ts hc =>
    have hdone := completed_closing op held { s with turns := ts }
    have hidle : (closing op held { s with turns := ts }).seq = .idle := by rw [hdone.state]
    have htrace : (closing op held { s with turns := ts }).trace =
        s.trace ++ [.done (some op) (Status.result (closing op held { s with turns := ts }).status)] := by
      rw [hdone.state]
    refine ⟨.inr (.inl ⟨op, held, hc, hidle, htrace⟩), ?_,
      .inr (.inl ⟨hdone.done, hidle, op, held, _, hc, htrace⟩)⟩
    rw [presence_closing]
    split
    case isTrue hop => exact .inr (.inl ⟨op, held, hc, hop, hidle, rfl⟩)
    case isFalse => exact .inl rfl
  | reset ts hturn =>
    have hhead := head_blockReset hturn
    obtain ⟨-, hdone, hresult, hpresence, -⟩ := status_zero
    exact ⟨.inr (.inr (.inr ⟨hhead, hresult⟩)), .inr (.inr ⟨hhead, hpresence⟩),
      .inr (.inr (.inr (.inr ⟨hhead, hdone⟩)))⟩
  | @accept ts w op hturn hw hfree =>
    exact ⟨.inl (result_accept ..), .inl (presence_accept ..),
      .inr (.inr (.inr (.inl ⟨done_accept .., hfree, w, ts, _, hw, hturn⟩)))⟩
  | @illegal ts w er hturn hw hfree =>
    exact ⟨.inr (.inr (.inl ⟨result_complete .., hfree, w, ts, er, hw, hturn⟩)), .inl (presence_complete ..),
      .inr (.inr (.inl ⟨done_complete .., hfree, w, ts, er, hw, hturn⟩))⟩
  | overrun | clear => exact ⟨.inl (result_setOverrun ..), .inl (presence_setOverrun ..), .inl (done_setOverrun ..)⟩

/-! ## Acceptance and completion with any turns behind -/

/-- The command rules with a condition, by name. -/
theorem hasTest_iff {op : Op} :
    Op.hasTest op = true ↔ op ∈ [Op.owReset, .dsGetConversion, .dsRead, .dsReadBounded] := by
  cases op <;> decide

/-- What the condition of a command rule that has one tests. -/
theorem testHolds_iff {op : Op} (h : op ∈ [Op.owReset, .dsGetConversion, .dsRead, .dsReadBounded]) (s : State) :
    Op.testHolds op s = true ↔ if op = .owReset then s.pres = true else s.ret = .ok := by
  cases op <;> simp [Op.testHolds] at h ⊢

/-- What a completion reports as `RESULT`, by the operation's name (R72 to R93). -/
theorem result_closing (op : Op) (held : Bool) (s : State) :
    Status.result (closing op held s).status =
      if op = .owReset then (if held then .ok else .busAbsent)
      else if op ∈ [Op.owWriteBit, .owWriteByte, .owReadBit, .owReadByte] then .ok
      else if op ∈ [Op.dsGetConversion, .dsRead, .dsReadBounded] ∧ held then .ok else s.ret := by
  obtain ⟨hresult, -, -, -⟩ := closing_results op held s
  rw [hresult]
  cases op <;> simp [Op.isSession]

/-- Settles O59: acceptance by the written word, the command rule's two steps by its points, completion by what it
writes. -/
theorem acceptanceAndCompletionUnderAnyTurns : Obligations.AcceptanceAndCompletionUnderAnyTurns := by
  intro s ts
  refine ⟨fun w i hturn hw hfree => ?_, fun op o ps hturn => ⟨fun hs => ?_, fun hs hop => ?_⟩,
    fun op held hc hturn => ?_⟩
  · obtain ⟨op, hi, hstep⟩ := step_writeCmd_decoded hturn hw
    rw [writeCommand_idle (s := { s with turns := ts }) hfree] at hstep
    exact ⟨_, op, hstep, hi, accepted rfl rfl⟩
  · rw [step_blockTurn hturn, blockStep_point (s := { s with turns := ts }) hs]
    simp only [stepPoint, State.goto, hasTest_iff]
  · rw [step_blockTurn hturn, blockStep_point (s := { s with turns := ts }) hs]
    simp only [stepPoint, State.goto, lastPoint, testHolds_iff hop]
  · have hdone := completed_closing op held { s with turns := ts }
    obtain ⟨-, -, hdata, htemp⟩ := closing_results op held { s with turns := ts }
    exact ⟨_, step_completing hturn hc, hdone.state, hdone.busy, hdone.done, hdone.overrun, hdone.reserved,
      result_closing .., presence_closing .., hdata, htemp⟩

end Sys2Proof.Machine
end

section
/-! SUPPORT. The family 10_state, third part: undisturbed runs. Every operation but `DS_READ` ends, by a bound on the
steps left that each step lowers (R20); and two runs that agree on what can still be read stay in lockstep (R32). -/

namespace Sys2Proof.Machine

/-! ## A running operation always moves on -/

/-- Where the invariant holds a point has its step: the line is released at the points that sample (R67). -/
theorem stepPoint_progress {s : State} {op : Op} {o : Operand} {p : Point} {ps : List Point}
    (h : RunInv s op o (p :: ps)) : ∃ t, stepPoint op o p ps s = .next t := by
  cases p
  case rstSample | rbSample => exact ⟨_, sample_released _ h.line⟩
  all_goals exact ⟨_, rfl⟩

/-- A move of the sequencer only adds to the trace. -/
theorem PointMove.trace_append {s t : State} {op : Op} {o : Operand} (h : PointMove s t op o) :
    ∃ es, t.trace = s.trace ++ es := by
  rcases h.trace with ⟨hkeep, -, -, -⟩ | ⟨ev, hev⟩
  · exact ⟨[], by simp [hkeep]⟩
  · exact ⟨[ev], hev⟩

/-! ## A bound on the steps left -/

/-- A bound on the steps a point still takes in its own procedure, with the calls it makes. The last point of a procedure
counts four: a return to the command rule leaves at most three steps of that. The points of `ds_read`, which can poll
without end, have none. -/
def Point.stepsLeft (limit biti polln : Nat) : Point → Nat
  | .rstDrive => 11
  | .rstLow => 10
  | .rstRel => 9
  | .rstPds => 8
  | .rstSample => 7
  | .rstTest => 6
  | .rstHold => 5
  | .rstPresent | .rstAbsent => 4
  | .wbDrive | .rbDrive => 9
  | .wbLow | .rbLow => 8
  | .wbSet | .rbRel => 7
  | .wbHold | .rbPre => 6
  | .wbRel | .rbSample => 5
  | .wbRec | .rbPost => 4
  | .wyArg => 94
  | .wyInit => 93
  | .wyNext => 11 * (8 - biti) + 4
  | .wyInc => 11 * (8 - (biti + 1)) + 5
  | .ryClear => 102
  | .ryInit => 101
  | .ryNext => 12 * (8 - biti) + 4
  | .ryStore => 12 * (8 - (biti + 1)) + 6
  | .ryInc => 12 * (8 - (biti + 1)) + 5
  | .scTest => 189
  | .scSkip => 188
  | .scConv => 94
  | .scOk => 0
  | .gcTest => 398
  | .gcSkip => 397
  | .gcRead => 303
  | .gcLsbCall => 209
  | .gcLsb => 107
  | .gcMsb => 4
  | .rnTest => 12 * limit + 424
  | .rnZero => 12 * limit + 423
  | .rnPoll => 12 * (limit - (polln + 1)) + 413
  | .rnInc => 12 * (limit - (polln + 1)) + 412
  | .rnUntil => 12 * (limit - polln) + 411
  | .rnAfter => 410
  | .rnReturn => 0
  | .cmdTake => 3
  | .cmdTest => 2
  | .cmdOk | .cmdDone => 1
  | .rdTest | .rdPoll | .rdUntil | .rdReturn => 0

/-- The bound for a stack: its points' bounds together. -/
def stackSteps (limit biti polln : Nat) : List Point → Nat
  | [] => 0
  | p :: ps => p.stepsLeft limit biti polln + stackSteps limit biti polln ps

/-- The bound for a state. -/
def State.stepsLeft (s : State) : Nat :=
  match s.seq with
  | .idle => 0
  | .run _ o ps => stackSteps o.asLimit s.biti s.polln ps

theorem stepsLeft_run {s : State} {op : Op} {o : Operand} {ps : List Point} (hs : s.seq = .run op o ps) :
    s.stepsLeft = stackSteps o.asLimit s.biti s.polln ps := by
  unfold State.stepsLeft; rw [hs]

/-- A return leaves what is below, and at most three steps of the command rule. -/
theorem stackSteps_resume (op : Op) (limit biti polln : Nat) (ps : List Point) :
    stackSteps limit biti polln (resume op ps) ≤ stackSteps limit biti polln ps + 3 := by
  induction ps with
  | nil => cases op <;> simp [resume, Op.onReturn, stackSteps, Point.stepsLeft]
  | cons q qs ih =>
    cases q
    case scOk | rdReturn | rnReturn => simpa [resume, stackSteps, Point.stepsLeft] using ih
    case gcLsbCall => simp only [resume, stackSteps, Point.stepsLeft]; omega
    all_goals exact Nat.le_add_right _ 3

/-- Where no loop of a byte procedure waits, `BITI` does not matter. -/
theorem stackSteps_biti {ps : List Point} (h : bLive ps = false) (limit b b' polln : Nat) :
    stackSteps limit b polln ps = stackSteps limit b' polln ps := by
  induction ps with
  | nil => rfl
  | cons q qs ih =>
    obtain ⟨hq, hqs⟩ := Bool.or_eq_false_iff.1 h
    have hstep : q.stepsLeft limit b polln = q.stepsLeft limit b' polln := by
      cases q
      case wyNext | wyInc | ryNext | ryStore | ryInc => cases hq
      all_goals rfl
    simp only [stackSteps, hstep, ih hqs]

/-- Going on to a point of the same procedure with fewer steps left lowers the bound. -/
theorem stackSteps_goto {limit biti polln : Nat} {p q : Point} {ps : List Point}
    (h : q.stepsLeft limit biti polln < p.stepsLeft limit biti polln) :
    stackSteps limit biti polln (q :: ps) < stackSteps limit biti polln (p :: ps) :=
  Nat.add_lt_add_right h _

/-- A return from a point that counts four or more lowers the bound. -/
theorem stackSteps_return {op : Op} {limit biti polln : Nat} {p : Point} {ps : List Point}
    (h : 4 ≤ p.stepsLeft limit biti polln) :
    stackSteps limit biti polln (resume op ps) < stackSteps limit biti polln (p :: ps) := by
  have hresume := stackSteps_resume op limit biti polln ps
  simp only [stackSteps]
  omega

/-- A step at a point of an operation other than `DS_READ` lowers the bound. -/
theorem stepsLeft_decreases {s t : State} {op : Op} {o : Operand} {p : Point} {ps : List Point} (hop : op ≠ .dsRead)
    (hp : ∀ held, p ≠ lastPoint held) (hs : s.seq = .run op o (p :: ps)) (h : RunInv s op o (p :: ps))
    (e : stepPoint op o p ps s = .next t) : t.stepsLeft < s.stepsLeft := by
  rw [stepsLeft_run hs]
  cases p
  case rstSample | rbSample =>
    obtain ⟨-, rfl⟩ := sample_next e
    exact stackSteps_goto (by simp only [Point.stepsLeft]; omega)
  case rstPresent | rstAbsent | wbRec | rbPost | gcMsb =>
    cases e
    exact stackSteps_return (Nat.le_refl 4)
  case rstTest =>
    cases e
    cases hx : s.sbit <;> exact stackSteps_goto (by simp [Point.stepsLeft])
  case wyInit | ryInit =>
    cases e
    have hbelow := stackSteps_biti (bLive_below h.stack (by simp [Point.proc])) o.asLimit s.biti 0 s.polln
    simp only [State.stepsLeft, State.goto, stackSteps, Point.stepsLeft, hbelow]
    omega
  case wyInc | ryInc =>
    cases e
    have hbelow := stackSteps_biti (bLive_below h.stack (by simp [Point.proc])) o.asLimit s.biti (s.biti + 1) s.polln
    simp only [State.stepsLeft, State.goto, stackSteps, Point.stepsLeft, hbelow]
    omega
  case wyNext | ryNext =>
    cases e
    split
    · simp only [State.stepsLeft, State.goto, stackSteps, Point.stepsLeft]
      omega
    · exact stackSteps_return (by simp only [Point.stepsLeft]; omega)
  case scTest | gcTest =>
    cases e
    split
    · exact stackSteps_goto (by simp only [Point.stepsLeft]; omega)
    · exact stackSteps_return (by simp only [Point.stepsLeft]; omega)
  case scSkip | scConv | gcSkip | gcRead =>
    simp only [stepPoint, callWriteByte_run _ hs] at e
    cases e
    simp only [State.stepsLeft, afterWireStack, Point.afterWire, stackSteps, Point.stepsLeft]
    omega
  case gcLsb =>
    cases e
    simp only [State.stepsLeft, State.goto, stackSteps, Point.stepsLeft]
    omega
  case rnTest =>
    cases e
    split
    · exact stackSteps_return (by simp only [Point.stepsLeft]; omega)
    · exact stackSteps_goto (by simp only [Point.stepsLeft]; omega)
  case rnZero | rnInc =>
    obtain ⟨rfl, -⟩ := legal_bottom h.stack (by simp [Point.proc])
    cases e
    simp only [State.stepsLeft, State.goto, stackSteps, Point.stepsLeft]
    omega
  case rnUntil =>
    have hle : s.polln ≤ o.asLimit := by
      obtain ⟨rfl, -⟩ := legal_bottom h.stack (by simp [Point.proc])
      simpa [pollsWithin] using h.polls
    cases e
    split
    · exact stackSteps_goto (by simp only [Point.stepsLeft]; omega)
    case isFalse hpoll =>
      have hne : s.polln ≠ o.asLimit := by simp_all
      simp only [State.stepsLeft, State.goto, stackSteps, Point.stepsLeft]
      omega
  case rnAfter =>
    cases e
    split
    · simp only [State.stepsLeft, State.goto, stackSteps, Point.stepsLeft]
      omega
    · exact stackSteps_return (by simp only [Point.stepsLeft]; omega)
  case cmdTake =>
    cases e
    cases hx : Op.hasTest op <;> exact stackSteps_goto (by simp [Point.stepsLeft])
  case cmdTest =>
    cases e
    cases hx : Op.testHolds op s <;> exact stackSteps_goto (by simp [Point.stepsLeft, lastPoint])
  case cmdOk => exact absurd rfl (hp true)
  case cmdDone => exact absurd rfl (hp false)
  case rdTest | rdPoll | rdUntil =>
    have hruns := (legal_bottom h.stack (by simp [Point.proc])).2
    exact absurd hruns (by revert hop; cases op <;> decide)
  case scOk | gcLsbCall | rdReturn | rnReturn => exact absurd h.returned nofun
  all_goals
    cases e
    exact stackSteps_goto (by simp only [Point.stepsLeft]; omega)

/-- Settles O56, by induction on the bound of the steps left: the operation stands at its completion, or its step leads
to a state of the same kind with a lower bound. -/
theorem operationsExceptDsReadEnd : Obligations.OperationsExceptDsReadEnd := by
  intro s op o ps hinv hturns hs hop
  induction hn : s.stepsLeft using Nat.strong_induction_on generalizing s ps with
  | _ n ih =>
  have hrun := hinv.running _ _ _ hs
  match ps, hs, hrun with
  | [], _, hrun => exact absurd hrun.stack nofun
  | p :: ps, hs, hrun =>
    rcases lastPoint_cases p with ⟨held, rfl⟩ | hp
    · have hdone := completed_closing op held s
      exact ⟨closing op held s, [], Status.result (closing op held s).status, .one (step_closing hturns ⟨o, ps, hs⟩),
        congrArg State.seq hdone.state, hdone.busy, hdone.done, by
          rw [List.append_nil]; exact congrArg State.trace hdone.state⟩
    · obtain ⟨t, e⟩ := stepPoint_progress hrun
      have hstep : step s = .next t := (step_point hturns hs).trans e
      have hmove := stepPoint_moves hp hs e
      obtain ⟨qs, hseq⟩ := hmove.runs
      obtain ⟨es, hes⟩ := hmove.trace_append
      obtain ⟨u, fs, r, hreach, hidle, hbusy, hdone, htrace⟩ :=
        ih t.stepsLeft (hn ▸ stepsLeft_decreases hop hp hs hrun e) t qs (stepKeepsTheInvariant s t hinv hstep)
          (hmove.turns.trans hturns) hseq rfl
      exact ⟨u, es ++ fs, r, .head hstep hreach, hidle, hbusy, hdone, by rw [htrace, hes, List.append_assoc s.trace]⟩

/-! ## Two runs of one command -/

/-- A well-formed command's word decodes to it (R53 to R58). -/
theorem decodeCommand_encode {i : Instr} {w : Word} (hwf : i.wellFormed = true) (hw : encode i = .command w) :
    decodeCommand w = .ok i := by
  cases i
  case owwbit b => cases hw; cases b <;> rfl
  case owwbyte v =>
    cases hw
    rw [wordOwwbyte, layoutCommand_eq, decodeCommand_wordOf]
    simp
  case dsreadb limit =>
    cases hw
    have hlimit : limit ≠ 0#16 := by simpa [Instr.wellFormed, limitOk] using hwf
    rw [wordDsreadb, layoutCommand_eq, decodeCommand_wordOf]
    simp [hlimit]
  case skipRom | startConv | readScratchpad => cases hw
  all_goals
    cases hw
    rfl

/-- A word accepted while the line is released starts an operation that the invariant holds of, whatever the sequencer's
registers hold. -/
theorem runInv_accept {s : State} {op : Op} {w : Word} (hw : decodeCommand w = .ok (op.instr w))
    (hline : s.lineOut = .rel) : RunInv (s.accept op w) op (operandOf op w) (Op.start op) where
  latched := ⟨hw, rfl⟩
  stack := by cases op <;> rfl
  line := hline.trans (by cases op <;> rfl)
  polls := by cases op <;> rfl
  bits := by cases op <;> nofun
  presence := by cases op <;> nofun
  returned := by cases op <;> rfl

/-- At the start of an operation nothing of the sequencer's registers is read before it is written. -/
theorem sameLive_start (a b : State) (op : Op) : SameLive a b op (Op.start op) := by
  cases op <;> exact ⟨nofun, nofun, nofun, nofun, nofun, nofun, nofun⟩

/-- Two undisturbed states in lockstep: both idle, or at the same points with the same of what can still be read, and the
same line, parameters and levels to come. -/
structure Lockstep (a b : State) : Prop where
  turnsLeft : a.turns = []
  turnsRight : b.turns = []
  core : SameCore a b
  seq : (a.seq = .idle ∧ b.seq = .idle) ∨ ∃ op o ps, a.seq = .run op o ps ∧ b.seq = .run op o ps ∧
    RunInv a op o ps ∧ SameLive a b op ps

/-- At the completion two states in lockstep report the same result. -/
theorem result_closing_congr {a b : State} {op : Op} {held : Bool} {ps : List Point}
    (h : SameLive a b op (lastPoint held :: ps)) :
    Status.result (closing op held b).status = Status.result (closing op held a).status := by
  rw [(closing_results op held b).1, (closing_results op held a).1]
  by_cases hsession : Op.isSession op = true
  · have hret : b.ret = a.ret := h.ret (by cases held <;> exact hsession)
    rw [hret]
  · simp [hsession]

/-- Two states in lockstep complete in lockstep. -/
theorem lockstep_closing {a b : State} {op : Op} {held : Bool} {ps : List Point} (h : Lockstep a b)
    (hlive : SameLive a b op (lastPoint held :: ps)) :
    Lockstep (closing op held a) (closing op held b) ∧
      ∃ es, (closing op held a).trace = a.trace ++ es ∧ (closing op held b).trace = b.trace ++ es := by
  have ha := (completed_closing op held a).state
  have hb := (completed_closing op held b).state
  rw [result_closing_congr hlive] at hb
  refine ⟨?_, _, congrArg State.trace ha, congrArg State.trace hb⟩
  rw [ha, hb]
  exact ⟨h.turnsLeft, h.turnsRight, ⟨h.core.line, h.core.timer, h.core.params, h.core.levels⟩, .inl ⟨rfl, rfl⟩⟩

/-- Two states in lockstep step in lockstep, with the same events. -/
theorem Lockstep.step {a b : State} (h : Lockstep a b) :
    ∃ a' b' es, step a = .next a' ∧ step b = .next b' ∧ Lockstep a' b' ∧ a'.trace = a.trace ++ es ∧
      b'.trace = b.trace ++ es := by
  rcases h.seq with ⟨ha, hb⟩ | ⟨op, o, ps, ha, hb, hrun, hlive⟩
  · exact ⟨a, b, [], (step_noTurns h.turnsLeft).trans (blockStep_idle ha),
      (step_noTurns h.turnsRight).trans (blockStep_idle hb), h, (List.append_nil _).symm, (List.append_nil _).symm⟩
  match ps, ha, hb, hrun, hlive with
  | [], _, _, hrun, _ => exact absurd hrun.stack nofun
  | p :: ps, ha, hb, hrun, hlive =>
    rcases lastPoint_cases p with ⟨held, rfl⟩ | hp
    · obtain ⟨hnext, es, hes, hes'⟩ := lockstep_closing h hlive
      exact ⟨_, _, es, step_closing h.turnsLeft ⟨o, ps, ha⟩, step_closing h.turnsRight ⟨o, ps, hb⟩, hnext, hes, hes'⟩
    · obtain ⟨a', ea⟩ := stepPoint_progress hrun
      obtain ⟨b', eb, hsame⟩ := stepPoint_lockstep hp hrun.stack hrun.returned h.core ha hb hlive ea
      obtain ⟨es, hes, hes'⟩ := hsame.trace
      obtain ⟨qs, ha', hb', hlive'⟩ := hsame.live
      obtain ⟨qs', ha'', hrun'⟩ := (point_next hp ha hrun ea).runs
      cases ha'.symm.trans ha''
      exact ⟨a', b', es, (step_point h.turnsLeft ha).trans ea, (step_point h.turnsRight hb).trans eb,
        ⟨(stepPoint_moves hp ha ea).turns.trans h.turnsLeft, (stepPoint_moves hp hb eb).turns.trans h.turnsRight,
          hsame.core, .inr ⟨op, o, _, ha', hb', hrun', hlive'⟩⟩, hes, hes'⟩

/-- Two states in lockstep run in lockstep. -/
theorem Lockstep.run (n : Nat) : ∀ {a b : State}, Lockstep a b →
    ∃ u v es, Host.Core.run Sys2Proof.core n a = .next u ∧ Host.Core.run Sys2Proof.core n b = .next v ∧ Lockstep u v ∧
      u.trace = a.trace ++ es ∧ v.trace = b.trace ++ es := by
  induction n with
  | zero => exact fun {a b} h => ⟨a, b, [], rfl, rfl, h, (List.append_nil _).symm, (List.append_nil _).symm⟩
  | succ n ih =>
    intro a b h
    obtain ⟨a', b', es, ha, hb, h', hes, hes'⟩ := h.step
    obtain ⟨u, v, fs, hu, hv, hlock, hfs, hfs'⟩ := ih h'
    exact ⟨u, v, es ++ fs, (run_next ha n).trans hu, (run_next hb n).trans hv, hlock,
      by rw [hfs, hes, List.append_assoc], by rw [hfs', hes', List.append_assoc]⟩

/-- Two states in lockstep stand at the same points. -/
theorem Lockstep.seq_eq {a b : State} (h : Lockstep a b) : a.seq = b.seq := by
  rcases h.seq with ⟨ha, hb⟩ | ⟨op, o, ps, ha, hb, -, -⟩ <;> rw [ha, hb]

/-- Instructions of one word name their operation. -/
theorem op_eq_of_instr {op op' : Op} {w : Word} (h : op.instr w = op'.instr w) : op = op' := by
  cases op <;> cases op' <;> cases h <;> rfl

/-- A quiet block accepts a well-formed command. -/
theorem exec_quiet {s t : State} {op : Op} {w : Word} (h : Quiet s) (hw : decodeCommand w = .ok (op.instr w))
    (e : exec (op.instr w) s = .next t) : t = s.accept op w := by
  obtain ⟨op', hop', hexec⟩ := exec_decoded hw s
  obtain rfl := op_eq_of_instr (Except.ok.inj (hw.symm.trans hop'))
  rw [hexec, writeCommand_idle h.notBusy] at e
  cases e
  rfl

/-- Two quiet states that agree on the line, the parameters and the levels to come accept a command in lockstep. -/
theorem lockstep_accept {a b : State} {op : Op} {w : Word} (ha : Quiet a) (hb : Quiet b) (hline : a.lineOut = .rel)
    (hcore : SameCore a b) (hw : decodeCommand w = .ok (op.instr w)) : Lockstep (a.accept op w) (b.accept op w) where
  turnsLeft := ha.noTurns
  turnsRight := hb.noTurns
  core := ⟨hcore.line, hcore.timer, hcore.params, hcore.levels⟩
  seq := .inr ⟨op, _, _, rfl, rfl, runInv_accept hw hline, sameLive_start _ _ op⟩

/-- Settles O55: two quiet states accept the command in lockstep, and stay in lockstep. -/
theorem leftoverRegistersDoNotMatter : Obligations.LeftoverRegistersDoNotMatter := by
  intro s₁ s₂ t₁ t₂ i w hquiet₁ hquiet₂ hline₁ hline₂ hparams hlevels hw hwf e₁ e₂ n
  have hdecodes := decodeCommand_encode hwf hw
  obtain ⟨row, -, -, rfl⟩ := decodeCommand_ok hdecodes
  obtain rfl := exec_quiet hquiet₁ hdecodes e₁
  obtain rfl := exec_quiet hquiet₂ hdecodes e₂
  have hcore : SameCore s₁ s₂ := ⟨hline₂.trans hline₁.symm, hquiet₂.noDelay.trans hquiet₁.noDelay.symm, hparams.symm,
    fun k => (hlevels k).symm⟩
  obtain ⟨u₁, u₂, es, hrun₁, hrun₂, hlock, htrace₁, htrace₂⟩ :=
    (lockstep_accept hquiet₁ hquiet₂ hline₁ hcore hdecodes).run n
  exact ⟨u₁, u₂, es, hrun₁, hrun₂, htrace₁, htrace₂, hlock.seq_eq, hlock.core.line.symm, hlock.core.timer.symm⟩

end Sys2Proof.Machine
end

section
/-! SUPPORT. The family 20_memory: the host window (R36 to R40), a host access beside a running operation (R46 to R49),
the stops of the machine, and a byte written and read back (R42). -/

namespace Sys2Proof.Machine

/-! ## What one host access does, by the register it reaches (R36 to R39) -/

/-- The register a host access reaches in the window at `base`, if it reaches one. -/
def HostAccess.reg (base : Nat) : HostAccess → Option HostReg
  | .read addr width => hostReg base addr width
  | .write addr width _ => hostReg base addr width

/-- Each register is reached by a 32-bit access at its offset. -/
theorem hostReg_offset (base : Nat) (r : HostReg) : hostReg base (base + r.offset) 4 = some r := by
  cases r <;> simp [hostReg, HostReg.offset]

/-- An access that reaches no register is refused (R37). -/
theorem hostStep_refused {s : State} {a : HostAccess} (h : a.reg s.params.base = none) :
    hostStep a s = .refused .notAnAccess := by
  cases a with
  | read addr width => simp [hostStep, hostTurn, show hostReg s.params.base addr width = none from h]
  | write addr width v => simp [hostStep, hostTurn, show hostReg s.params.base addr width = none from h]

theorem hostStep_read {s : State} {addr width : Nat} {r : HostReg} (h : hostReg s.params.base addr width = some r) :
    hostStep (.read addr width) s = .next (s.hostRead r) := by
  simp [hostStep, hostTurn, h]

/-- A word written to `CMD` is a command, or an illegal word. -/
theorem hostStep_writeCmd {s : State} {addr width : Nat} (v : Word)
    (h : hostReg s.params.base addr width = some .cmd) :
    (∃ op, hostStep (.write addr width v) s = .next (s.writeCommand op v)) ∨
      hostStep (.write addr width v) s = .next (s.writeIllegal v) := by
  cases hdecode : decodeCommand v with
  | ok i =>
    obtain ⟨op, -, hexec⟩ := exec_decoded hdecode s
    exact .inl ⟨op, by simp [hostStep, hostTurn, h, hdecode, hexec]⟩
  | error er => exact .inr (by simp [hostStep, hostTurn, h, hdecode])

theorem hostStep_writeStatus {s : State} {addr width : Nat} (v : Word)
    (h : hostReg s.params.base addr width = some .status) :
    hostStep (.write addr width v) s = .next (s.writeStatus v) := by
  simp [hostStep, hostTurn, h]

/-- A write to `DATA` or `TEMP` has no effect (R39). -/
theorem hostStep_writeResult {s : State} {addr width : Nat} {r : HostReg} (v : Word)
    (hr : r = .data ∨ r = .temp) (h : hostReg s.params.base addr width = some r) :
    hostStep (.write addr width v) s = .next s := by
  rcases hr with rfl | rfl <;> simp [hostStep, hostTurn, h]

/-- An access that reaches a register is answered. -/
theorem hostStep_progress {s : State} {a : HostAccess} {r : HostReg} (h : a.reg s.params.base = some r) :
    ∃ t, hostStep a s = .next t := by
  cases a with
  | read addr width => exact ⟨_, hostStep_read h⟩
  | write addr width v =>
    cases r with
    | cmd =>
      rcases hostStep_writeCmd v h with ⟨op, hstep⟩ | hstep
      · exact ⟨_, hstep⟩
      · exact ⟨_, hstep⟩
    | status => exact ⟨_, hostStep_writeStatus v h⟩
    | data | temp => exact ⟨_, hostStep_writeResult v (by simp) h⟩

/-! ## Reads, refusals and the host's wait -/

/-- A 32-bit read at a register's offset returns the register. -/
theorem step_read {s : State} {ts : List Turn} (r : HostReg)
    (hturn : s.turns = .host (.read (s.params.base + r.offset) 4) :: ts) :
    step s = .next ({ s with turns := ts }.hostRead r) :=
  (step_host hturn).trans (hostStep_read (hostReg_offset _ r))

/-- Settles O30, by the register at the offset. -/
theorem hostReadReturnsTheRegister : Obligations.HostReadReturnsTheRegister := by
  intro s ts off v hturn hv
  simp only [List.mem_cons, Prod.mk.injEq, List.not_mem_nil, or_false] at hv
  rcases hv with ⟨rfl, rfl⟩ | ⟨rfl, rfl⟩ | ⟨rfl, rfl⟩ | ⟨rfl, rfl⟩
  · exact step_read .cmd hturn
  · exact step_read .status hturn
  · exact step_read .data hturn
  · exact step_read .temp hturn

/-- Settles O32: such an access reaches no register. -/
theorem otherAccessesAreRefused : Obligations.OtherAccessesAreRefused := by
  intro s ts addr width v hturn hforeign
  have hnone : hostReg s.params.base addr width = none := by
    rw [hostReg_none]
    rintro ⟨hwidth, haddr⟩
    simp only [List.mem_cons, List.not_mem_nil, or_false] at haddr
    omega
  rcases hturn with hturn | hturn
  · exact (step_host hturn).trans (hostStep_refused hnone)
  · exact (step_host hturn).trans (hostStep_refused hnone)

/-- Settles O33: the two branches of the host's `wait`. -/
theorem waitEndsOnlyWhenNotBusy : Obligations.WaitEndsOnlyWhenNotBusy := by
  intro s ts hturn
  rw [step_wait hturn, waitTurn]
  cases Status.busy s.status with
  | true => rfl
  | false => rfl

/-! ## Where the machine stops, and where the block rests -/

/-- Where the invariant holds the block has its step, whatever it stands at. -/
theorem Inv.blockStep_progress {s : State} (h : Inv s) : ∃ t, Machine.blockStep s = .next t := by
  match hs : s.seq with
  | .idle => exact ⟨s, blockStep_idle hs⟩
  | .run op o [] => exact ⟨_, blockStep_empty hs⟩
  | .run op o (p :: ps) =>
    rw [blockStep_point hs]
    exact stepPoint_progress (h.running _ _ _ hs)

/-- A 32-bit access at one of the four offsets has a next state. -/
theorem step_access_progress {s : State} {a : HostAccess} {ts : List Turn} (hturn : s.turns = .host a :: ts)
    (hreg : a.reg s.params.base ≠ none) : ∃ t, step s = .next t := by
  obtain ⟨r, hr⟩ := Option.ne_none_iff_exists'.1 hreg
  rw [step_host hturn]
  exact hostStep_progress hr

/-- Settles O41, by whose turn it is. -/
theorem stepStopsOnlyForForeignAccesses : Obligations.StepStopsOnlyForForeignAccesses := by
  intro s hinv hread hwrite
  match hturn : s.turns with
  | [] => rw [step_noTurns hturn]; exact hinv.blockStep_progress
  | .block :: ts => rw [step_block hturn]; exact (hinv.withTurns ts).blockStep_progress
  | .wait :: ts => exact ⟨_, step_wait hturn⟩
  | .blockReset :: ts => exact ⟨_, step_blockReset hturn⟩
  | .host (.read addr width) :: ts =>
    exact step_access_progress hturn fun hnone => hostReg_none.1 hnone (hread _ _ _ hturn)
  | .host (.write addr width v) :: ts =>
    exact step_access_progress hturn fun hnone => hostReg_none.1 hnone (hwrite _ _ _ _ hturn)

/-- Settles O43: the next state satisfies the invariant, which says so of an idle block. -/
theorem lineIsReleasedWheneverIdle : Obligations.LineIsReleasedWheneverIdle := by
  intro s t hinv e hidle
  have hnext := stepKeepsTheInvariant s t hinv e
  exact ⟨hnext.idleReleased hidle, hnext.noDelay⟩

/-! ## A host access beside a running operation (R46, R49) -/

/-- The part of a state that a host access can read while the block is busy. -/
structure SameHostSide (s t : State) : Prop where
  params : t.params = s.params
  cmd : t.cmd = s.cmd
  status : t.status = s.status
  data : t.data = s.data
  temp : t.temp = s.temp
  reads : t.reads = s.reads

theorem PointMove.sameHostSide {s t : State} {op : Op} {o : Operand} (h : PointMove s t op o) : SameHostSide s t :=
  ⟨h.params, h.cmd, h.status, h.data, h.temp, h.reads⟩

theorem SameHostSide.readReg {s t : State} (h : SameHostSide s t) (r : HostReg) : t.readReg r = s.readReg r := by
  cases r with
  | cmd => exact h.cmd
  | status => exact congrArg Status.read h.status
  | data => exact congrArg (· &&& 0x000000FF#32) h.data
  | temp => exact congrArg (fun w : Word => sext32Half (w.extractLsb' 0 16)) h.temp

/-- While the block is busy an access of the window changes at most `STATUS` and the values read, and the change depends
only on the host's side of the state (R40, R103). -/
theorem hostStep_busy {s : State} {a : HostAccess} {r : HostReg} (hreg : a.reg s.params.base = some r)
    (hbusy : Status.busy s.status = true) :
    ∃ st rd, ∀ t, SameHostSide s t → hostStep a t = .next (t.withHost st rd t.turns) := by
  cases a with
  | read addr width =>
    refine ⟨s.status, s.reads ++ [s.readReg r], fun t h => ?_⟩
    rw [hostStep_read (by rw [h.params]; exact hreg), State.hostRead, h.readReg r, h.reads, ← h.status]
    rfl
  | write addr width v =>
    have hreg' {t : State} (h : SameHostSide s t) : hostReg t.params.base addr width = some r := by
      rw [h.params]; exact hreg
    cases r with
    | cmd =>
      refine ⟨Status.setOverrun true s.status, s.reads, fun t h => ?_⟩
      have hbusy' : Status.busy t.status = true := by rw [h.status]; exact hbusy
      have hrefuse : hostStep (.write addr width v) t = .next t.refuseCommand := by
        rcases hostStep_writeCmd v (hreg' h) with ⟨op, hstep⟩ | hstep
        · rw [hstep, writeCommand_busy hbusy']
        · rw [hstep, writeIllegal_busy hbusy']
      rw [hrefuse, ← h.status, ← h.reads]
      rfl
    | status =>
      refine ⟨(s.writeStatus v).status, s.reads, fun t h => ?_⟩
      rw [hostStep_writeStatus v (hreg' h), ← h.reads]
      cases hv : v.getLsbD 5 with
      | true => rw [writeStatus_clear hv, writeStatus_clear hv, ← h.status]; rfl
      | false => rw [writeStatus_keep hv, writeStatus_keep hv, ← h.status]; rfl
    | data | temp =>
      refine ⟨s.status, s.reads, fun t h => ?_⟩
      rw [hostStep_writeResult v (by simp) (hreg' h), ← h.status, ← h.reads]
      rfl

/-- A block step after which the block is still busy leaves the host's side, and neither reads nor writes `STATUS`, the
values read and the turns: it commutes with any change of them (R47, R49). -/
theorem blockStep_running {s t : State} (e : blockStep s = .next t) (hbusy : Status.busy t.status = true) :
    SameHostSide s t ∧ ∀ st rd ts, blockStep (s.withHost st rd ts) = .next (t.withHost st rd ts) := by
  match hs : s.seq with
  | .idle =>
    rw [blockStep_idle hs] at e
    cases e
    exact ⟨⟨rfl, rfl, rfl, rfl, rfl, rfl⟩, fun st rd ts => blockStep_idle (s := s.withHost st rd ts) hs⟩
  | .run op o [] =>
    rw [blockStep_empty hs] at e
    cases e
    exact ⟨⟨rfl, rfl, rfl, rfl, rfl, rfl⟩, fun st rd ts => blockStep_empty (s := s.withHost st rd ts) hs⟩
  | .run op o (p :: ps) =>
    rcases lastPoint_cases p with ⟨held, rfl⟩ | hp
    · rw [blockStep_closing ⟨o, ps, hs⟩] at e
      cases e
      exact absurd ((completed_closing op held s).busy.symm.trans hbusy) nofun
    · rw [blockStep_point hs] at e
      refine ⟨(stepPoint_moves hp hs e).sameHostSide, fun st rd ts => ?_⟩
      rw [blockStep_point (s := s.withHost st rd ts) hs, stepPoint_withHost st rd ts hp hs, e]
      rfl

/-- Settles O54: the access changes only what the block step neither reads nor writes, and the block step leaves what the
access reads. -/
theorem hostAccessesCommuteWithARunningOperation : Obligations.HostAccessesCommuteWithARunningOperation := by
  intro s t a ts hbusy hread hwrite e hbusy'
  have hwindow : a.reg s.params.base ≠ none := by
    cases a with
    | read addr width => exact hread addr width rfl
    | write addr width v => exact hwrite addr width v rfl
  obtain ⟨r, hreg⟩ := Option.ne_none_iff_exists'.1 hwindow
  obtain ⟨st, rd, haccess⟩ := hostStep_busy hreg hbusy
  rw [step_block (s := { s with turns := [.block] }) rfl] at e
  obtain ⟨hsame, hblock⟩ := blockStep_running e hbusy'
  refine ⟨t.withHost st rd ts, ?_, ?_⟩
  · have hfirst : step { s with turns := .host a :: .block :: ts } = .next (s.withHost st rd (.block :: ts)) :=
      (step_host rfl).trans (haccess { s with turns := .block :: ts } ⟨rfl, rfl, rfl, rfl, rfl, rfl⟩)
    have hsecond : step (s.withHost st rd (.block :: ts)) = .next (t.withHost st rd ts) :=
      (step_block rfl).trans (hblock st rd ts)
    exact (run_next hfirst 1).trans (run_next hsecond 0)
  · have hfirst : step { s with turns := .block :: .host a :: ts } =
        .next (t.withHost s.status s.reads (.host a :: ts)) :=
      (step_block rfl).trans (hblock s.status s.reads (.host a :: ts))
    have hsecond : step (t.withHost s.status s.reads (.host a :: ts)) = .next (t.withHost st rd ts) :=
      (step_host rfl).trans (haccess (t.withHost s.status s.reads ts)
        ⟨hsame.params, hsame.cmd, rfl, hsame.data, hsame.temp, rfl⟩)
    exact (run_next hfirst 1).trans (run_next hsecond 0)

/-! ## A byte written and read back (R42, R75, R79) -/

/-- A finished operation leaves a quiet block quiet: the next command can run. -/
theorem Finished.quiet {s u : State} {op : Op} {w : Word} {r : ResultCode} {evs : List TraceEvent} {m n d : Nat}
    (h : Finished s u op w r evs m n d) (hq : Quiet s) : Quiet u :=
  ⟨h.notBusy, h.seqIdle, h.noDelay, h.turns.trans hq.noTurns⟩

/-- The operand latched from the word of `OW_WRITE_BYTE v` is `v` (R55). -/
theorem operandOf_wordOwwbyte (v : Byte) : operandOf .owWriteByte (wordOwwbyte v) = .byte v := by
  rw [wordOwwbyte, layoutCommand_eq, operandOf, fieldV_wordOf]

/-- `OW_WRITE_BYTE v` from a quiet state: accepted, and run to its end with the write slots of `v` (R75, R76). -/
theorem owWriteByte_finishes {s : State} (v : Byte) (hq : Quiet s) :
    exec (.owwbyte v) s = .next (s.accept .owWriteByte (wordOwwbyte v)) ∧
    ∃ u, Reaches (s.accept .owWriteByte (wordOwwbyte v)) u ∧
      Finished s u .owWriteByte (wordOwwbyte v) .ok (traceWriteByte s.params v) 0 24 (8 * nominalWriteBit s.params) := by
  refine ⟨congrArg _ (writeCommand_idle hq.notBusy ..), ?_⟩
  have hready := hq.ready_accept .owWriteByte (wordOwwbyte v)
  generalize ha : s.accept .owWriteByte (wordOwwbyte v) = a at hready ⊢
  have hseq : a.seq = .run .owWriteByte (.byte v) [.wyArg] := by
    rw [← ha, ← operandOf_wordOwwbyte v]; rfl
  have hparams : a.params = s.params := by rw [← ha]; rfl
  obtain ⟨b, rb, mb, hshift, qb⟩ : ∃ b, Reaches a b ∧ Moved a b [] 0 0 0 ∧ b.shift = v ∧
      b.seq = .run .owWriteByte (.byte v) [.wyInit] :=
    ⟨_, .one ((step_point hready.turns hseq).trans rfl), moved_assign .., rfl, rfl⟩
  obtain ⟨c, rc, mc, -, hline, -, -, -, qc⟩ := run_writeByte (hready.moved mb) qb
  rw [hshift, mb.params, hparams] at mc
  have mc := mb.trans mc
  simp only [List.nil_append, Nat.zero_add] at mc
  obtain ⟨u, ru, hfinished, -⟩ := run_finish hq (ha ▸ mc) hline qc
  exact ⟨u, rb.trans (rc.trans ru), hfinished⟩

/-- `OW_READ_BYTE` from a quiet state: accepted, and run to its end with the read slots of the byte sampled, which is
then in `DATA` (R79, R80). -/
theorem owReadByte_finishes {s : State} (hq : Quiet s) :
    exec .owrbyte s = .next (s.accept .owReadByte (layoutCommand 0 0 0x5#4)) ∧
    ∃ u, Reaches (s.accept .owReadByte (layoutCommand 0 0 0x5#4)) u ∧
      Finished s u .owReadByte (layoutCommand 0 0 0x5#4) .ok (traceReadByte s.params (s.byteAt 0)) 8 24
        (8 * nominalReadBit s.params) ∧
      u.data = zext32Byte (s.byteAt 0) := by
  refine ⟨congrArg _ (writeCommand_idle hq.notBusy ..), ?_⟩
  obtain ⟨b, rb, mb, -, hline, hshift, -, -, qb⟩ :=
    run_readByte (hq.ready_accept .owReadByte (layoutCommand 0 0 0x5#4)) rfl fun _ => rfl
  obtain ⟨u, ru, hfinished, -, -, -, hdata, -⟩ := run_finish hq mb hline qb
  exact ⟨u, rb.trans ru, hfinished, by simpa [hshift] using hdata⟩

/-- Eight levels that are the bits of `v`, bit 0 first, make `v` (R42, R79). -/
theorem byteAt_of_levels {s : State} {v : Byte} (h : ∀ i < 8, s.levelAt i = v.getLsbD i) : s.byteAt 0 = v := by
  apply BitVec.eq_of_getLsbD_eq
  intro i hi
  rw [State.byteAt, sampledByte_getLsbD, Nat.zero_add, h i hi]
  simp [hi]

/-- Settles O57: the write draws no level, so the read samples the bits of `v`. -/
theorem echoedByteIsReadBack : Obligations.EchoedByteIsReadBack := by
  intro s v hquiet hlevels
  obtain ⟨hwrite, u, hreach, hwritten⟩ := owWriteByte_finishes v hquiet
  obtain ⟨hread, u', hreach', hdone, hdata⟩ := owReadByte_finishes (hwritten.quiet hquiet)
  have hbyte : u.byteAt 0 = v := byteAt_of_levels fun i hi => by
    rw [hwritten.drew, Nat.zero_add, hlevels i hi]
  have htrace := hdone.trace
  rw [hbyte, hwritten.params] at htrace
  rw [hbyte] at hdata
  exact ⟨_, u, _, u', hwrite, hreach, hwritten.trace, hread, hreach', hdata, htrace⟩

end Sys2Proof.Machine
end

section
/-! SUPPORT. The family 30_encoding: which words are legal, by their fields (R54 to R58); decoder and encoder as
inverses; the assembler's words (R61, R62); the wire command bytes as calls of `ow_write_byte` (R59). -/

namespace Sys2Proof

/-! ## Legal words, by their fields (R54 to R58) -/

/-- The opcode of an operation: the low four bits of its match (R56). -/
def Op.opcode : Op → BitVec 4
  | .owReset => 0x1#4
  | .owWriteBit => 0x2#4
  | .owWriteByte => 0x3#4
  | .owReadBit => 0x4#4
  | .owReadByte => 0x5#4
  | .dsStartConversion => 0x6#4
  | .dsGetConversion => 0x7#4
  | .dsRead => 0x8#4
  | .dsReadBounded => 0x9#4

/-- The numbers `LIMIT` and `V` may hold in a legal word of an operation: its operand, and 0 where no operand stands
(R55, R58). -/
def Op.OperandFits : Op → Half → Byte → Prop
  | .owWriteBit, limit, v => limit.toNat = 0 ∧ v.toNat < 2
  | .owWriteByte, limit, _ => limit.toNat = 0
  | .dsReadBounded, limit, v => limit.toNat ≠ 0 ∧ v.toNat = 0
  | .owReset, limit, v | .owReadBit, limit, v | .owReadByte, limit, v | .dsStartConversion, limit, v
  | .dsGetConversion, limit, v | .dsRead, limit, v => limit.toNat = 0 ∧ v.toNat = 0

/-- The word is legal for an operation, said in the fields of R54. -/
structure Op.Fits (op : Op) (w : Word) : Prop where
  reserved : w.extractLsb' 4 4 = 0
  opcode : fieldOp w = op.opcode
  operand : op.OperandFits (fieldLimit w) (fieldV w)

/-- The match of a row is its opcode alone (R56). -/
theorem pattern_eq : ∀ row ∈ commandRows, row.pattern = wordOf 0 0 0 row.op.opcode := by decide

/-- Of a `V` only bit 0 may be 1 exactly if it is 0 or 1. -/
theorem and_eq_zero_iff_lt_two : ∀ v : Byte, v &&& 0xFE#8 = 0 ↔ v.toNat < 2 := by decide

/-- A row accepts only words that are legal for its operation. -/
theorem fits_of_accepts {row : CommandRow} {w : Word} (hrow : row ∈ commandRows) (h : row.accepts w = true) :
    row.op.Fits w := by
  obtain ⟨hmatch, hextra⟩ : w &&& row.mask = row.pattern ∧ rowExtra row.op w = true := by
    simpa only [CommandRow.accepts, Bool.and_eq_true, beq_iff_eq] using h
  rw [← wordOf_fields w] at hmatch
  obtain ⟨op, pattern, mask⟩ := row
  cases op
  all_goals obtain ⟨rfl, rfl⟩ : pattern = _ ∧ mask = _ := by simpa [commandRows] using hrow
  case owWriteBit =>
    obtain ⟨hlimit, hv, hrsv, hop⟩ := (and_writeBit _ _ _ _).1 hmatch
    exact ⟨hrsv, hop, congrArg BitVec.toNat hlimit, (and_eq_zero_iff_lt_two _).1 hv⟩
  case owWriteByte =>
    obtain ⟨hlimit, hrsv, hop⟩ := (and_writeByte _ _ _ _).1 hmatch
    exact ⟨hrsv, hop, congrArg BitVec.toNat hlimit⟩
  case dsReadBounded =>
    obtain ⟨hv, hrsv, hop⟩ := (and_readBounded _ _ _ _).1 hmatch
    exact ⟨hrsv, hop, fun h => bne_iff_ne.1 hextra (BitVec.eq_of_toNat_eq h), congrArg BitVec.toNat hv⟩
  all_goals
    rw [pattern_eq _ hrow] at hmatch
    obtain ⟨hlimit, hv, hrsv, hop⟩ := (and_full _ _ _ _ _).1 hmatch
    exact ⟨hrsv, hop, congrArg BitVec.toNat hlimit, congrArg BitVec.toNat hv⟩

/-- A word legal for an operation is its layout from those fields (R54). -/
theorem Op.Fits.layout {op : Op} {w : Word} (h : op.Fits w) :
    layoutCommand (fieldLimit w) (fieldV w) op.opcode = w := by
  rw [layoutCommand_eq, ← h.opcode, ← h.reserved, wordOf_fields]

/-- A `V` that is 0 or 1 is its bit 0 (R55). -/
theorem ite_getLsbD_zero : ∀ v : Byte, v.toNat < 2 → (if v.getLsbD 0 then 1#8 else 0#8) = v := by decide

theorem fieldB_eq (w : Word) : fieldB w = (fieldV w).getLsbD 0 := by simp [fieldB, fieldV]

/-- A word legal for an operation is the encoding of the operation with the word's operand, which is well-formed. -/
theorem Op.Fits.encode_instr {op : Op} {w : Word} (h : op.Fits w) :
    (op.instr w).wellFormed = true ∧ encode (op.instr w) = .command w := by
  have hword := h.layout
  have hoperand := h.operand
  have zero {n : Nat} {x : BitVec n} (hx : x.toNat = 0) : x = 0 := BitVec.eq_of_toNat_eq hx
  cases op
  case owWriteBit =>
    obtain ⟨hlimit, hv⟩ := hoperand
    refine ⟨rfl, congrArg Code.command ?_⟩
    rw [wordOwwbit, fieldB_eq, ite_getLsbD_zero _ hv]
    rwa [zero hlimit] at hword
  case owWriteByte =>
    rw [zero hoperand] at hword
    exact ⟨rfl, congrArg Code.command hword⟩
  case dsReadBounded =>
    obtain ⟨hlimit, hv⟩ := hoperand
    rw [zero hv] at hword
    exact ⟨bne_iff_ne.2 fun h => hlimit (congrArg BitVec.toNat h), congrArg Code.command hword⟩
  all_goals
    obtain ⟨hlimit, hv⟩ := hoperand
    rw [zero hlimit, zero hv] at hword
    exact ⟨rfl, congrArg Code.command hword⟩

/-- A word legal for an operation decodes to it (R57). -/
theorem Op.Fits.decodes {op : Op} {w : Word} (h : op.Fits w) : decodeCommand w = .ok (op.instr w) :=
  Machine.decodeCommand_encode h.encode_instr.1 h.encode_instr.2

/-! ## The decoder and the encoder are inverses -/

/-- A wire command's byte decodes to it (R59). -/
theorem decodeWire_encode {i : Instr} {b : Byte} (h : encode i = .wire b) : decodeWire b = .ok i := by
  cases i
  case skipRom | startConv | readScratchpad => cases h; rfl
  all_goals cases h

/-- A byte that decodes is one of the three wire command bytes (R59). -/
theorem encode_decodeWire {i : Instr} {b : Byte} (h : decodeWire b = .ok i) :
    i.wellFormed = true ∧ encode i = .wire b := by
  unfold decodeWire at h
  split_ifs at h with hb hb hb
  all_goals
    cases h
    exact ⟨rfl, congrArg Code.wire hb.symm⟩

/-- Settles O4, by which of the two encodings the instruction has. -/
theorem decodeOfEncodeIsTheInstruction : Obligations.DecodeOfEncodeIsTheInstruction := by
  intro i hwf
  cases hcode : encode i with
  | command w => exact Machine.decodeCommand_encode hwf hcode
  | wire b => exact decodeWire_encode hcode

/-- Settles O5: a word that decodes is accepted by a row, so legal for its operation, which fixes every field. -/
theorem encodeOfDecodeIsTheWord : Obligations.EncodeOfDecodeIsTheWord := by
  intro c i hdecode
  cases c with
  | command w =>
    obtain ⟨row, hrow, haccepts, rfl⟩ := decodeCommand_ok hdecode
    exact (fits_of_accepts hrow haccepts).encode_instr
  | wire b => exact encode_decodeWire hdecode

/-! ## The match-and-mask decode (R57) -/

/-- What a row accepts, in the words of R56 and R57. -/
theorem accepts_iff (row : CommandRow) (w : Word) : row.accepts w = true ↔
    w &&& row.mask = row.pattern ∧ (row.op = .dsReadBounded → w.extractLsb' 16 16 ≠ 0#16) := by
  rw [CommandRow.accepts, Bool.and_eq_true, beq_iff_eq]
  refine and_congr_right fun _ => ?_
  cases row.op
  case dsReadBounded => simp [rowExtra, limitOk, fieldLimit_def]
  all_goals exact ⟨fun _ => nofun, fun _ => rfl⟩

/-- A word no row accepts is illegal (R57). -/
theorem decodeCommand_error_of_no_row {w : Word} (h : ∀ row ∈ commandRows, ¬ row.accepts w = true) :
    ∃ e, decodeCommand w = .error e := by
  cases hdecode : decodeCommand w with
  | error e => exact ⟨e, rfl⟩
  | ok i =>
    obtain ⟨row, hrow, haccepts, -⟩ := decodeCommand_ok hdecode
    exact absurd haccepts (h row hrow)

/-- No operation has two rows. -/
theorem row_eq_of_op_eq : ∀ row ∈ commandRows, ∀ row' ∈ commandRows, row'.op = row.op → row' = row := by decide

/-- Settles O6: an accepted word decodes to the row's operation, so two accepting rows have one operation and are one
row; a word no row accepts decodes to nothing. -/
theorem decodeFollowsMatchAndMask : Obligations.DecodeFollowsMatchAndMask := by
  intro w
  simp only [← accepts_iff]
  refine ⟨fun row hrow haccepts => ?_, decodeCommand_error_of_no_row⟩
  have hdecode := (fits_of_accepts hrow haccepts).decodes
  refine ⟨hdecode, fun row' hrow' haccepts' => row_eq_of_op_eq row hrow row' hrow' ?_⟩
  have hdecode' := (fits_of_accepts hrow' haccepts').decodes
  exact Machine.op_eq_of_instr (Except.ok.inj (hdecode'.symm.trans hdecode))

/-! ## Illegal words (R58), by the fields as numbers -/

theorem toNat_fieldOp (w : Word) : (fieldOp w).toNat = w.toNat % 16 := by simp [fieldOp]

theorem toNat_fieldRsv (w : Word) : (w.extractLsb' 4 4).toNat = w.toNat / 16 % 16 := by
  simp [Nat.shiftRight_eq_div_pow]

theorem toNat_fieldV (w : Word) : (fieldV w).toNat = w.toNat / 256 % 256 := by
  simp [fieldV, Nat.shiftRight_eq_div_pow]

theorem toNat_fieldLimit (w : Word) : (fieldLimit w).toNat = w.toNat / 65536 := by
  rw [fieldLimit, BitVec.extractLsb'_toNat, Nat.shiftRight_eq_div_pow]
  omega

/-- A word is illegal exactly if it is legal for no operation. -/
theorem decodeCommand_error_iff (w : Word) : (∃ e, decodeCommand w = .error e) ↔ ∀ op : Op, ¬ op.Fits w := by
  constructor
  · rintro ⟨e, he⟩ op hfits
    exact absurd (hfits.decodes.symm.trans he) nofun
  · exact fun hnone => decodeCommand_error_of_no_row fun row hrow haccepts =>
      hnone row.op (fits_of_accepts hrow haccepts)

/-- The values of `OP` that rows have are 1 to 9 (R58). -/
theorem exists_opcode : ∀ o : BitVec 4, 1 ≤ o.toNat → o.toNat ≤ 9 → ∃ row ∈ commandRows, o = row.op.opcode := by decide

/-- Settles O7: each condition of R58 is a field in which the word fits no operation, and with none of them `OP` names
the operation whose operand fits. -/
theorem illegalWordsAreExactlyTheReservedOnes : Obligations.IllegalWordsAreExactlyTheReservedOnes := by
  intro w
  rw [decodeCommand_error_iff, ← toNat_fieldOp, ← toNat_fieldRsv, ← toNat_fieldV, ← toNat_fieldLimit]
  simp only [List.mem_cons, List.not_mem_nil, or_false]
  constructor
  · intro hnone
    by_contra hlegal
    obtain ⟨⟨op, _, _⟩, -, hop⟩ := exists_opcode (fieldOp w) (by omega) (by omega)
    have hopNat : (fieldOp w).toNat = op.opcode.toNat := congrArg BitVec.toNat hop
    have hrsv : w.extractLsb' 4 4 = 0 := BitVec.eq_of_toNat_eq (show (w.extractLsb' 4 4).toNat = 0 by omega)
    refine hnone op ⟨hrsv, hop, ?_⟩
    cases op
    all_goals
      simp only [Op.OperandFits, Op.opcode, BitVec.reduceToNat] at hopNat ⊢
      omega
  · rintro hillegal op ⟨hrsv, hop, hoperand⟩
    have hopNat : (fieldOp w).toNat = op.opcode.toNat := congrArg BitVec.toNat hop
    have hrsvNat : (w.extractLsb' 4 4).toNat = 0 := congrArg BitVec.toNat hrsv
    cases op
    all_goals
      simp only [Op.OperandFits, Op.opcode, BitVec.reduceToNat] at hopNat hoperand
      omega

/-! ## Words written out, and the assembler's words (R56, R59, R61, R62) -/

/-- Settles O3: the decoder evaluates to the instruction at each word and byte. -/
theorem specWordsDecodeToTheirInstructions : Obligations.SpecWordsDecodeToTheirInstructions :=
  ⟨rfl, rfl, rfl, rfl, rfl, rfl, rfl, rfl, rfl, rfl, rfl, rfl, rfl⟩

/-- The layout of R54 as shifted fields. -/
theorem layoutCommand_eq_or (limit : Half) (v : Byte) (op : BitVec 4) :
    layoutCommand limit v op = op.setWidth 32 ||| v.setWidth 32 <<< 8 ||| limit.setWidth 32 <<< 16 := by
  apply BitVec.eq_of_getLsbD_eq
  intro i hi
  rw [layoutCommand_eq, getLsbD_wordOf]
  simp only [BitVec.getLsbD_or, BitVec.getLsbD_shiftLeft, BitVec.getLsbD_setWidth, hi, decide_true, Bool.true_and]
  split_ifs with h4 h8 h16
  · simp [show i < 8 by omega, show i < 16 by omega]
  · simp [h8, show i < 16 by omega, BitVec.getLsbD_of_ge op i (by omega)]
  · simp [h8, h16, show i - 8 < 32 by omega, BitVec.getLsbD_of_ge op i (by omega)]
  · simp [h8, h16, show i - 16 < 32 by omega, BitVec.getLsbD_of_ge op i (by omega),
      BitVec.getLsbD_of_ge v (i - 8) (by omega)]

/-- R61's word of `owwbyte` is the encoder's. -/
theorem assembled_owwbyte {v : Nat} (hv : v < 256) :
    0x00000003#32 ||| (BitVec.ofNat 32 v <<< 8) = wordOwwbyte (BitVec.ofNat 8 v) := by
  rw [wordOwwbyte, layoutCommand_eq_or, ← BitVec.setWidth_ofNat_of_le_of_lt (w := 8) (by decide) hv]
  simp

/-- R61's word of `dsreadb` is the encoder's. -/
theorem assembled_dsreadb {n : Nat} (hn : n < 65536) :
    0x00000009#32 ||| (BitVec.ofNat 32 n <<< 16) = wordDsreadb (BitVec.ofNat 16 n) := by
  rw [wordDsreadb, layoutCommand_eq_or, ← BitVec.setWidth_ofNat_of_le_of_lt (w := 16) (by decide) hn]
  simp

end Sys2Proof

namespace Sys2Proof.Machine

/-- Settles O8, statement by statement: the commands without operand, the three with one, and the expansions. -/
theorem assemblerAgreesWithTheEncoder : Obligations.AssemblerAgreesWithTheEncoder := by
  intro base
  refine ⟨fun st i w hmem hcode => ?_, fun b => ?_, fun v => ?_, fun n => ?_, rfl, rfl, rfl, fun _ => rfl⟩
  · simp only [List.mem_cons, Prod.mk.injEq, List.not_mem_nil, or_false] at hmem
    obtain ⟨rfl, rfl⟩ | ⟨rfl, rfl⟩ | ⟨rfl, rfl⟩ | ⟨rfl, rfl⟩ | ⟨rfl, rfl⟩ | ⟨rfl, rfl⟩ := hmem <;> cases hcode <;> rfl
  · refine ite_congr rfl (fun hb => ?_) fun _ => rfl
    interval_cases b <;> rfl
  · refine ite_congr rfl (fun hv => ?_) fun _ => rfl
    rw [← assembled_owwbyte hv]
    rfl
  · refine ite_congr rfl (fun hn => ?_) fun _ => rfl
    rw [← assembled_dsreadb (by omega)]
    rfl

/-! ## The wire command bytes (R59, R83 to R85) -/

/-- Settles O11, point by point. -/
theorem wirePointsSendTheFixedBytes : Obligations.WirePointsSendTheFixedBytes := by
  intro p b
  constructor
  · intro h
    cases p
    case scSkip | gcSkip | scConv | gcRead => cases h; simp
    all_goals cases h
  · rintro (⟨rfl | rfl, rfl⟩ | ⟨rfl, rfl⟩ | ⟨rfl, rfl⟩) <;> rfl

/-- The meaning of a wire command is the call of `ow_write_byte` with its byte (R59). -/
theorem exec_wire {i : Instr} {v : Byte}
    (h : (i, v) ∈ [(Instr.skipRom, 0xCC#8), (.startConv, 0x44#8), (.readScratchpad, 0xBE#8)]) (s : State) :
    exec i s = .next (s.callWriteByte v) := by
  simp only [List.mem_cons, Prod.mk.injEq, List.not_mem_nil, or_false] at h
  obtain ⟨rfl, rfl⟩ | ⟨rfl, rfl⟩ | ⟨rfl, rfl⟩ := h <;> rfl

/-- With no operation running the call of `ow_write_byte` is the command `OW_WRITE_BYTE` (log entry 12). -/
theorem callWriteByte_idle {s : State} (v : Byte) (h : s.seq = .idle) :
    s.callWriteByte v = s.writeCommand .owWriteByte (wordOwwbyte v) := by
  unfold State.callWriteByte; rw [h]

/-- Settles O25: the call loads `SHIFT`, and the run of `ow_write_byte` from there is `run_writeByte`. -/
theorem wireCommandsSendTheirByte : Obligations.WireCommandsSendTheirByte := by
  intro s i v op o ps hmem hs
  refine ⟨by rw [exec_wire hmem, callWriteByte_run v hs], fun hturns htimer => ?_⟩
  obtain ⟨u, hreach, hmoved, htemps, hline, hsbit, hpres, hret, hseq⟩ :=
    run_writeByte (s := { s with shift := v, seq := .run op o (.wyInit :: afterWireStack ps) }) ⟨hturns, htimer⟩ rfl
  exact ⟨u, hreach, hseq, hmoved.trace, hline, hmoved.timer.trans htimer, hmoved.drew, hmoved.lasted, hmoved.cmd,
    hmoved.status, hmoved.data, hmoved.temp, htemps.lsb, htemps.msb, htemps.polln, hpres, hret, hsbit, hmoved.params,
    hmoved.turns, hmoved.resets, hmoved.reads⟩

/-- Settles O26: both are the write of the word of `OW_WRITE_BYTE`. -/
theorem wireCommandsOfAnIdleBlockAreWriteByte : Obligations.WireCommandsOfAnIdleBlockAreWriteByte := by
  intro s i v hmem hs
  rw [exec_wire hmem, callWriteByte_idle v hs]
  rfl

/-- Settles O27: `exec` of the limit 0 writes an illegal word, which an idle block completes at once. -/
theorem zeroLimitCompletesIllegal : Obligations.ZeroLimitCompletesIllegal := by
  intro s hidle
  have hexec : exec (.dsreadb 0) s = .next (s.writeIllegal 0x00000009#32) := rfl
  rw [writeIllegal_idle hidle] at hexec
  exact ⟨_, hexec, rfl, busy_complete .., done_complete .., result_complete .., presence_complete ..,
    overrun_complete ..⟩

end Sys2Proof.Machine
end

section
/-! SUPPORT. The family 40_line_primitives: what the three primitives that write the line do (R64 to R66), and why no run
samples with the line driven (R67). -/

namespace Sys2Proof.Machine

/-! ## The primitives that write the line (R64 to R66) -/

/-- `SetLine(b)` as a choice by its bit and `WRITE1_DRIVE` (R66). -/
theorem setLineOut_eq_ite (drive : Config.Write1Drive) (b : Bit) :
    setLineOut drive b = if b = false then .low else if drive = .release then .rel else .high := by
  cases b with
  | false => rfl
  | true => cases drive <;> rfl

/-- Settles O34: `DriveLow` and `Release` by definition, `SetLine` with its choice of line. -/
theorem linePrimitivesWriteOnlyTheLine : Obligations.LinePrimitivesWriteOnlyTheLine := by
  intro s b
  exact ⟨rfl, rfl, by rw [State.setLine, setLineOut_eq_ite]⟩

/-! ## No step faults (R67) -/

/-- A host access is refused or has a next state: only the block samples. -/
theorem hostStep_ne_fault (a : HostAccess) (s : State) (f : Fault) : hostStep a s ≠ .fault f := by
  cases hreg : a.reg s.params.base with
  | none => rw [hostStep_refused hreg]; nofun
  | some r =>
    obtain ⟨t, ht⟩ := hostStep_progress hreg
    rw [ht]; nofun

/-- Where the invariant holds the block's move is no fault: the line is released at the points that sample. -/
theorem Inv.blockStep_ne_fault {s : State} (h : Inv s) (f : Fault) : Machine.blockStep s ≠ .fault f := by
  obtain ⟨t, ht⟩ := h.blockStep_progress
  rw [ht]; nofun

/-- Settles O40, by whose turn it is. -/
theorem noStepFaults : Obligations.NoStepFaults := by
  intro s f hinv
  match hturn : s.turns with
  | [] => rw [step_noTurns hturn]; exact hinv.blockStep_ne_fault f
  | .block :: ts => rw [step_block hturn]; exact (hinv.withTurns ts).blockStep_ne_fault f
  | .host a :: ts => rw [step_host hturn]; exact hostStep_ne_fault a _ f
  | .wait :: ts => rw [step_wait hturn]; nofun
  | .blockReset :: ts => rw [step_blockReset hturn]; nofun

end Sys2Proof.Machine
end

section
/-! SUPPORT. The family 41_onewire_transport: from a quiet state each transport command is accepted, its procedure runs
(R71 to R79), and the command rule completes (`run_finish`). -/

namespace Sys2Proof.Machine

/-! ## The words of the commands with an operand (R55, R56) -/

/-- The two words of `OW_WRITE_BIT` (R74). -/
theorem wordOwwbit_eq_ite (b : Bit) : wordOwwbit b = if b then 0x00000102#32 else 0x00000002#32 := by
  cases b <;> rfl

/-- The bit latched from the word of `OW_WRITE_BIT b` is `b` (R55). -/
theorem operandOf_wordOwwbit (b : Bit) : operandOf .owWriteBit (wordOwwbit b) = .bit b := by
  cases b <;> rfl

/-- The word of `OW_WRITE_BYTE v` (R76). -/
theorem wordOwwbyte_eq_or (v : Byte) : wordOwwbyte v = 0x00000003#32 ||| (v.zeroExtend 32 <<< 8) := by
  rw [wordOwwbyte, layoutCommand_eq_or]
  simp

/-! ## Acceptance (R25) -/

/-- `exec` of a command, which writes its word, is the acceptance of that word in a quiet state. -/
theorem Quiet.exec_accepts {s : State} {i : Instr} {op : Op} {w : Word} (h : Quiet s)
    (hexec : exec i s = .next (s.writeCommand op w)) : exec i s = .next (s.accept op w) :=
  hexec.trans (congrArg Host.Outcome.next (writeCommand_idle h.notBusy op w))

/-- Where an accepted operation stands. -/
theorem Accepted.seq {s t : State} {op : Op} {o : Operand} {w : Word} {start : List Point}
    (h : Accepted s t op o w start) : t.seq = .run op o start :=
  congrArg State.seq h.state

/-! ## What `OW_WRITE_BYTE` calls (R76) -/

/-- `ow_write_byte` with the latched operand (R75, R76): `SHIFT` is loaded, and its eight bits are sent. -/
theorem run_writeOperand {s : State} {op : Op} {o : Operand} {ps : List Point} (hr : Ready s)
    (hs : s.seq = .run op o (.wyArg :: ps)) :
    ∃ t, Reaches s t ∧ Moved s t (traceWriteByte s.params o.asByte) 0 24 (8 * nominalWriteBit s.params) ∧
      SameTemps s t ∧ t.lineOut = .rel ∧ t.pres = s.pres ∧ t.seq = .run op o (resume op ps) := by
  obtain ⟨a, ra, ma, ta, ha, pa, qa⟩ : ∃ a, Reaches s a ∧ Moved s a [] 0 0 0 ∧ SameTemps s a ∧ a.shift = o.asByte ∧
      a.pres = s.pres ∧ a.seq = .run op o (.wyInit :: ps) :=
    ⟨_, .one ((step_point hr.turns hs).trans rfl), moved_assign .., ⟨rfl, rfl, rfl⟩, rfl, rfl, rfl⟩
  obtain ⟨t, rt, mt, tt, lt, -, pt, -, qt⟩ := run_writeByte (hr.moved ma) qa
  rw [ha, ma.params] at mt
  exact ⟨t, ra.trans rt, by simpa using ma.trans mt, ta.trans tt, lt, pt.trans pa, qt⟩

/-! ## What `OW_READ_BYTE` leaves in `DATA` (R80) -/

/-- Bit `i` of the byte made of the next eight samples, extended to a word, is the `i`-th sample, and 0 from bit 8 on
(R79, R80). -/
theorem zext32Byte_byteAt_getLsbD (s : State) (i : Nat) :
    (zext32Byte (s.byteAt 0)).getLsbD i = (decide (i < 8) && s.levelAt i) := by
  simpa [zext32Byte, State.byteAt, sampledByte_getLsbD] using fun hi _ => Nat.lt_trans hi (by decide : 8 < 32)

/-! ## The five commands -/

/-- Settles O12: the run of `ow_reset`; `PRES` is the level sampled, inverted, and the result follows it. -/
theorem owResetCompletes : Obligations.OwResetCompletes := by
  intro s hquiet
  obtain ⟨t, hreach, hmoved, hbytes, hline, -, hpres, hseq⟩ :=
    run_reset (hquiet.ready_accept .owReset 0x00000001#32) rfl fun _ => rfl
  obtain ⟨u, hreach', hfinished, hbytes', hpres', hpresence, hdata, htemp⟩ := run_finish hquiet hmoved hline hseq
  have hpres : t.pres = !s.levelAt 0 := hpres
  have hresult : (if t.pres then ResultCode.ok else .busAbsent) = if s.levelAt 0 then .busAbsent else .ok := by
    rw [hpres]; cases s.levelAt 0 <;> rfl
  have hsame := hbytes.trans hbytes'
  exact ⟨_, u, hquiet.exec_accepts rfl, accepted rfl rfl, hreach.trans hreach',
    hresult ▸ hfinished, hpresence.trans hpres, hpres'.trans hpres, hdata, htemp, hsame.shift, hsame.biti, hsame.lsb,
    hsame.msb, hsame.polln⟩

/-- Settles O13: the run of `ow_write_bit` with the latched bit. -/
theorem owWriteBitCompletes : Obligations.OwWriteBitCompletes := by
  intro s b hquiet
  rw [← wordOwwbit_eq_ite b]
  have haccepted : Accepted s _ .owWriteBit (.bit b) (wordOwwbit b) _ := accepted (operandOf_wordOwwbit b) rfl
  obtain ⟨t, hreach, hmoved, hbytes, hline, -, hpres, hseq⟩ :=
    run_writeBit (hquiet.ready_accept .owWriteBit (wordOwwbit b)) haccepted.seq
  obtain ⟨u, hreach', hfinished, hbytes', hpres', hpresence, hdata, htemp⟩ := run_finish hquiet hmoved hline hseq
  have hsame := hbytes.trans hbytes'
  exact ⟨_, u, hquiet.exec_accepts rfl, haccepted, hreach.trans hreach', hfinished,
    hpresence, hpres'.trans hpres, hdata, htemp, hsame.shift, hsame.biti, hsame.lsb, hsame.msb, hsame.polln⟩

/-- Settles O14: the run of `ow_write_byte` with the latched byte. -/
theorem owWriteByteCompletes : Obligations.OwWriteByteCompletes := by
  intro s v hquiet
  rw [← wordOwwbyte_eq_or v]
  have haccepted : Accepted s _ .owWriteByte (.byte v) (wordOwwbyte v) _ := accepted (operandOf_wordOwwbyte v) rfl
  obtain ⟨t, hreach, hmoved, htemps, hline, hpres, hseq⟩ :=
    run_writeOperand (hquiet.ready_accept .owWriteByte (wordOwwbyte v)) haccepted.seq
  obtain ⟨u, hreach', hfinished, hbytes, hpres', hpresence, hdata, htemp⟩ := run_finish hquiet hmoved hline hseq
  have hsame := htemps.trans hbytes.temps
  exact ⟨_, u, hquiet.exec_accepts rfl, haccepted, hreach.trans hreach', hfinished,
    hpresence, hpres'.trans hpres, hdata, htemp, hsame.lsb, hsame.msb, hsame.polln⟩

/-- Settles O15: the run of `ow_read_bit`; the sampled bit goes to `DATA`. -/
theorem owReadBitCompletes : Obligations.OwReadBitCompletes := by
  intro s hquiet
  obtain ⟨t, hreach, hmoved, hbytes, hline, -, hsampled, hpres, hseq⟩ :=
    run_readBit (hquiet.ready_accept .owReadBit 0x00000004#32) rfl
  obtain ⟨u, hreach', hfinished, hbytes', hpres', hpresence, hdata, htemp⟩ := run_finish hquiet hmoved hline hseq
  have hbit : u.data = zext32Bit (s.levelAt 0) := hdata.trans (congrArg zext32Bit hsampled)
  have hsame := hbytes.trans hbytes'
  exact ⟨_, u, hquiet.exec_accepts rfl, accepted rfl rfl, hreach.trans hreach', hfinished,
    hpresence, hpres'.trans hpres, hbit, htemp, hsame.shift, hsame.biti, hsame.lsb, hsame.msb, hsame.polln⟩

/-- Settles O16: the run of `ow_read_byte`; the byte its samples made goes to `DATA`. -/
theorem owReadByteCompletes : Obligations.OwReadByteCompletes := by
  intro s hquiet
  obtain ⟨t, hreach, hmoved, hsession, hline, hshift, -, hpres, hseq⟩ :=
    run_readByte (hquiet.ready_accept .owReadByte 0x00000005#32) rfl fun _ => rfl
  obtain ⟨u, hreach', hfinished, hbytes, hpres', hpresence, hdata, htemp⟩ := run_finish hquiet hmoved hline hseq
  have hbyte : u.data = zext32Byte (s.byteAt 0) := hdata.trans (congrArg zext32Byte hshift)
  have hsame := hsession.trans hbytes.session
  exact ⟨_, u, hquiet.exec_accepts rfl, accepted rfl rfl, hreach.trans hreach', hfinished,
    fun i => hbyte ▸ zext32Byte_byteAt_getLsbD s i, hpresence, hpres'.trans hpres, htemp, hsame.lsb, hsame.msb,
    hsame.polln⟩

end Sys2Proof.Machine
end

section
/-! SUPPORT. The family 42_ds18b20_session: from a quiet state each session command is accepted, its procedure runs
(R86 to R92), and the command rule completes (`run_finish`). -/

namespace Sys2Proof.Machine

/-! ## The parts of a session operation -/

/-- What `ds_start_conversion` puts on the bus when it sees presence (R86). -/
def traceConversionStart (p : Config.Params) : List TraceEvent :=
  traceReset p false ++ traceWriteByte p 0xCC#8 ++ traceWriteByte p 0x44#8

/-- Nominal duration of `ds_start_conversion` when it sees presence (R86). -/
def nominalConversionStart (p : Config.Params) : Nat := nominalReset p false + 16 * nominalWriteBit p

/-- What `ds_get_conversion` puts on the bus when it sees presence and reads the bytes `lsb` and `msb` (R88). -/
def traceScratchpad (p : Config.Params) (lsb msb : Byte) : List TraceEvent :=
  traceReset p false ++ traceWriteByte p 0xCC#8 ++ traceWriteByte p 0xBE#8 ++ traceReadByte p lsb ++ traceReadByte p msb

/-- Nominal duration of `ds_get_conversion` when it sees presence (R88). -/
def nominalScratchpad (p : Config.Params) : Nat :=
  nominalReset p false + 16 * nominalWriteBit p + 16 * nominalReadBit p

/-! ## The word of `DS_READ_BOUNDED` (R55, R93) -/

theorem wordDsreadb_eq_or (limit : Half) : wordDsreadb limit = 0x00000009#32 ||| (limit.zeroExtend 32 <<< 16) := by
  rw [wordDsreadb, layoutCommand_eq_or]
  simp

/-- The limit latched from the word of `DS_READ_BOUNDED limit` is `limit` (R55). -/
theorem operandOf_wordDsreadb (limit : Half) : operandOf .dsReadBounded (wordDsreadb limit) = .limit limit :=
  congrArg Operand.limit (fieldLimit_wordOf limit 0 0 0x9#4)

theorem accepted_dsreadb (s : State) (limit : Half) :
    Accepted s (s.accept .dsReadBounded (wordDsreadb limit)) .dsReadBounded (.limit limit) (wordDsreadb limit)
      [.rstDrive, .scTest, .rnTest] :=
  accepted (operandOf_wordDsreadb limit) rfl

/-- With a nonzero limit `exec` writes the word of `DS_READ_BOUNDED` (R93). -/
theorem exec_dsreadb {limit : Half} (h : limit ≠ 0) (s : State) :
    exec (.dsreadb limit) s = .next (s.writeCommand .dsReadBounded (wordDsreadb limit)) :=
  if_pos (bne_iff_ne.mpr h)

/-! ## `ds_read` and `ds_read_bounded` up to their poll loops (R90, R92) -/

/-- Without presence both procedures return what `ds_start_conversion` returned, with nothing after the bus reset. -/
theorem run_read_absent {s : State} {op : Op} {o : Operand} {p : Point} (hp : p = .rdTest ∨ p = .rnTest) (hr : Ready s)
    (hs : s.seq = .run op o [.rstDrive, .scTest, p]) (hv : s.levelAt 0 = true) :
    ∃ t, Reaches s t ∧ Moved s t (traceReset s.params true) 1 2 (nominalReset s.params true) ∧ SameTemps s t ∧
      t.lineOut = .rel ∧ t.ret = .busAbsent ∧ t.pres = false ∧ t.seq = .run op o (resume op []) := by
  have hret : ∀ r, returnedResult [p] r = r := by rcases hp with rfl | rfl <;> exact fun _ => rfl
  have hresume : resume op [p] = [p] := by rcases hp with rfl | rfl <;> rfl
  obtain ⟨a, ra, ma, ta, la, ea, pa, qa⟩ := run_startConv_absent hr hs hret hv
  rw [hresume] at qa
  have hstep : stepPoint op o p [] a = .next (a.returnTo op o []) := by
    rcases hp with rfl | rfl <;> simp [stepPoint, ea]
  obtain ⟨b, rb, mb, tb, lb, -, -, -, pb, eb, qb⟩ := run_returnTo (hr.moved ma) qa hstep
  exact ⟨b, ra.trans rb, by simpa using ma.trans mb, ta.trans tb, lb.trans la, eb.trans ea, pb.trans pa, qb⟩

/-- With presence both procedures go on after `ds_start_conversion`: `ds_read` at its first poll, `ds_read_bounded` at
`POLLN <- 0`. -/
theorem run_read_present {s : State} {op : Op} {o : Operand} {p : Point} {qs : List Point}
    (hp : (p = .rdTest ∧ qs = [.rbDrive, .rdPoll]) ∨ (p = .rnTest ∧ qs = [.rnZero])) (hr : Ready s)
    (hs : s.seq = .run op o [.rstDrive, .scTest, p]) (hv : s.levelAt 0 = false) :
    ∃ t, Reaches s t ∧ Moved s t (traceConversionStart s.params) 1 51 (nominalConversionStart s.params) ∧
      SameTemps s t ∧ t.pres = true ∧ t.seq = .run op o qs := by
  obtain ⟨a, ra, ma, ta, -, ea, pa, qa⟩ := run_startConv_present hr hs hv
  have ma : Moved s a (traceConversionStart s.params) 1 51 (nominalConversionStart s.params) := ma
  have hresume : resume op [p] = [p] := by rcases hp with ⟨rfl, -⟩ | ⟨rfl, -⟩ <;> rfl
  rw [hresume] at qa
  have hstep : stepPoint op o p [] a = .next (a.goto op o qs) := by
    rcases hp with ⟨rfl, rfl⟩ | ⟨rfl, rfl⟩ <;> simp [stepPoint, ea]
  obtain ⟨b, rb, mb, bb, -, -, -, pb, qb⟩ := run_goto (hr.moved ma) qa hstep
  exact ⟨b, ra.trans rb, by simpa using ma.trans mb, ta.trans bb.temps, pb.trans pa, qb⟩

/-! ## The poll loops (R90, R92) -/

/-- `k` + 1 busy polls end with a busy poll. -/
theorem traceBusyPolls_succ_last (p : Config.Params) (k : Nat) :
    traceBusyPolls p (k + 1) = traceBusyPolls p k ++ traceReadBit p false := by
  simp [traceBusyPolls, List.replicate_succ']

/-- `ds_read` while every poll reads 0: after `k` polls it stands at the next (R90, R104). -/
theorem run_read_busy {s : State} {op : Op} {o : Operand} {k : Nat} (hr : Ready s)
    (hs : s.seq = .run op o [.rstDrive, .scTest, .rdTest]) (hv : s.levelAt 0 = false)
    (hbusy : ∀ j < k, s.levelAt (1 + j) = false) :
    ∃ t, Reaches s t ∧ Moved s t (traceConversionStart s.params ++ traceBusyPolls s.params k) (1 + k) (51 + k * 3)
        (nominalConversionStart s.params + k * nominalReadBit s.params) ∧
      SameTemps s t ∧ t.seq = .run op o [.rbDrive, .rdPoll] := by
  obtain ⟨a, ra, ma, ta, -, qa⟩ := run_read_present (.inl ⟨rfl, rfl⟩) hr hs hv
  obtain ⟨b, rb, mb, bb, -, -, qb⟩ := run_busyPolls k (hr.moved ma) qa fun j hj => (ma.drew j).trans (hbusy j hj)
  rw [ma.params] at mb
  exact ⟨b, ra.trans rb, ma.trans mb, ta.trans bb.temps, qb⟩

/-- `ds_read` up to its call of `ds_get_conversion`: `k` polls read 0 and the next reads 1 (R90). -/
theorem run_read_done {s : State} {op : Op} {o : Operand} {k : Nat} (hr : Ready s)
    (hs : s.seq = .run op o [.rstDrive, .scTest, .rdTest]) (hv : s.levelAt 0 = false)
    (hbusy : ∀ j < k, s.levelAt (1 + j) = false) (hdone : s.levelAt (1 + k) = true) :
    ∃ t, Reaches s t ∧
      Moved s t (traceConversionStart s.params ++ traceBusyPolls s.params k ++ traceReadBit s.params true) (2 + k)
        (51 + 3 * (k + 1)) (nominalConversionStart s.params + (k + 1) * nominalReadBit s.params) ∧
      SameTemps s t ∧ t.seq = .run op o [.rstDrive, .gcTest, .rdReturn] := by
  obtain ⟨a, ra, ma, ta, qa⟩ := run_read_busy hr hs hv hbusy
  have hlevel : a.levelAt 0 = true := (ma.drew 0).trans hdone
  obtain ⟨b, rb, mb, bb, -, -, xb, -, qb⟩ := run_readBit (hr.moved ma) qa
  rw [hlevel, ma.params] at mb
  have mb := ma.trans mb
  obtain ⟨c, rc, mc, bc, -, -, xc, -, qc⟩ := run_goto (qs := [.rdUntil]) (hr.moved mb) qb rfl
  have mc := mb.trans mc
  obtain ⟨d, rd, md, bd, -, -, -, -, qd⟩ := run_goto (qs := [.rstDrive, .gcTest, .rdReturn]) (hr.moved mc) qc
    (by simp [stepPoint, xc, xb, hlevel])
  refine ⟨d, ra.trans (rb.trans (rc.trans rd)), ?_, ta.trans (bb.trans (bc.trans bd)).temps, qd⟩
  convert mc.trans md using 1
  · simp
  · omega
  · omega
  · ring

/-- One poll slot of `ds_read_bounded`, counted, up to the loop's condition (R92). -/
theorem run_countedPoll {s : State} {op : Op} {o : Operand} (hr : Ready s)
    (hs : s.seq = .run op o [.rbDrive, .rnPoll]) :
    ∃ t, Reaches s t ∧ Moved s t (traceReadBit s.params (s.levelAt 0)) 1 3 (nominalReadBit s.params) ∧
      t.polln = s.polln + 1 ∧ t.lsb = s.lsb ∧ t.msb = s.msb ∧ t.sbit = s.levelAt 0 ∧ t.pres = s.pres ∧
      t.lineOut = .rel ∧ t.seq = .run op o [.rnUntil] := by
  obtain ⟨a, ra, ma, ba, la, -, xa, pa, qa⟩ := run_readBit hr hs
  obtain ⟨b, rb, mb, bb, lb, -, xb, pb, qb⟩ := run_goto (qs := [.rnInc]) (hr.moved ma) qa rfl
  have mb := ma.trans mb
  have hbytes := ba.trans bb
  obtain ⟨t, rt, mt, nt, ht, kt, xt, pt, lt, qt⟩ : ∃ t, Reaches b t ∧ Moved b t [] 0 0 0 ∧ t.polln = b.polln + 1 ∧
      t.lsb = b.lsb ∧ t.msb = b.msb ∧ t.sbit = b.sbit ∧ t.pres = b.pres ∧ t.lineOut = b.lineOut ∧
      t.seq = .run op o [.rnUntil] :=
    ⟨_, .one ((step_point (hr.moved mb).turns qb).trans rfl), moved_assign .., rfl, rfl, rfl, rfl, rfl, rfl, rfl⟩
  exact ⟨t, ra.trans (rb.trans rt), by simpa using mb.trans mt, by rw [nt, hbytes.polln], ht.trans hbytes.lsb,
    kt.trans hbytes.msb, xt.trans (xb.trans xa), pt.trans (pb.trans pa), lt.trans (lb.trans la), qt⟩

/-- `ds_read_bounded` up to the test after its poll loop: `k` polls read 0, and the next ends the loop since it reads 1
or is the last allowed one (R92). -/
theorem run_bounded_polled {s : State} {op : Op} {o : Operand} {k : Nat} (hr : Ready s)
    (hs : s.seq = .run op o [.rstDrive, .scTest, .rnTest]) (hv : s.levelAt 0 = false) (hk : k < o.asLimit)
    (hbusy : ∀ j < k, s.levelAt (1 + j) = false) (hlast : s.levelAt (1 + k) = true ∨ k + 1 = o.asLimit) :
    ∃ t, Reaches s t ∧
      Moved s t (traceConversionStart s.params ++ traceBusyPolls s.params k ++
          traceReadBit s.params (s.levelAt (1 + k))) (2 + k) (51 + 3 * (k + 1))
        (nominalConversionStart s.params + (k + 1) * nominalReadBit s.params) ∧
      t.polln = k + 1 ∧ t.lsb = s.lsb ∧ t.msb = s.msb ∧ t.sbit = s.levelAt (1 + k) ∧ t.pres = true ∧
      t.lineOut = .rel ∧ t.seq = .run op o [.rnAfter] := by
  obtain ⟨a, ra, ma, ta, pa, qa⟩ := run_read_present (.inr ⟨rfl, rfl⟩) hr hs hv
  obtain ⟨b, rb, mb, nb, hb, kb, pb, qb⟩ : ∃ b, Reaches a b ∧ Moved a b [] 0 0 0 ∧ b.polln = 0 ∧ b.lsb = a.lsb ∧
      b.msb = a.msb ∧ b.pres = a.pres ∧ b.seq = .run op o [.rbDrive, .rnPoll] :=
    ⟨_, .one ((step_point (hr.moved ma).turns qa).trans rfl), moved_assign .., rfl, rfl, rfl, rfl, rfl⟩
  have mb := ma.trans mb
  obtain ⟨c, rc, mc, nc, hc, kc, -, pc, qc⟩ := run_countedPolls k (hr.moved mb) qb (by omega)
    fun j hj => (mb.drew j).trans (hbusy j hj)
  rw [mb.params] at mc
  have mc := mb.trans mc
  obtain ⟨d, rd, md, nd, hd, kd, xd, pd, ld, qd⟩ := run_countedPoll (hr.moved mc) qc
  have hlevel : c.levelAt 0 = s.levelAt (1 + k) := mc.drew 0
  rw [hlevel, mc.params] at md
  have md := mc.trans md
  have hsbit : d.sbit = s.levelAt (1 + k) := xd.trans hlevel
  have hpolln : d.polln = k + 1 := by rw [nd, nc, nb, Nat.zero_add]
  obtain ⟨e, re, me, be, le, -, xe, pe, qe⟩ := run_goto (qs := [.rnAfter]) (hr.moved md) qd
    (by rcases hlast with h | h <;> simp [stepPoint, hsbit, hpolln, h])
  refine ⟨e, ra.trans (rb.trans (rc.trans (rd.trans re))), ?_, be.polln.trans hpolln, ?_, ?_, xe.trans hsbit, ?_,
    le.trans ld, qe⟩
  · convert md.trans me using 1
    · simp
    · omega
    · omega
    · ring
  · rw [be.lsb, hd, hc, hb, ta.lsb]
  · rw [be.msb, kd, kc, kb, ta.msb]
  · rw [pe, pd, pc, pb, pa]

/-! ## The read of the scratchpad and the completion (R88, R89, R91, R93) -/

/-- How `op` ends when its last part is a read of the scratchpad, with the events `evs`, `c + k` samples and `n` delays
of `d` µs in all before it: `OK` with `TEMP` the pair of bytes read, or `BUS_ABSENT` with the bytes and `TEMP` kept. -/
def EndsWithScratchpad (s u : State) (op : Op) (w : Word) (evs : List TraceEvent) (c k n d : Nat) : Prop :=
  if s.levelAt (c + k) then
    Finished s u op w .busAbsent (evs ++ traceReset s.params true) (c + 1 + k) (n + 2)
        (d + nominalReset s.params true) ∧
      Status.presence u.status = false ∧ u.temp = s.temp ∧ u.lsb = s.lsb ∧ u.msb = s.msb
  else
    Finished s u op w .ok (evs ++ traceScratchpad s.params (s.byteAt (c + 1 + k)) (s.byteAt (c + 9 + k))) (c + 17 + k)
        (n + 99) (d + nominalScratchpad s.params) ∧
      Status.presence u.status = true ∧ u.temp = (s.byteAt (c + 9 + k) ++ s.byteAt (c + 1 + k)).signExtend 32 ∧
      u.lsb = s.byteAt (c + 1 + k) ∧ u.msb = s.byteAt (c + 9 + k)

/-- The operations whose rule writes `TEMP` on `OK` end with the result their procedure returned (R89, R91, R93). -/
theorem run_finish_read {s t : State} {op : Op} {o : Operand} {w : Word} {evs : List TraceEvent} {m n d : Nat}
    (hop : op = .dsGetConversion ∨ op = .dsRead ∨ op = .dsReadBounded) (hq : Quiet s)
    (hm : Moved (s.accept op w) t evs m n d) (hl : t.lineOut = .rel) (hs : t.seq = .run op o (resume op [])) :
    ∃ u, Reaches t u ∧ Finished s u op w t.ret evs m n d ∧ SameTemps t u ∧ u.pres = t.pres ∧
      Status.presence u.status = t.pres ∧ u.data = s.data ∧
      u.temp = if t.ret = .ok then (t.msb ++ t.lsb).signExtend 32 else s.temp := by
  obtain ⟨u, hreach, hfinished, hbytes, hpres, hpresence, hdata, htemp⟩ := run_finish hq hm hl hs
  have htemp : u.temp = if t.ret = .ok then (t.msb ++ t.lsb).signExtend 32 else s.temp := by
    rcases hop with rfl | rfl | rfl <;> simpa [sext32Half, rawTemperature] using htemp
  refine ⟨u, hreach, ?_, hbytes.temps, hpres, ?_, ?_, htemp⟩ <;> rcases hop with rfl | rfl | rfl <;> assumption

/-- From the call of `ds_get_conversion` by the operation's last line on, the operation ends with its read of the
scratchpad. -/
theorem run_scratchpad {s t : State} {op : Op} {o : Operand} {ps : List Point} {w : Word} {evs : List TraceEvent}
    {c k n d : Nat} (hop : op = .dsGetConversion ∨ op = .dsRead ∨ op = .dsReadBounded) (hq : Quiet s)
    (hm : Moved (s.accept op w) t evs (c + k) n d) (hlsb : t.lsb = s.lsb) (hmsb : t.msb = s.msb)
    (hs : t.seq = .run op o (.rstDrive :: .gcTest :: ps)) (hret : ∀ r, returnedResult ps r = r)
    (hps : resume op ps = resume op []) :
    ∃ u, Reaches t u ∧ EndsWithScratchpad s u op w evs c k n d ∧ Status.presence u.status = (!s.levelAt (c + k)) ∧
      u.pres = (!s.levelAt (c + k)) ∧ u.data = s.data ∧ u.polln = t.polln := by
  have hr := (hq.ready_accept op w).moved hm
  have hlevel : t.levelAt 0 = s.levelAt (c + k) := hm.drew 0
  have hparams : t.params = s.params := hm.params
  unfold EndsWithScratchpad
  cases hv : s.levelAt (c + k) with
  | true =>
    obtain ⟨a, ra, ma, ta, la, ea, pa, qa⟩ := run_getConv_absent hr hs hret (hlevel.trans hv)
    rw [hps] at qa
    obtain ⟨u, ru, fu, tu, pu, su, du, xu⟩ := run_finish_read hop hq (hm.trans ma) la qa
    rw [ea, hparams, Nat.add_right_comm c k 1] at fu
    rw [ea] at xu
    have htemps := ta.trans tu
    exact ⟨u, ra.trans ru, ⟨fu, su.trans pa, xu, htemps.lsb.trans hlsb, htemps.msb.trans hmsb⟩, su.trans pa,
      pu.trans pa, du, htemps.polln⟩
  | false =>
    obtain ⟨a, ra, ma, na, la, ba, ca, ea, pa, qa⟩ := run_getConv_present hr hs hret (hlevel.trans hv)
    rw [hps] at qa
    obtain ⟨u, ru, fu, tu, pu, su, du, xu⟩ := run_finish_read hop hq (hm.trans ma) la qa
    have hbyte : ∀ i, t.byteAt i = s.byteAt (c + i + k) := fun i => by
      rw [hm.drew.byteAt, accept_byteAt, Nat.add_right_comm]
    rw [hbyte] at ba ca
    rw [ea, hparams, hbyte, hbyte, Nat.add_right_comm c k 17] at fu
    rw [ea, ba, ca] at xu
    exact ⟨u, ra.trans ru, ⟨fu, su.trans pa, xu, tu.lsb.trans ba, tu.msb.trans ca⟩, su.trans pa, pu.trans pa, du,
      tu.polln.trans na⟩

/-! ## The four commands -/

/-- Where `ds_start_conversion` has returned, its result is the operation's and `PRES` its presence (R87). -/
theorem dsStartConversion_finishes {s t : State} {o : Operand} {w : Word} {evs : List TraceEvent} {m n d : Nat}
    (hq : Quiet s) (hm : Moved (s.accept .dsStartConversion w) t evs m n d)
    (htemps : SameTemps (s.accept .dsStartConversion w) t) (hl : t.lineOut = .rel)
    (hs : t.seq = .run .dsStartConversion o (resume .dsStartConversion [])) :
    ∃ u, Reaches t u ∧ Finished s u .dsStartConversion w t.ret evs m n d ∧ Status.presence u.status = t.pres ∧
      u.pres = t.pres ∧ u.data = s.data ∧ u.temp = s.temp ∧ u.lsb = s.lsb ∧ u.msb = s.msb ∧ u.polln = s.polln := by
  obtain ⟨u, hreach, hfinished, hbytes, hpres, hpresence, hdata, htemp⟩ := run_finish hq hm hl hs
  have hsame := htemps.trans hbytes.temps
  exact ⟨u, hreach, hfinished, hpresence, hpres, hdata, htemp, hsame.lsb, hsame.msb, hsame.polln⟩

/-- Settles O17: both ends of `ds_start_conversion`. -/
theorem dsStartConversionCompletes : Obligations.DsStartConversionCompletes := by
  intro s hquiet
  have hready := hquiet.ready_accept .dsStartConversion 0x00000006#32
  cases hv : s.levelAt 0 with
  | true =>
    obtain ⟨t, hreach, hmoved, htemps, hline, hret, hpres, hseq⟩ := run_startConv_absent hready rfl (fun _ => rfl) hv
    obtain ⟨u, hreach', hends⟩ := dsStartConversion_finishes hquiet hmoved htemps hline hseq
    rw [hret, hpres] at hends
    exact ⟨_, u, hquiet.exec_accepts rfl, accepted rfl rfl, hreach.trans hreach', hends⟩
  | false =>
    obtain ⟨t, hreach, hmoved, htemps, hline, hret, hpres, hseq⟩ := run_startConv_present hready rfl hv
    obtain ⟨u, hreach', hends⟩ := dsStartConversion_finishes hquiet hmoved htemps hline hseq
    rw [hret, hpres] at hends
    exact ⟨_, u, hquiet.exec_accepts rfl, accepted rfl rfl, hreach.trans hreach', hends⟩

/-- Settles O18: the read of the scratchpad is all the operation does. -/
theorem dsGetConversionCompletes : Obligations.DsGetConversionCompletes := by
  intro s hquiet
  obtain ⟨u, hreach, hends, hpresence, hpres, hdata, hpolln⟩ :=
    run_scratchpad (w := 0x00000007#32) (c := 0) (k := 0) (.inl rfl) hquiet (.refl _) rfl rfl rfl (fun _ => rfl) rfl
  refine ⟨_, u, hquiet.exec_accepts rfl, accepted rfl rfl, hreach, ?_, hpresence, hpres, hdata, hpolln⟩
  simp only [EndsWithScratchpad, List.nil_append, Nat.zero_add, Nat.add_zero] at hends
  split_ifs at hends ⊢ <;>
    obtain ⟨hfinished, -, hregisters⟩ := hends <;>
    exact ⟨hfinished, hregisters⟩

/-- `DS_READ` and `DS_READ_BOUNDED` end after a bus reset that sees no presence (R90 to R93, R100). -/
theorem read_finishes_absent {s : State} {op : Op} {o : Operand} {p : Point} {w : Word}
    (hop : (op = .dsRead ∧ p = .rdTest) ∨ (op = .dsReadBounded ∧ p = .rnTest)) (hq : Quiet s)
    (hs : (s.accept op w).seq = .run op o [.rstDrive, .scTest, p]) (hv : s.levelAt 0 = true) :
    ∃ u, Reaches (s.accept op w) u ∧
      Finished s u op w .busAbsent (traceReset s.params true) 1 2 (nominalReset s.params true) ∧
      Status.presence u.status = false ∧ u.data = s.data ∧ u.temp = s.temp ∧ u.lsb = s.lsb ∧ u.msb = s.msb ∧
      u.polln = s.polln := by
  obtain ⟨t, hreach, hmoved, htemps, hline, hret, hpres, hseq⟩ :=
    run_read_absent (hop.imp And.right And.right) (hq.ready_accept op w) hs hv
  obtain ⟨u, hreach', hfinished, htemps', -, hpresence, hdata, htemp⟩ :=
    run_finish_read (.inr (hop.imp And.left And.left)) hq hmoved hline hseq
  rw [hret] at hfinished htemp
  have hsame := htemps.trans htemps'
  exact ⟨u, hreach.trans hreach', hfinished, hpresence.trans hpres, hdata, htemp, hsame.lsb, hsame.msb, hsame.polln⟩

/-- Settles O19: the blocking form of `read_finishes_absent`. -/
theorem dsReadWithoutDeviceEndsAtOnce : Obligations.DsReadWithoutDeviceEndsAtOnce := by
  intro s hquiet hv
  obtain ⟨u, hends⟩ := read_finishes_absent (w := 0x00000008#32) (.inl ⟨rfl, rfl⟩) hquiet rfl hv
  exact ⟨_, u, hquiet.exec_accepts rfl, accepted rfl rfl, hends⟩

/-- Settles O20: the poll loop leaves at its first 1, and the operation ends with the read of the scratchpad. -/
theorem dsReadCompletesAfterAnyBusyPolls : Obligations.DsReadCompletesAfterAnyBusyPolls := by
  intro s k hquiet hv hbusy hdone
  obtain ⟨t, hreach, hmoved, htemps, hseq⟩ :=
    run_read_done (hquiet.ready_accept .dsRead 0x00000008#32) rfl hv hbusy hdone
  obtain ⟨u, hreach', hends, -, -, hdata, hpolln⟩ :=
    run_scratchpad (c := 2) (.inr (.inl rfl)) hquiet hmoved htemps.lsb htemps.msb hseq (fun _ => rfl) rfl
  exact ⟨_, u, hquiet.exec_accepts rfl, accepted rfl rfl, hreach.trans hreach', hends, hdata,
    hpolln.trans htemps.polln⟩

/-- Settles O21: after `k` busy polls the poll loop stands where it began, and nothing but the bus has moved. -/
theorem dsReadPollsWithoutBound : Obligations.DsReadPollsWithoutBound := by
  intro s k hquiet hv hbusy
  obtain ⟨t, hreach, hmoved, -, hseq⟩ := run_read_busy (hquiet.ready_accept .dsRead 0x00000008#32) rfl hv hbusy
  refine ⟨_, t, hquiet.exec_accepts rfl, hreach, hseq, ?_, ?_, hmoved.temp, hmoved.data, hmoved.trace⟩ <;>
    simp [hmoved.status]

/-- Settles O22: the bounded form of `read_finishes_absent`. -/
theorem dsReadBoundedWithoutDeviceEndsAtOnce : Obligations.DsReadBoundedWithoutDeviceEndsAtOnce := by
  intro s limit hquiet hlimit hv
  rw [← wordDsreadb_eq_or limit]
  have haccepted := accepted_dsreadb s limit
  obtain ⟨u, hends⟩ := read_finishes_absent (.inr ⟨rfl, rfl⟩) hquiet haccepted.seq hv
  exact ⟨_, u, hquiet.exec_accepts (exec_dsreadb hlimit s), haccepted, hends⟩

/-- Settles O23: the loop ends at its first 1, on the last allowed slot too, and the test after it goes on to the read
of the scratchpad. -/
theorem dsReadBoundedCompletesWithinTheLimit : Obligations.DsReadBoundedCompletesWithinTheLimit := by
  intro s limit k hquiet hk hv hbusy hdone
  have hlimit : limit ≠ 0 := by rintro rfl; exact absurd hk (Nat.not_lt_zero k)
  rw [← wordDsreadb_eq_or limit]
  have haccepted := accepted_dsreadb s limit
  have hready := hquiet.ready_accept .dsReadBounded (wordDsreadb limit)
  obtain ⟨a, ra, ma, na, la, ha, xa, -, -, qa⟩ := run_bounded_polled hready haccepted.seq hv hk hbusy (.inl hdone)
  simp only [accept_levelAt, hdone] at ma xa
  obtain ⟨t, hreach, hmoved, hbytes, -, -, -, -, hseq⟩ :=
    run_goto (qs := [.rstDrive, .gcTest, .rnReturn]) (hready.moved ma) qa (by simp [stepPoint, xa])
  have hmoved := ma.trans hmoved
  simp only [List.append_nil, Nat.add_zero] at hmoved
  obtain ⟨u, hreach', hends, -, -, hdata, hpolln⟩ :=
    run_scratchpad (c := 2) (.inr (.inr rfl)) hquiet hmoved (hbytes.lsb.trans la) (hbytes.msb.trans ha) hseq
      (fun _ => rfl) rfl
  exact ⟨_, u, hquiet.exec_accepts (exec_dsreadb hlimit s), haccepted, ra.trans (hreach.trans hreach'), hends, hdata,
    hpolln.trans (hbytes.polln.trans na)⟩

/-- Settles O24: the last allowed poll reads 0 too, and the test after the loop returns `TIMEOUT`. -/
theorem dsReadBoundedTimesOut : Obligations.DsReadBoundedTimesOut := by
  intro s limit hquiet hlimit hv hbusy
  obtain ⟨k, hk⟩ : ∃ k, limit.toNat = k + 1 :=
    Nat.exists_eq_succ_of_ne_zero fun h => hlimit (BitVec.eq_of_toNat_eq h)
  rw [← wordDsreadb_eq_or limit, hk]
  rw [hk] at hbusy
  have haccepted := accepted_dsreadb s limit
  have hready := hquiet.ready_accept .dsReadBounded (wordDsreadb limit)
  obtain ⟨a, ra, ma, na, la, ha, xa, pa, oa, qa⟩ := run_bounded_polled (k := k) hready haccepted.seq hv
    (hk.symm ▸ Nat.lt_succ_self k : k < limit.toNat) (fun j hj => hbusy j (Nat.lt_succ_of_lt hj)) (.inr hk.symm)
  have hlast : s.levelAt (1 + k) = false := hbusy k (Nat.lt_succ_self k)
  simp only [accept_levelAt, hlast] at ma xa
  obtain ⟨t, hreach, hmoved, htemps, hline, hret, -, hpres, hseq⟩ := run_return (r := .timeout) (hready.moved ma) qa
    (fun _ => rfl) (by simp [stepPoint, xa])
  have hmoved := ma.trans hmoved
  rw [List.append_nil, List.append_assoc, ← traceBusyPolls_succ_last] at hmoved
  obtain ⟨u, hreach', hfinished, htemps', -, hpresence, hdata, htemp⟩ :=
    run_finish_read (.inr (.inr rfl)) hquiet hmoved (hline.trans oa) hseq
  rw [hret, show 2 + k + 0 = 1 + (k + 1) by omega] at hfinished
  rw [hret] at htemp
  have hsame := htemps.trans htemps'
  exact ⟨_, u, hquiet.exec_accepts (exec_dsreadb hlimit s), haccepted, ra.trans (hreach.trans hreach'), hfinished,
    hpresence.trans (hpres.trans pa), hdata, htemp, hsame.lsb.trans la, hsame.msb.trans ha, hsame.polln.trans na⟩

end Sys2Proof.Machine
end

section
/-! SUPPORT. The family 60_exceptions: what an illegal word written to `CMD` does to an idle block (R102). -/

namespace Sys2Proof.Machine

/-- R102: an illegal word written to an idle block is held by `CMD` and completes in the step that accepts it. -/
theorem step_writeCmd_illegal_idle {s : State} {ts : List Turn} {w : Word} {e : DecodeError}
    (hturn : s.turns = .host (.write s.params.base 4 w) :: ts) (hw : decodeCommand w = .error e)
    (hidle : Status.busy s.status = false) :
    step s = .next { s with
      turns := ts, cmd := w, status := Status.complete .illegal s.status, trace := s.trace ++ [.done none .illegal] } := by
  rw [step_writeCmd_illegal hturn hw, writeIllegal_idle (s := { s with turns := ts }) hidle]

/-- Settles O28: the step writes `STATUS` by a completion with `ILLEGAL`, which keeps `PRESENCE` and `OVERRUN`. -/
theorem illegalWordCompletesAtAcceptance : Obligations.IllegalWordCompletesAtAcceptance := by
  intro s ts w e hturn hw hidle
  exact ⟨_, step_writeCmd_illegal_idle hturn hw hidle, rfl, busy_complete .., done_complete .., result_complete ..,
    presence_complete .., overrun_complete ..⟩

end Sys2Proof.Machine
end

section
/-! SUPPORT. The family 70_reset_and_hazards: the state block reset leaves (R117), the step of a block reset (R118, R119)
and the invariant at reset. -/

namespace Sys2Proof.Machine

/-- Settles O1: the registers as `State.reset` defines them, and the fields of the word 0 in `STATUS`. -/
theorem resetHoldsTheStatedValues : Obligations.ResetHoldsTheStatedValues := by
  refine ⟨rfl, rfl, rfl, rfl, rfl, rfl, rfl, ?fields⟩
  case fields => decide

/-- The bit index a block reset leaves is in the range of R21, whatever it is (R117). -/
theorem blockReset_biti_le (s : State) : s.blockReset.biti ≤ 8 :=
  Nat.le_of_lt_succ (Config.freeBiti s.resets).isLt

/-- So is the poll count. -/
theorem blockReset_polln_le (s : State) : s.blockReset.polln ≤ 65535 :=
  Nat.le_of_lt_succ (Config.freePolln s.resets).isLt

/-- Settles O2: the step is `State.blockReset` with its turn used up, and what R117 leaves open keeps its range. -/
theorem blockResetAbortsAndReleases : Obligations.BlockResetAbortsAndReleases := by
  intro s ts hturn
  refine ⟨_, step_blockReset hturn, ?registers⟩
  have hbiti := blockReset_biti_le { s with turns := ts }
  have hpolln := blockReset_polln_le { s with turns := ts }
  exact ⟨rfl, rfl, rfl, rfl, rfl, rfl, rfl, rfl, rfl, rfl, rfl, rfl, rfl, rfl, rfl, rfl, hbiti, hpolln⟩

/-- Settles O38: the reset state is idle with the line released, so nothing is asked of a running operation. -/
theorem resetSatisfiesTheInvariant : Obligations.ResetSatisfiesTheInvariant where
  busyRuns := ⟨nofun, fun hrunning => absurd rfl hrunning⟩
  busyNotDone _ := rfl
  statusReserved := rfl
  dataReserved := rfl
  tempExtended := rfl
  bitiRange := Nat.zero_le _
  pollnRange := Nat.zero_le _
  noDelay := rfl
  idleReleased _ := rfl
  running _ _ _ := nofun

end Sys2Proof.Machine
end
